-- ==== Sys2Proof/Word.lean ====
section
/-! DEFINITION. The word types: what the spec treats as bits, and nothing else. -/

namespace Sys2Proof

/-- The addressable unit of memory (10_state.md R23). -/
abbrev Byte := BitVec 8

/-- General registers, the instruction pointer, addresses, opmask registers (10_state.md R14, R16, R17). -/
abbrev Word64 := BitVec 64

/-- One vector register, `MAXVL` = 512 bits (10_state.md R10, 00_scope.md R5). -/
abbrev Vec := BitVec 512

end Sys2Proof
end

