-- ==== Sys2Proof/Config.lean ====
section
/-! DEFINITION. What an implementation fixes: the CPUID flags and the linear-address width
(00_scope.md section 4), and the constants the spec decides. -/

namespace Sys2Proof

/-- The fixed properties of the processor: the four CPUID flags (10_state.md R20) and whether linear
addresses have 57 significant bits instead of 48 (20_memory.md R42). No instruction writes them. -/
structure Config where
  /-- CPUID.01H:EDX bit 26 -/
  sse2 : Bool
  /-- CPUID.01H:ECX bit 28 -/
  avx : Bool
  /-- CPUID.(EAX=07H,ECX=0):EBX bit 16 -/
  avx512f : Bool
  /-- CPUID.(EAX=07H,ECX=0):EBX bit 31 -/
  avx512vl : Bool
  /-- `LAW` = 57 rather than 48 -/
  la57 : Bool
deriving DecidableEq, Repr

/-- The spec's primary configuration (00_scope.md section 4): all four CPUID flags 1.
DESIGN CHOICE (log 5): `LAW` = 48, as in the start state of the spec's test vectors. -/
def Config.primary : Config :=
  { sse2 := true, avx := true, avx512f := true, avx512vl := true, la57 := false }

/-- The longest legal instruction, in bytes (30_encoding.md R68). -/
def maxInstrBytes : Nat := 15

end Sys2Proof
end

