-- ==== Sys2Proof/Syntax.lean ====
section
/-! DEFINITION. The instructions as syntax: one constructor for each row of spec/opcode_table.json,
holding every field the row's encoding has. A field keeps the bits the encoding stores (a name that
ends in `Bar` is stored inverted, 30_encoding.md R54 to R57), so that the encoding of an instruction
is determined by it; what the fields mean is said in Machine/Operands.lean. -/

namespace Sys2Proof

/-- The operating mode as the decoder sees it (00_scope.md section 4, 10_state.md R21). -/
inductive Mode where
  | mode64
  | mode32
  | mode16
deriving DecidableEq, Repr

/-- The bytes that may stand before the opcode: the legacy prefixes of 30_encoding.md R52 and, in
64-bit mode, a REX byte with its four bits `WRXB` (R53). -/
inductive Prefix where
  /-- `F0` LOCK -/
  | lock
  /-- `F2` REPNE -/
  | repne
  /-- `F3` REP -/
  | rep
  /-- `26` -/
  | es
  /-- `2E` -/
  | cs
  /-- `36` -/
  | ss
  /-- `3E` -/
  | ds
  /-- `64` -/
  | fs
  /-- `65` -/
  | gs
  /-- `66` -/
  | opsize
  /-- `67` -/
  | addrsize
  /-- `40` to `4F`, 64-bit mode only -/
  | rex (wrxb : BitVec 4)
deriving DecidableEq, Repr

/-- The displacement of 32- or 64-bit addressing: absent (`mod` = 00), 8 bits (`mod` = 01) or 32 bits
(`mod` = 10) (30_encoding.md R62). -/
inductive Disp where
  | none
  | d8 (d : BitVec 8)
  | d32 (d : BitVec 32)
deriving DecidableEq, Repr

/-- The displacement of 16-bit addressing (30_encoding.md R62). -/
inductive Disp16 where
  | none
  | d8 (d : BitVec 8)
  | d16 (d : BitVec 16)
deriving DecidableEq, Repr

/-- A memory operand as ModRM, SIB and displacement spell it (20_memory.md R40, 30_encoding.md R60,
R61, R67). Register numbers are the three encoded bits, without the extension bits. -/
inductive MemOp where
  /-- no SIB byte, a base register -/
  | base (rm : BitVec 3) (disp : Disp)
  /-- `mod` = 00, `rm` = 101: RIP-relative in 64-bit mode, absolute elsewhere -/
  | ripOrAbs (disp : BitVec 32)
  /-- a SIB byte with a base register -/
  | sib (scale : BitVec 2) (index base : BitVec 3) (disp : Disp)
  /-- a SIB byte with `mod` = 00 and `base` = 101: no base register, a 32-bit displacement -/
  | sibNoBase (scale : BitVec 2) (index : BitVec 3) (disp : BitVec 32)
  /-- 16-bit addressing through the register table of R67 -/
  | base16 (rm : BitVec 3) (disp : Disp16)
  /-- 16-bit addressing, `mod` = 00 and `rm` = 110: displacement only -/
  | abs16 (disp : BitVec 16)
deriving DecidableEq, Repr

/-- The operand in `ModRM:r/m`: a vector register (`mod` = 11) or memory (30_encoding.md R65, R66). -/
inductive RM where
  | reg (rm : BitVec 3)
  | mem (m : MemOp)
deriving DecidableEq, Repr

/-- The ModRM byte with what follows it: `reg` always names a vector register (30_encoding.md R64). -/
structure ModRM where
  reg : BitVec 3
  rm : RM
deriving DecidableEq, Repr

/-- The payload of the two-byte VEX prefix that is not fixed by the row (30_encoding.md R54). -/
structure Vex2 where
  rBar : Bool
  vvvv : BitVec 4
deriving DecidableEq, Repr

/-- The payload of the three-byte VEX prefix that is not fixed by the row (30_encoding.md R55). -/
structure Vex3 where
  rBar : Bool
  xBar : Bool
  bBar : Bool
  w : Bool
  vvvv : BitVec 4
deriving DecidableEq, Repr

/-- The payload of the EVEX prefix that is not fixed by the row (30_encoding.md R57). `p0Reserved` is
P0 bits 3:2 and `p1Fixed` is P1 bit 2: must-be bits, whose wrong value raises #UD (R73, R78). -/
structure Evex where
  rBar : Bool
  xBar : Bool
  bBar : Bool
  r2Bar : Bool
  p0Reserved : BitVec 2
  vvvv : BitVec 4
  p1Fixed : Bool
  z : Bool
  b : Bool
  v2Bar : Bool
  aaa : BitVec 3
deriving DecidableEq, Repr

/-- The instructions, one constructor for each row of spec/opcode_table.json, in its order. `RegRm` is
opcode `6F` (from `ModRM:r/m` to `ModRM:reg`), `RmReg` is opcode `7F` (30_encoding.md R69); `Xmm`,
`Ymm`, `Zmm` are the vector lengths 128, 256 and 512. -/
inductive Instr where
  /-- row 1, LEG, R100 -/
  | movdqaRegRm (p : List Prefix) (m : ModRM)
  /-- row 2, LEG, R101 -/
  | movdqaRmReg (p : List Prefix) (m : ModRM)
  /-- row 3, VEX2, R110 -/
  | vmovdqaXmmRegRmVex2 (p : List Prefix) (v : Vex2) (m : ModRM)
  /-- row 3, VEX3, R110 -/
  | vmovdqaXmmRegRmVex3 (p : List Prefix) (v : Vex3) (m : ModRM)
  /-- row 4, VEX2, R111 -/
  | vmovdqaXmmRmRegVex2 (p : List Prefix) (v : Vex2) (m : ModRM)
  /-- row 4, VEX3, R111 -/
  | vmovdqaXmmRmRegVex3 (p : List Prefix) (v : Vex3) (m : ModRM)
  /-- row 5, VEX2, R112 -/
  | vmovdqaYmmRegRmVex2 (p : List Prefix) (v : Vex2) (m : ModRM)
  /-- row 5, VEX3, R112 -/
  | vmovdqaYmmRegRmVex3 (p : List Prefix) (v : Vex3) (m : ModRM)
  /-- row 6, VEX2, R113 -/
  | vmovdqaYmmRmRegVex2 (p : List Prefix) (v : Vex2) (m : ModRM)
  /-- row 6, VEX3, R113 -/
  | vmovdqaYmmRmRegVex3 (p : List Prefix) (v : Vex3) (m : ModRM)
  /-- row 7, EVEX, R120 -/
  | vmovdqa32XmmRegRm (p : List Prefix) (e : Evex) (m : ModRM)
  /-- row 8, EVEX, R121 -/
  | vmovdqa32YmmRegRm (p : List Prefix) (e : Evex) (m : ModRM)
  /-- row 9, EVEX, R122 -/
  | vmovdqa32ZmmRegRm (p : List Prefix) (e : Evex) (m : ModRM)
  /-- row 10, EVEX, R123 -/
  | vmovdqa32XmmRmReg (p : List Prefix) (e : Evex) (m : ModRM)
  /-- row 11, EVEX, R124 -/
  | vmovdqa32YmmRmReg (p : List Prefix) (e : Evex) (m : ModRM)
  /-- row 12, EVEX, R125 -/
  | vmovdqa32ZmmRmReg (p : List Prefix) (e : Evex) (m : ModRM)
  /-- row 13, EVEX, R140 -/
  | vmovdqa64XmmRegRm (p : List Prefix) (e : Evex) (m : ModRM)
  /-- row 14, EVEX, R141 -/
  | vmovdqa64YmmRegRm (p : List Prefix) (e : Evex) (m : ModRM)
  /-- row 15, EVEX, R142 -/
  | vmovdqa64ZmmRegRm (p : List Prefix) (e : Evex) (m : ModRM)
  /-- row 16, EVEX, R143 -/
  | vmovdqa64XmmRmReg (p : List Prefix) (e : Evex) (m : ModRM)
  /-- row 17, EVEX, R144 -/
  | vmovdqa64YmmRmReg (p : List Prefix) (e : Evex) (m : ModRM)
  /-- row 18, EVEX, R145 -/
  | vmovdqa64ZmmRmReg (p : List Prefix) (e : Evex) (m : ModRM)
deriving DecidableEq, Repr

end Sys2Proof
end

