-- ==== Sys2Proof/WellFormed.lean ====
section
/-! DEFINITION. Which instructions the encoding can spell in a mode. It says nothing about whether an
instruction executes: a well-formed instruction may raise #UD or #GP. -/

namespace Sys2Proof

/-- Whether the effective address has 16 bits: the mode's default, switched by the prefix `67`
(20_memory.md R40, 30_encoding.md R67). -/
def addr16 (mode : Mode) (p : List Prefix) : Bool :=
  match mode with
  | .mode64 => false
  | .mode32 => p.contains .addrsize
  | .mode16 => !p.contains .addrsize

/-- REX exists in 64-bit mode only (30_encoding.md R53). -/
def Prefix.wf (mode : Mode) : Prefix → Bool
  | .rex _ => mode == .mode64
  | _ => true

/-- The prefixes that select MOVDQA: `66` occurs, `F2` and `F3` do not (30_encoding.md R52). -/
def legPrefixes (p : List Prefix) : Bool :=
  p.contains .opsize && !p.contains .repne && !p.contains .rep

/-- Which operands ModRM, SIB and displacement spell: `rm` = 100 takes a SIB byte, and `mod` = 00 with
`rm` (or SIB `base`) = 101, or `rm` = 110 in 16-bit addressing, spells another operand
(20_memory.md R40, 30_encoding.md R60 to R62, R67). -/
def MemOp.wf (a16 : Bool) : MemOp → Bool
  | .base rm d => !a16 && rm != 4 && (rm != 5 || d != .none)
  | .ripOrAbs _ => !a16
  | .sib _ _ b d => !a16 && (b != 5 || d != .none)
  | .sibNoBase _ _ _ => !a16
  | .base16 rm d => a16 && (rm != 6 || d != .none)
  | .abs16 _ => a16

/-- The `r/m` operand fits the address size; a register always does. -/
def ModRM.wf (a16 : Bool) (m : ModRM) : Bool :=
  match m.rm with
  | .reg _ => true
  | .mem o => o.wf a16

/-- Outside 64-bit mode `C5` begins a VEX prefix only when bits 7:6 of the next byte are 11
(30_encoding.md R59). -/
def Vex2.wf (mode : Mode) (v : Vex2) : Bool :=
  mode == .mode64 || (v.rBar && v.vvvv.getLsbD 3)

/-- Outside 64-bit mode every stored extension bit is 1 (30_encoding.md R59, 92 D25). -/
def Vex3.wf (mode : Mode) (v : Vex3) : Bool :=
  mode == .mode64 || (v.rBar && v.xBar && v.bBar)

/-- Outside 64-bit mode every stored extension bit, and the stored `V'`, is 1
(30_encoding.md R59, 92 D25). -/
def Evex.wf (mode : Mode) (e : Evex) : Bool :=
  mode == .mode64 || (e.rBar && e.xBar && e.bBar && e.r2Bar && e.v2Bar)

/-- The parts that all instructions share: prefixes that exist in the mode, and an `r/m` operand of
the address size. -/
def partsWf (mode : Mode) (p : List Prefix) (m : ModRM) : Bool :=
  p.all (Prefix.wf mode) && m.wf (addr16 mode p)

/-- Which instructions the encoding can spell in the mode. -/
def Instr.wf (mode : Mode) : Instr → Bool
  | .movdqaRegRm p m => partsWf mode p m && legPrefixes p
  | .movdqaRmReg p m => partsWf mode p m && legPrefixes p
  | .vmovdqaXmmRegRmVex2 p v m => partsWf mode p m && v.wf mode
  | .vmovdqaXmmRegRmVex3 p v m => partsWf mode p m && v.wf mode
  | .vmovdqaXmmRmRegVex2 p v m => partsWf mode p m && v.wf mode
  | .vmovdqaXmmRmRegVex3 p v m => partsWf mode p m && v.wf mode
  | .vmovdqaYmmRegRmVex2 p v m => partsWf mode p m && v.wf mode
  | .vmovdqaYmmRegRmVex3 p v m => partsWf mode p m && v.wf mode
  | .vmovdqaYmmRmRegVex2 p v m => partsWf mode p m && v.wf mode
  | .vmovdqaYmmRmRegVex3 p v m => partsWf mode p m && v.wf mode
  | .vmovdqa32XmmRegRm p e m => partsWf mode p m && e.wf mode
  | .vmovdqa32YmmRegRm p e m => partsWf mode p m && e.wf mode
  | .vmovdqa32ZmmRegRm p e m => partsWf mode p m && e.wf mode
  | .vmovdqa32XmmRmReg p e m => partsWf mode p m && e.wf mode
  | .vmovdqa32YmmRmReg p e m => partsWf mode p m && e.wf mode
  | .vmovdqa32ZmmRmReg p e m => partsWf mode p m && e.wf mode
  | .vmovdqa64XmmRegRm p e m => partsWf mode p m && e.wf mode
  | .vmovdqa64YmmRegRm p e m => partsWf mode p m && e.wf mode
  | .vmovdqa64ZmmRegRm p e m => partsWf mode p m && e.wf mode
  | .vmovdqa64XmmRmReg p e m => partsWf mode p m && e.wf mode
  | .vmovdqa64YmmRmReg p e m => partsWf mode p m && e.wf mode
  | .vmovdqa64ZmmRmReg p e m => partsWf mode p m && e.wf mode

end Sys2Proof
end

