-- ==== Sys2Proof/Decode.lean ====
section
/-! DEFINITION. The decoder (30_encoding.md R71), total on any bytes, and the encoder, written from the
same layouts. PRESUMED: every bit position is the spec's general knowledge (log 33). -/

namespace Sys2Proof

/-- What the decoder answers for the bytes at the instruction pointer. -/
inductive Decoded where
  /-- a row of the opcode table is selected (30_encoding.md R78) -/
  | instr (i : Instr)
  /-- an EVEX encoding of opcode `6F` or `7F` of `len` bytes that no row matches and that raises #UD:
  `L'L` = 11 or `mm` = 00 (30_encoding.md R73, R78; log 19) -/
  | illegal (len : Nat)
  /-- the bytes are not one of the eighteen forms: refused (30_encoding.md R71) -/
  | notInScope
  /-- the bytes end inside the instruction -/
  | truncated
deriving DecidableEq, Repr

/-! ## Prefixes -/

/-- The prefix a byte is in the mode, if it is one (30_encoding.md R52, R53, R71 step 1). -/
def prefixOf (mode : Mode) (b : Byte) : Option Prefix :=
  if b = 0xF0 then some .lock
  else if b = 0xF2 then some .repne
  else if b = 0xF3 then some .rep
  else if b = 0x26 then some .es
  else if b = 0x2E then some .cs
  else if b = 0x36 then some .ss
  else if b = 0x3E then some .ds
  else if b = 0x64 then some .fs
  else if b = 0x65 then some .gs
  else if b = 0x66 then some .opsize
  else if b = 0x67 then some .addrsize
  else if mode = .mode64 ∧ b.extractLsb' 4 4 = 4#4 then some (.rex (b.extractLsb' 0 4))
  else none

/-- The prefixes at the head of the bytes, and the bytes after them. DEDUCED (log 17): a REX byte
followed by another prefix is taken along and ignored, as R53 says. -/
def takePrefixes (mode : Mode) : List Byte → List Prefix × List Byte
  | [] => ([], [])
  | b :: bs =>
    match prefixOf mode b with
    | some p => (p :: (takePrefixes mode bs).1, (takePrefixes mode bs).2)
    | none => ([], b :: bs)

/-! ## ModRM, SIB, displacement -/

/-- A 16-bit little-endian displacement (30_encoding.md R62). -/
def takeD16 : List Byte → Option (BitVec 16 × List Byte)
  | b0 :: b1 :: bs => some (b1 ++ b0, bs)
  | _ => none

/-- A 32-bit little-endian displacement (30_encoding.md R62). -/
def takeD32 : List Byte → Option (BitVec 32 × List Byte)
  | b0 :: b1 :: b2 :: b3 :: bs => some (b3 ++ b2 ++ b1 ++ b0, bs)
  | _ => none

/-- The displacement that `mod` asks for, 32- or 64-bit addressing (30_encoding.md R60, R62). -/
def takeDisp (mod : BitVec 2) (bs : List Byte) : Option (Disp × List Byte) :=
  if mod = 0 then some (.none, bs)
  else if mod = 1 then
    match bs with
    | b :: bs' => some (.d8 b, bs')
    | [] => none
  else (takeD32 bs).map fun r => (.d32 r.1, r.2)

/-- The displacement that `mod` asks for, 16-bit addressing (30_encoding.md R62, R67). -/
def takeDisp16 (mod : BitVec 2) (bs : List Byte) : Option (Disp16 × List Byte) :=
  if mod = 0 then some (.none, bs)
  else if mod = 1 then
    match bs with
    | b :: bs' => some (.d8 b, bs')
    | [] => none
  else (takeD16 bs).map fun r => (.d16 r.1, r.2)

/-- The memory operand of 32- or 64-bit addressing (30_encoding.md R60 to R62). -/
def takeMem32 (mod : BitVec 2) (rm : BitVec 3) (bs : List Byte) : Option (MemOp × List Byte) :=
  if rm = 4 then
    match bs with
    | [] => none
    | sib :: bs' =>
      if mod = 0 ∧ sib.extractLsb' 0 3 = 5#3 then
        (takeD32 bs').map fun r =>
          (.sibNoBase (sib.extractLsb' 6 2) (sib.extractLsb' 3 3) r.1, r.2)
      else
        (takeDisp mod bs').map fun r =>
          (.sib (sib.extractLsb' 6 2) (sib.extractLsb' 3 3) (sib.extractLsb' 0 3) r.1, r.2)
  else if mod = 0 ∧ rm = 5 then (takeD32 bs).map fun r => (.ripOrAbs r.1, r.2)
  else (takeDisp mod bs).map fun r => (.base rm r.1, r.2)

/-- The memory operand of 16-bit addressing (30_encoding.md R67). -/
def takeMem16 (mod : BitVec 2) (rm : BitVec 3) (bs : List Byte) : Option (MemOp × List Byte) :=
  if mod = 0 ∧ rm = 6 then (takeD16 bs).map fun r => (.abs16 r.1, r.2)
  else (takeDisp16 mod bs).map fun r => (.base16 rm r.1, r.2)

/-- ModRM and all that follows it; none if the bytes end inside it (30_encoding.md R60). -/
def takeModRM (a16 : Bool) : List Byte → Option (ModRM × List Byte)
  | [] => none
  | b :: bs =>
    let mod := b.extractLsb' 6 2
    let reg := b.extractLsb' 3 3
    let rm := b.extractLsb' 0 3
    if mod = 3 then some (⟨reg, .reg rm⟩, bs)
    else
      (if a16 then takeMem16 mod rm bs else takeMem32 mod rm bs).map fun r =>
        (⟨reg, .mem r.1⟩, r.2)

/-! ## The formats -/

/-- `mk` of the ModRM at the head of the bytes, or `truncated`. -/
def withModRM (a16 : Bool) (bs : List Byte) (mk : ModRM → Decoded) : Decoded :=
  match takeModRM a16 bs with
  | some r => mk r.1
  | none => .truncated

/-- The row that an opcode byte selects between a `6F` row and a `7F` row (30_encoding.md R70). -/
def byOpcode (op : Byte) (i6F i7F : Instr) : Instr :=
  if op = 0x6F then i6F else i7F

/-- Whether the opcode byte is one of the two in scope (30_encoding.md R71). -/
def opInScope (op : Byte) : Bool := op == 0x6F || op == 0x7F

/-- Format LEG, after `0F` (30_encoding.md R51, R52, R71 step 2b). -/
def decodeLeg (mode : Mode) (p : List Prefix) : List Byte → Decoded
  | [] => .truncated
  | op :: bs =>
    if opInScope op && legPrefixes p then
      withModRM (addr16 mode p) bs fun m =>
        .instr (byOpcode op (.movdqaRegRm p m) (.movdqaRmReg p m))
    else .notInScope

/-- The row of the two-byte VEX spelling with the given `L` and opcode (30_encoding.md R56). -/
def vex2Row (l : Bool) (op : Byte) (p : List Prefix) (v : Vex2) (m : ModRM) : Instr :=
  if l then byOpcode op (.vmovdqaYmmRegRmVex2 p v m) (.vmovdqaYmmRmRegVex2 p v m)
  else byOpcode op (.vmovdqaXmmRegRmVex2 p v m) (.vmovdqaXmmRmRegVex2 p v m)

/-- Format VEX2, after `C5` (30_encoding.md R54, R59, R71 step 2c). -/
def decodeVex2 (mode : Mode) (p : List Prefix) : List Byte → Decoded
  | v0 :: op :: bs =>
    let v : Vex2 := { rBar := v0.getLsbD 7, vvvv := v0.extractLsb' 3 4 }
    if v.wf mode && v0.extractLsb' 0 2 == 1#2 && opInScope op then
      withModRM (addr16 mode p) bs fun m => .instr (vex2Row (v0.getLsbD 2) op p v m)
    else .notInScope
  | _ => .truncated

/-- The row of the three-byte VEX spelling with the given `L` and opcode (30_encoding.md R56). -/
def vex3Row (l : Bool) (op : Byte) (p : List Prefix) (v : Vex3) (m : ModRM) : Instr :=
  if l then byOpcode op (.vmovdqaYmmRegRmVex3 p v m) (.vmovdqaYmmRmRegVex3 p v m)
  else byOpcode op (.vmovdqaXmmRegRmVex3 p v m) (.vmovdqaXmmRmRegVex3 p v m)

/-- Format VEX3, after `C4` (30_encoding.md R55, R59, R71 step 2c). -/
def decodeVex3 (mode : Mode) (p : List Prefix) : List Byte → Decoded
  | v0 :: v1 :: op :: bs =>
    let v : Vex3 :=
      { rBar := v0.getLsbD 7, xBar := v0.getLsbD 6, bBar := v0.getLsbD 5,
        w := v1.getLsbD 7, vvvv := v1.extractLsb' 3 4 }
    if v.wf mode && v0.extractLsb' 0 5 == 1#5 && v1.extractLsb' 0 2 == 1#2 && opInScope op then
      withModRM (addr16 mode p) bs fun m => .instr (vex3Row (v1.getLsbD 2) op p v m)
    else .notInScope
  | _ => .truncated

/-- The EVEX row with the given `W`, `L'L` and opcode; none for `L'L` = 11 (30_encoding.md R58). -/
def evexRow (w : Bool) (ll : BitVec 2) (op : Byte) (p : List Prefix) (e : Evex) (m : ModRM) :
    Option Instr :=
  if ll = 0 then
    some (if w then byOpcode op (.vmovdqa64XmmRegRm p e m) (.vmovdqa64XmmRmReg p e m)
      else byOpcode op (.vmovdqa32XmmRegRm p e m) (.vmovdqa32XmmRmReg p e m))
  else if ll = 1 then
    some (if w then byOpcode op (.vmovdqa64YmmRegRm p e m) (.vmovdqa64YmmRmReg p e m)
      else byOpcode op (.vmovdqa32YmmRegRm p e m) (.vmovdqa32YmmRmReg p e m))
  else if ll = 2 then
    some (if w then byOpcode op (.vmovdqa64ZmmRegRm p e m) (.vmovdqa64ZmmRmReg p e m)
      else byOpcode op (.vmovdqa32ZmmRegRm p e m) (.vmovdqa32ZmmRmReg p e m))
  else none

/-! ## The encoder: bytes of the operands -/

/-- The two bytes of a 16-bit displacement, low byte first (30_encoding.md R62). -/
def d16Bytes (d : BitVec 16) : List Byte := [d.extractLsb' 0 8, d.extractLsb' 8 8]

/-- The four bytes of a 32-bit displacement, low byte first (30_encoding.md R62). -/
def d32Bytes (d : BitVec 32) : List Byte :=
  [d.extractLsb' 0 8, d.extractLsb' 8 8, d.extractLsb' 16 8, d.extractLsb' 24 8]

/-- `mod` for a displacement (30_encoding.md R60). -/
def Disp.mod : Disp → BitVec 2
  | .none => 0
  | .d8 _ => 1
  | .d32 _ => 2

/-- The bytes of a displacement (30_encoding.md R62). -/
def Disp.bytes : Disp → List Byte
  | .none => []
  | .d8 d => [d]
  | .d32 d => d32Bytes d

/-- `mod` for a displacement of 16-bit addressing (30_encoding.md R60). -/
def Disp16.mod : Disp16 → BitVec 2
  | .none => 0
  | .d8 _ => 1
  | .d16 _ => 2

/-- The bytes of a displacement of 16-bit addressing (30_encoding.md R62). -/
def Disp16.bytes : Disp16 → List Byte
  | .none => []
  | .d8 d => [d]
  | .d16 d => d16Bytes d

/-- `mod` of a memory operand (30_encoding.md R60). -/
def MemOp.mod : MemOp → BitVec 2
  | .base _ d => d.mod
  | .ripOrAbs _ => 0
  | .sib _ _ _ d => d.mod
  | .sibNoBase _ _ _ => 0
  | .base16 _ d => d.mod
  | .abs16 _ => 0

/-- The `rm` field of a memory operand (30_encoding.md R60). -/
def MemOp.rmField : MemOp → BitVec 3
  | .base rm _ => rm
  | .ripOrAbs _ => 5
  | .sib _ _ _ _ => 4
  | .sibNoBase _ _ _ => 4
  | .base16 rm _ => rm
  | .abs16 _ => 6

/-- SIB and displacement (30_encoding.md R61, R62). -/
def MemOp.tail : MemOp → List Byte
  | .base _ d => d.bytes
  | .ripOrAbs d => d32Bytes d
  | .sib scale index b d => (scale ++ index ++ b) :: d.bytes
  | .sibNoBase scale index d => (scale ++ index ++ 5#3) :: d32Bytes d
  | .base16 _ d => d.bytes
  | .abs16 d => d16Bytes d

/-- ModRM and all that follows it (30_encoding.md R60). -/
def ModRM.bytes (m : ModRM) : List Byte :=
  match m.rm with
  | .reg rm => [3#2 ++ m.reg ++ rm]
  | .mem o => (o.mod ++ m.reg ++ o.rmField) :: o.tail

/-- Format EVEX, after `62` (30_encoding.md R57, R59, R71 step 2d). A prefix with `mm` = 00 or
`L'L` = 11 selects no row and raises #UD once its length is known (R73, R78). -/
def decodeEvex (mode : Mode) (p : List Prefix) : List Byte → Decoded
  | p0 :: p1 :: p2 :: op :: bs =>
    let e : Evex :=
      { rBar := p0.getLsbD 7, xBar := p0.getLsbD 6, bBar := p0.getLsbD 5, r2Bar := p0.getLsbD 4,
        p0Reserved := p0.extractLsb' 2 2, vvvv := p1.extractLsb' 3 4, p1Fixed := p1.getLsbD 2,
        z := p2.getLsbD 7, b := p2.getLsbD 4, v2Bar := p2.getLsbD 3, aaa := p2.extractLsb' 0 3 }
    let mm := p0.extractLsb' 0 2
    if e.wf mode && (mm == 1#2 || mm == 0#2) && p1.extractLsb' 0 2 == 1#2 && opInScope op then
      withModRM (addr16 mode p) bs fun m =>
        if mm = 0 then .illegal (p.length + 5 + m.bytes.length)
        else
          match evexRow (p1.getLsbD 7) (p2.extractLsb' 5 2) op p e m with
          | some i => .instr i
          | none => .illegal (p.length + 5 + m.bytes.length)
    else .notInScope
  | _ => .truncated

/-- The decode procedure (30_encoding.md R71): prefixes, then the byte that selects the format. -/
def decode (mode : Mode) (bytes : List Byte) : Decoded :=
  match takePrefixes mode bytes with
  | (_, []) => .truncated
  | (p, b :: bs) =>
    if b = 0x0F then decodeLeg mode p bs
    else if b = 0xC5 then decodeVex2 mode p bs
    else if b = 0xC4 then decodeVex3 mode p bs
    else if b = 0x62 then decodeEvex mode p bs
    else .notInScope

/-! ## The encoder: formats -/

/-- The byte of a prefix (30_encoding.md R52, R53). -/
def Prefix.byte : Prefix → Byte
  | .lock => 0xF0
  | .repne => 0xF2
  | .rep => 0xF3
  | .es => 0x26
  | .cs => 0x2E
  | .ss => 0x36
  | .ds => 0x3E
  | .fs => 0x64
  | .gs => 0x65
  | .opsize => 0x66
  | .addrsize => 0x67
  | .rex wrxb => 4#4 ++ wrxb

/-- The prefix bytes. -/
def prefixBytes (p : List Prefix) : List Byte := p.map Prefix.byte

/-- A bit as a bit vector of width 1. -/
def bit1 (b : Bool) : BitVec 1 := BitVec.ofBool b

/-- Format LEG (30_encoding.md R51). -/
def encodeLeg (op : Byte) (p : List Prefix) (m : ModRM) : List Byte :=
  prefixBytes p ++ [0x0F, op] ++ m.bytes

/-- Format VEX2, `pp` = 01 (30_encoding.md R54, R56). -/
def encodeVex2 (l : Bool) (op : Byte) (p : List Prefix) (v : Vex2) (m : ModRM) : List Byte :=
  prefixBytes p ++ [0xC5, bit1 v.rBar ++ v.vvvv ++ bit1 l ++ 1#2, op] ++ m.bytes

/-- Format VEX3, map `0F`, `pp` = 01 (30_encoding.md R55, R56). -/
def encodeVex3 (l : Bool) (op : Byte) (p : List Prefix) (v : Vex3) (m : ModRM) : List Byte :=
  prefixBytes p ++
    [0xC4, bit1 v.rBar ++ bit1 v.xBar ++ bit1 v.bBar ++ 1#5,
      bit1 v.w ++ v.vvvv ++ bit1 l ++ 1#2, op] ++ m.bytes

/-- Format EVEX, map `0F`, `pp` = 01 (30_encoding.md R57, R58). -/
def encodeEvex (w : Bool) (ll : BitVec 2) (op : Byte) (p : List Prefix) (e : Evex) (m : ModRM) :
    List Byte :=
  prefixBytes p ++
    [0x62, bit1 e.rBar ++ bit1 e.xBar ++ bit1 e.bBar ++ bit1 e.r2Bar ++ e.p0Reserved ++ 1#2,
      bit1 w ++ e.vvvv ++ bit1 e.p1Fixed ++ 1#2,
      bit1 e.z ++ ll ++ bit1 e.b ++ bit1 e.v2Bar ++ e.aaa, op] ++ m.bytes

/-- The bytes of an instruction (30_encoding.md R50, R56, R58, R70). -/
def encode : Instr → List Byte
  | .movdqaRegRm p m => encodeLeg 0x6F p m
  | .movdqaRmReg p m => encodeLeg 0x7F p m
  | .vmovdqaXmmRegRmVex2 p v m => encodeVex2 false 0x6F p v m
  | .vmovdqaXmmRegRmVex3 p v m => encodeVex3 false 0x6F p v m
  | .vmovdqaXmmRmRegVex2 p v m => encodeVex2 false 0x7F p v m
  | .vmovdqaXmmRmRegVex3 p v m => encodeVex3 false 0x7F p v m
  | .vmovdqaYmmRegRmVex2 p v m => encodeVex2 true 0x6F p v m
  | .vmovdqaYmmRegRmVex3 p v m => encodeVex3 true 0x6F p v m
  | .vmovdqaYmmRmRegVex2 p v m => encodeVex2 true 0x7F p v m
  | .vmovdqaYmmRmRegVex3 p v m => encodeVex3 true 0x7F p v m
  | .vmovdqa32XmmRegRm p e m => encodeEvex false 0 0x6F p e m
  | .vmovdqa32YmmRegRm p e m => encodeEvex false 1 0x6F p e m
  | .vmovdqa32ZmmRegRm p e m => encodeEvex false 2 0x6F p e m
  | .vmovdqa32XmmRmReg p e m => encodeEvex false 0 0x7F p e m
  | .vmovdqa32YmmRmReg p e m => encodeEvex false 1 0x7F p e m
  | .vmovdqa32ZmmRmReg p e m => encodeEvex false 2 0x7F p e m
  | .vmovdqa64XmmRegRm p e m => encodeEvex true 0 0x6F p e m
  | .vmovdqa64YmmRegRm p e m => encodeEvex true 1 0x6F p e m
  | .vmovdqa64ZmmRegRm p e m => encodeEvex true 2 0x6F p e m
  | .vmovdqa64XmmRmReg p e m => encodeEvex true 0 0x7F p e m
  | .vmovdqa64YmmRmReg p e m => encodeEvex true 1 0x7F p e m
  | .vmovdqa64ZmmRmReg p e m => encodeEvex true 2 0x7F p e m

/-! ## The opcode table's words -/

/-- The bytes of a word of `nbits` bits read as one number, first byte most significant: the numbering of
the table's own `fixed` and `fields`. -/
def bytesMsbFirst (nbits w : Nat) : List Byte :=
  let n := (nbits + 7) / 8
  (List.range n).map fun i => BitVec.ofNat 8 (w >>> (8 * (n - 1 - i)))

/-- The bytes of a word of `nbits` bits, first byte least significant. -/
def bytesLsbFirst (nbits w : Nat) : List Byte :=
  (List.range ((nbits + 7) / 8)).map fun i => BitVec.ofNat 8 (w >>> (8 * i))

/-- The bytes as they lie in memory: the table's LEG rows begin after the mandatory prefix `66`, which is
put back (30_encoding.md R78), and what the table gives no bits is zero, up to the longest instruction. -/
def padTableBytes (bs : List Byte) : List Byte :=
  let bs' := if bs.head? = some 0x0F then 0x66 :: bs else bs
  bs' ++ List.replicate (maxInstrBytes - bs'.length) 0

/-- The instruction the decoder reads, in the spec's primary mode. -/
def instrOfBytes (bs : List Byte) : Option Instr :=
  match decode .mode64 bs with
  | .instr i => some i
  | _ => none

/-- The bytes of a word of the opcode table. DEDUCED (log 26): the word is read in the table's own
numbering, most significant byte first; where that is no instruction, least significant byte first. -/
def tableBytes (nbits w : Nat) : List Byte :=
  if (instrOfBytes (padTableBytes (bytesMsbFirst nbits w))).isSome then
    padTableBytes (bytesMsbFirst nbits w)
  else padTableBytes (bytesLsbFirst nbits w)

/-- The instruction the decoder reads from an instruction whose bits are `w`. -/
def decodeTableWord (nbits w : Nat) : Option Instr := instrOfBytes (tableBytes nbits w)

end Sys2Proof
end

