-- ==== Sys2Proof/Machine/State.lean ====
section
/-! DEFINITION. The state of the machine as plain data, why a step stops, and the state after reset. -/

namespace Sys2Proof.Machine

/-- What a segment register supplies for memory operands (10_state.md R22, 60_exceptions.md R168, R169):
base, limit, whether a null selector was loaded, and the rights that R169 tests. -/
structure Segment where
  base : BitVec 64
  limit : BitVec 32
  isNull : Bool
  readable : Bool
  writable : Bool
deriving DecidableEq, Repr

/-- The six segment registers (10_state.md R22). -/
structure Segments where
  es : Segment
  cs : Segment
  ss : Segment
  ds : Segment
  fs : Segment
  gs : Segment
deriving DecidableEq, Repr

/-- The kinds of access of the parameter `Translate` (20_memory.md R44). -/
inductive Access where
  | read
  | write
deriving DecidableEq, Repr

/-- What `Translate` answers for a page (20_memory.md R44, 60_exceptions.md R170): the page frame, a
page fault with those bits of its code that the access itself does not give, or, beyond R44, that the
page is device memory (92 D26, log 23). -/
inductive PageAnswer where
  | frame (f : BitVec 52)
  | pageFault (present rsvd pk : Bool)
  | device
deriving DecidableEq, Repr

/-- One entry of the parameter `Translate` as data: the answer for a linear page (bits 63:12 of the
address), a kind of access and a privilege level (20_memory.md R44, log 11). -/
structure PageRule where
  page : BitVec 52
  access : Access
  cpl : BitVec 2
  answer : PageAnswer
deriving DecidableEq, Repr

/-- A range of addresses: the bytes `start` to `start + size - 1`. -/
structure Region where
  start : Nat
  size : Nat
deriving DecidableEq, Repr

/-- Memory: the (address, byte) pairs of the bytes that differ from what an unlisted address reads as,
addresses strictly rising (10_state.md R23, 20_memory.md R30). -/
abbrev Memory := List Host.Cell

/-- Everything the spec gives the machine (10_state.md; 70_reset_and_hazards.md R191). -/
structure State where
  /-- the vector registers (R10, R11, R12) -/
  zmm : Vector Vec 32
  /-- the opmask registers (R14) -/
  k : Vector Word64 8
  /-- the general registers (R16) -/
  gpr : Vector Word64 16
  /-- the instruction pointer (R17) -/
  rip : Word64
  /-- RFLAGS (R19, R21, R26) -/
  rflags : Word64
  /-- MXCSR (R19, R26) -/
  mxcsr : BitVec 32
  /-- the x87 stack, whose low 64 bits are the MMX registers (R25) -/
  x87 : Vector (BitVec 80) 8
  /-- the x87 tag word (R25) -/
  x87Tag : BitVec 16
  /-- CR0 (R20, R21) -/
  cr0 : Word64
  /-- CR2 (60_exceptions.md R170, R172) -/
  cr2 : Word64
  /-- CR4 (R20) -/
  cr4 : Word64
  /-- XCR0 (R20) -/
  xcr0 : Word64
  /-- IA32_EFER (R21) -/
  efer : Word64
  /-- the segment registers (R22) -/
  segs : Segments
  /-- the `L` bit of the code segment (R21) -/
  csL : Bool
  /-- the `D` bit of the code segment (R21) -/
  csD : Bool
  /-- the current privilege level (60_exceptions.md R180) -/
  cpl : BitVec 2
  /-- the processor's fixed properties (R20, 20_memory.md R42) -/
  cfg : Config
  /-- the parameter `Translate`; a page with no entry is translated to itself (20_memory.md R44) -/
  pageRules : List PageRule
  /-- the program text, by memory address: a fixed parameter of a run (20_memory.md R49) -/
  text : List Region
  /-- memory (R23) -/
  mem : Memory
deriving DecidableEq, Repr

/-- The causes of an exception, by the rule that names them (60_exceptions.md R160, R164). `vvvvUsed` and
`misaligned` are stated by the source; the others are the spec's general knowledge. -/
inductive Cause where
  /-- #GP(0), an instruction of more than 15 bytes (30_encoding.md R68) -/
  | lengthOver15
  /-- #UD, the stored `vvvv` is not 1111 (R162) -/
  | vvvvUsed
  /-- #UD, another illegal encoding (R165) -/
  | illegalEncoding
  /-- #UD, the form is not enabled (R166) -/
  | notEnabled
  /-- #NM, `CR0.TS` = 1 (R167) -/
  | deviceNotAvailable
  /-- #SS(0) (R168) -/
  | stackSegment
  /-- #GP(0), a segment or canonical violation (R169) -/
  | segmentViolation
  /-- #GP(0), an instruction fetch from a non-canonical address (10_state.md R18) -/
  | fetchNonCanonical
  /-- #GP(0), a misaligned memory operand (R161) -/
  | misaligned
  /-- #PF with its error code and the faulting linear address (R170) -/
  | pageFault (code : BitVec 32) (la : Word64)
deriving DecidableEq, Repr

/-- Why a run ends in a fault. -/
inductive Fault where
  /-- The recorded fault of 60_exceptions.md R175: its cause, vector, error code if it has one, the address
  of the faulting instruction, and CR2 for a page fault. Raised by `step` for a fetch or a decode that
  faults, and by every meaning through `raise`. Safe: the hardware goes on in a handler, of which the model
  says nothing; the order in which causes are tested is unsafe (log 10). -/
  | exception (cause : Cause) (vector : Nat) (errorCode : Option (BitVec 32)) (rip : Word64)
      (cr2 : Option Word64)
deriving DecidableEq, Repr

/-- Why the model gives a step no meaning. -/
inductive Refusal where
  /-- Raised by no arm: every instruction has its meaning. Safe. -/
  | notModelled (mnemonic : String)
  /-- Raised by `step`: the bytes are not one of the eighteen forms (30_encoding.md R71). Safe. -/
  | notInScope
  /-- Raised by `step`: a byte to be fetched is not program text (95_test_vectors.md sections 7 and 8;
  log 15). Safe. -/
  | endOfProgram
  /-- Raised by `step`: a byte to be fetched lies in the canonical upper half (10_state.md R18, 92 D6).
  Safe. -/
  | upperHalfProgram
  /-- Raised by `step`: `rip + len` would overflow the instruction pointer (10_state.md R18). Safe. -/
  | ripOverflow
  /-- Raised by `step`, outside 64-bit mode: a byte to be fetched lies beyond the limit of the code
  segment, for which the spec gives no effect (log 16). Safe. -/
  | fetchBeyondSegment
  /-- Raised by `step`: `Translate` refuses a byte to be fetched, for which the spec gives no effect
  (log 13). Safe. -/
  | fetchNotTranslated
  /-- Raised by `step`: a byte to be fetched lies in device memory (20_memory.md R43, log 23). Safe. -/
  | fetchFromDevice
  /-- Raised by every load and store form: an accessed element lies in device memory (92 D26, log 23).
  Safe. -/
  | deviceOperand
  /-- Raised by every store form: a byte to be written is program text (20_memory.md R49, 92 D17).
  Safe. -/
  | storeIntoProgram
deriving DecidableEq, Repr

/-- A segment register after reset: base as given, limit FFFFH, readable and writable. PRESUMED, the
family's reset values (log 3). -/
def Segment.reset (base : Word64) : Segment :=
  { base := base, limit := 0xFFFF, isNull := false, readable := true, writable := true }

/-- The machine after power-up or RESET, the table of 10_state.md R26 (the spec's general knowledge,
log 2). The values R26 does not give: RDX 0 (DESIGN CHOICE, log 1); the other segment registers, CS.L,
CS.D, the privilege level, CR2 and the x87 state (PRESUMED, the family's, log 3); the configuration
(log 5); no memory byte listed (log 6); no program loaded (log 15). -/
def State.reset : State :=
  { zmm := Vector.replicate 32 0
    k := Vector.replicate 8 0
    gpr := Vector.replicate 16 0
    rip := 0xFFF0
    rflags := 0x2
    mxcsr := 0x1F80
    x87 := Vector.replicate 8 0
    x87Tag := 0x5555
    cr0 := 0x60000010
    cr2 := 0
    cr4 := 0
    xcr0 := 1
    efer := 0
    segs :=
      { es := Segment.reset 0, cs := Segment.reset 0xFFFF0000, ss := Segment.reset 0,
        ds := Segment.reset 0, fs := Segment.reset 0, gs := Segment.reset 0 }
    csL := false
    csD := false
    cpl := 0
    cfg := Config.primary
    pageRules := []
    text := []
    mem := [] }

end Sys2Proof.Machine
end

