-- ==== Sys2Proof/Machine/Ops.lean ====
section
/-! DEFINITION. The named operations over memory and registers, taking an exception, and the
translation of linear addresses. -/

namespace Sys2Proof.Machine

/-! ## Memory -/

/-- What a byte that nothing has written reads as. DESIGN CHOICE (log 6): 10_state.md R26 says
"unspecified". -/
def unlistedByte : Byte := 0

/-- The byte at an address. -/
def Memory.read (m : Memory) (a : Nat) : Byte :=
  match m with
  | [] => unlistedByte
  | c :: cs => if c.1 = a then c.2 else Memory.read cs a

/-- The cells but for those at an address. -/
def Memory.erase (m : Memory) (a : Nat) : Memory := m.filter fun c => c.1 != a

/-- A cell put in its place by address. -/
def Memory.insertCell (m : Memory) (a : Nat) (b : Byte) : Memory :=
  match m with
  | [] => [(a, b)]
  | c :: cs => if a < c.1 then (a, b) :: c :: cs else c :: Memory.insertCell cs a b

/-- One byte written; writing what an unlisted address reads as removes the cell. -/
def Memory.write (m : Memory) (a : Nat) (b : Byte) : Memory :=
  if b = unlistedByte then m.erase a else (m.erase a).insertCell a b

/-- The canonical form: addresses strictly rising, no cell equal to what an unlisted address reads
as. -/
def Memory.wf (m : Memory) : Bool :=
  match m with
  | [] => true
  | c :: cs => c.2 != unlistedByte && cs.all (fun d => decide (c.1 < d.1)) && Memory.wf cs

/-- The value of `n` bytes from an address, the byte at the lowest address in bits 7:0
(20_memory.md R31). -/
def Memory.readLE (m : Memory) (a : Nat) : (n : Nat) → BitVec (8 * n)
  | 0 => 0
  | n + 1 => (Memory.readLE m (a + 1) n ++ m.read a : BitVec (8 * n + 8))

/-- Bytes written to ascending addresses. -/
def Memory.writeBytes (m : Memory) (a : Nat) : List Byte → Memory
  | [] => m
  | b :: bs => Memory.writeBytes (m.write a b) (a + 1) bs

/-- The first `n` bytes of a value, bits 7:0 first (20_memory.md R32). -/
def bytesLE {w : Nat} (n : Nat) (v : BitVec w) : List Byte :=
  (List.range n).map fun i => v.extractLsb' (8 * i) 8

/-- Whether an address lies in a range. -/
def Region.contains (r : Region) (a : Nat) : Bool :=
  decide (r.start ≤ a) && decide (a < r.start + r.size)

/-- Whether the byte at a memory address is program text (20_memory.md R49). -/
def State.isText (s : State) (a : Nat) : Bool := s.text.any fun r => r.contains a

/-! ## Registers -/

/-- `ZMM[n]` (10_state.md R10). -/
def State.zmmAt (s : State) (n : BitVec 5) : Vec := s.zmm[n.toNat]'n.isLt

/-- `ZMM[n] <- v`, all 512 bits (00_scope.md R7). -/
def State.setZmm (s : State) (n : BitVec 5) (v : Vec) : State :=
  { s with zmm := s.zmm.set n.toNat v n.isLt }

/-- `K[n]` (10_state.md R14). -/
def State.kAt (s : State) (n : BitVec 3) : Word64 := s.k[n.toNat]'n.isLt

/-- The 64 bits of general register `n` (10_state.md R16). -/
def State.gprAt (s : State) (n : BitVec 4) : Word64 := s.gpr[n.toNat]'n.isLt

/-- A segment register, by name (10_state.md R22). -/
inductive SegReg where
  | es
  | cs
  | ss
  | ds
  | fs
  | gs
deriving DecidableEq, Repr

/-- The segment register of a name. -/
def Segments.get (g : Segments) : SegReg → Segment
  | .es => g.es
  | .cs => g.cs
  | .ss => g.ss
  | .ds => g.ds
  | .fs => g.fs
  | .gs => g.gs

/-- `rip <- rip + len` (10_state.md R17, 40_common_semantics.md R98). -/
def State.advance (s : State) (len : Nat) : State := { s with rip := s.rip + BitVec.ofNat 64 len }

/-! ## INIT -/

/-- The machine after INIT, the last column of the table of 10_state.md R26: vector and opmask registers,
MXCSR, XCR0, `CR0.CD`, `CR0.NW` and memory unchanged, the rest as after RESET. No step performs it: INIT comes
from outside (00_scope.md R3). PRESUMED (log 36): the x87 state is unchanged, `CD` and `NW` are bits 30 and
29, what the table does not name is as after RESET; the parameters of a run stay. -/
def State.afterInit (s : State) : State :=
  { State.reset with
    zmm := s.zmm
    k := s.k
    mxcsr := s.mxcsr
    x87 := s.x87
    x87Tag := s.x87Tag
    cr0 := (State.reset.cr0 &&& ~~~0x60000000#64) ||| (s.cr0 &&& 0x60000000#64)
    xcr0 := s.xcr0
    cfg := s.cfg
    pageRules := s.pageRules
    text := s.text
    mem := s.mem }

/-! ## Taking an exception -/

/-- The vector number of a cause (60_exceptions.md R160). -/
def Cause.vector : Cause → Nat
  | .vvvvUsed => 6
  | .illegalEncoding => 6
  | .notEnabled => 6
  | .deviceNotAvailable => 7
  | .stackSegment => 12
  | .lengthOver15 => 13
  | .segmentViolation => 13
  | .fetchNonCanonical => 13
  | .misaligned => 13
  | .pageFault _ _ => 14

/-- The error code of a cause, if it has one (60_exceptions.md R160). -/
def Cause.errorCode : Cause → Option (BitVec 32)
  | .vvvvUsed => none
  | .illegalEncoding => none
  | .notEnabled => none
  | .deviceNotAvailable => none
  | .stackSegment => some 0
  | .lengthOver15 => some 0
  | .segmentViolation => some 0
  | .fetchNonCanonical => some 0
  | .misaligned => some 0
  | .pageFault code _ => some code

/-- The address a cause records in CR2: only a page fault records one (60_exceptions.md R172). -/
def Cause.cr2 : Cause → Option Word64
  | .pageFault _ la => some la
  | _ => none

/-- Taking an exception (60_exceptions.md R175): the run ends in the record of the fault, with no state
changed (R174). -/
def raise (c : Cause) (s : State) : Host.Outcome State Fault Refusal :=
  .fault (.exception c c.vector c.errorCode s.rip c.cr2)

/-- Why an operation of an instruction cannot go on: an exception, or a refusal of the model. -/
inductive Stop where
  | exn (c : Cause)
  | refuse (r : Refusal)
deriving DecidableEq, Repr

/-- The outcome of a stop. -/
def Stop.outcome (st : Stop) (s : State) : Host.Outcome State Fault Refusal :=
  match st with
  | .exn c => raise c s
  | .refuse r => .refused r

/-! ## Translation -/

/-- The error code of a page fault (60_exceptions.md R170): `P`, `W/R` for a store, `U/S` at privilege
level 3, `RSVD`, `I/D` = 0, `PK`. -/
def pageFaultCode (access : Access) (cpl : BitVec 2) (present rsvd pk : Bool) : BitVec 32 :=
  (BitVec.ofBool pk ++ 0#1 ++ BitVec.ofBool rsvd ++ BitVec.ofBool (cpl == 3) ++
    BitVec.ofBool (access == .write) ++ BitVec.ofBool present : BitVec 6).setWidth 32

/-- The page of a linear address: bits 63:12 (20_memory.md R44: pages of 4096 bytes). -/
def pageOf (la : Word64) : BitVec 52 := la.extractLsb' 12 52

/-- The memory address of a linear address in a page frame. -/
def inFrame (f : BitVec 52) (la : Word64) : Nat := (f ++ la.extractLsb' 0 12 : BitVec 64).toNat

/-- What `Translate` says of a page: the first entry for it, else the page itself (20_memory.md R44). -/
def State.pageAnswer (s : State) (page : BitVec 52) (access : Access) : PageAnswer :=
  match s.pageRules.find? fun r => r.page == page && r.access == access && r.cpl == s.cpl with
  | some r => r.answer
  | none => .frame page

/-- `Translate` at the current privilege level: the memory address, or why the access stops
(20_memory.md R44, 60_exceptions.md R170; device memory is refused, 92 D26). -/
def State.translate (s : State) (la : Word64) (access : Access) : Except Stop Nat :=
  match s.pageAnswer (pageOf la) access with
  | .frame f => .ok (inFrame f la)
  | .pageFault present rsvd pk =>
    .error (.exn (.pageFault (pageFaultCode access s.cpl present rsvd pk) la))
  | .device => .error (.refuse .deviceOperand)

end Sys2Proof.Machine
end

