-- ==== Sys2Proof/Machine/Flags.lean ====
section
/-! DEFINITION. The status, mode and control bits that the instructions read. No form computes a flag:
none reads or writes RFLAGS or MXCSR flags (10_state.md R19); what is read is the operating mode
(R21) and the enablement state (R20). -/

namespace Sys2Proof.Machine

/-- `CR0.PE`, bit 0 -/
def State.cr0PE (s : State) : Bool := s.cr0.getLsbD 0

/-- `CR0.EM`, bit 2 -/
def State.cr0EM (s : State) : Bool := s.cr0.getLsbD 2

/-- `CR0.TS`, bit 3 -/
def State.cr0TS (s : State) : Bool := s.cr0.getLsbD 3

/-- `CR4.OSFXSR`, bit 9 -/
def State.cr4OSFXSR (s : State) : Bool := s.cr4.getLsbD 9

/-- `CR4.OSXSAVE`, bit 18 -/
def State.cr4OSXSAVE (s : State) : Bool := s.cr4.getLsbD 18

/-- `IA32_EFER.LMA`, bit 10 -/
def State.eferLMA (s : State) : Bool := s.efer.getLsbD 10

/-- `RFLAGS.VM`, bit 17 -/
def State.flagVM (s : State) : Bool := s.rflags.getLsbD 17

/-- The operating modes (10_state.md R21). -/
inductive OpMode where
  | real
  | virtual8086
  | protect
  | compatibility
  | long64
deriving DecidableEq, Repr

/-- The operating mode (10_state.md R21). DEDUCED (log 8): `IA32_EFER.LMA` is tested first. -/
def State.opMode (s : State) : OpMode :=
  if s.eferLMA then (if s.csL then .long64 else .compatibility)
  else if !s.cr0PE then .real
  else if s.flagVM then .virtual8086
  else .protect

/-- The parameter `MODE` (00_scope.md section 4, 10_state.md R21): the default address size is 64 bits in
64-bit mode, and 32 or 16 elsewhere by the code segment's `D` bit; real-address and virtual-8086 mode are
`Mode16`. -/
def State.mode (s : State) : Mode :=
  match s.opMode with
  | .long64 => .mode64
  | .compatibility => if s.csD then .mode32 else .mode16
  | .protect => if s.csD then .mode32 else .mode16
  | .real => .mode16
  | .virtual8086 => .mode16

/-- The families of forms that 60_exceptions.md R166 tells apart. -/
inductive Family where
  | sse
  | vex
  | evex
deriving DecidableEq, Repr

/-- The vector lengths `VL` (00_scope.md R4). -/
inductive VecLen where
  | v128
  | v256
  | v512
deriving DecidableEq, Repr

/-- `VL` in bits. -/
def VecLen.bits : VecLen → Nat
  | .v128 => 128
  | .v256 => 256
  | .v512 => 512

/-- `VL/8`, the bytes of the memory operand. -/
def VecLen.bytes : VecLen → Nat
  | .v128 => 16
  | .v256 => 32
  | .v512 => 64

/-- Every CPUID flag of the row is 1 (00_scope.md R2, 60_exceptions.md R166 line 1). -/
def cpuidHas (c : Config) (fam : Family) (vl : VecLen) : Bool :=
  match fam with
  | .sse => c.sse2
  | .vex => c.avx
  | .evex => c.avx512f && (vl == .v512 || c.avx512vl)

/-- VEX and EVEX forms raise #UD in real-address and virtual-8086 mode (60_exceptions.md R166). -/
def State.vexMode (s : State) : Bool :=
  match s.opMode with
  | .real => false
  | .virtual8086 => false
  | _ => true

/-- No line of the family's column of 60_exceptions.md R166 holds: the form does not raise #UD for
enablement reasons. -/
def State.enabled (s : State) (fam : Family) (vl : VecLen) : Bool :=
  match fam with
  | .sse => cpuidHas s.cfg .sse vl && !s.cr0EM && s.cr4OSFXSR
  | .vex =>
    cpuidHas s.cfg .vex vl && s.cr4OSXSAVE && s.xcr0.getLsbD 1 && s.xcr0.getLsbD 2 && s.vexMode
  | .evex =>
    cpuidHas s.cfg .evex vl && s.cr4OSXSAVE && s.xcr0.getLsbD 1 && s.xcr0.getLsbD 2 &&
      s.xcr0.getLsbD 5 && s.xcr0.getLsbD 6 && s.xcr0.getLsbD 7 && s.vexMode

end Sys2Proof.Machine
end

