-- ==== Sys2Proof/Machine/Operands.lean ====
section
/-! DEFINITION. The operands of an instruction: what its fields mean, the address of its memory operand
with the checks on it, the mask, and the elements (30_encoding.md R63 to R68, 20_memory.md R34 to R42). -/

namespace Sys2Proof.Machine

/-- What an instruction's encoding says, with inverted bits put right: the parameters of the shared data
movement of 40_common_semantics.md. -/
structure Move where
  fam : Family
  /-- `VL` -/
  vl : VecLen
  /-- the element width `E` in bits; `VL` for the forms without masking -/
  ew : Nat
  pfx : List Prefix
  /-- the length of the instruction in bytes -/
  len : Nat
  /-- the extension bits `R`, `X`, `B`, `R'` -/
  r : Bool
  x : Bool
  b : Bool
  r2 : Bool
  /-- `vvvv` is 1111, or the format has none (30_encoding.md R72) -/
  vvvvOk : Bool
  /-- no other illegal encoding (30_encoding.md R73) -/
  encOk : Bool
  /-- zeroing-masking -/
  z : Bool
  /-- the writemask selector; 0 is no writemask -/
  aaa : BitVec 3
  reg : BitVec 3
  rm : RM
deriving DecidableEq, Repr

/-! ## Length (30_encoding.md R68) -/

/-- The bytes of a displacement (30_encoding.md R62). -/
def dispLen : Disp → Nat
  | .none => 0
  | .d8 _ => 1
  | .d32 _ => 4

/-- The bytes of a displacement of 16-bit addressing (30_encoding.md R62). -/
def disp16Len : Disp16 → Nat
  | .none => 0
  | .d8 _ => 1
  | .d16 _ => 2

/-- The bytes of ModRM, SIB and displacement (30_encoding.md R60 to R62). -/
def modRMLen (m : ModRM) : Nat :=
  match m.rm with
  | .reg _ => 1
  | .mem (.base _ d) => 1 + dispLen d
  | .mem (.ripOrAbs _) => 1 + 4
  | .mem (.sib _ _ _ d) => 1 + 1 + dispLen d
  | .mem (.sibNoBase _ _ _) => 1 + 1 + 4
  | .mem (.base16 _ d) => 1 + disp16Len d
  | .mem (.abs16 _) => 1 + 2

/-! ## The formats -/

/-- The REX byte that counts: the one immediately before the opcode; without one all bits are 0
(30_encoding.md R53). -/
def effectiveRex (p : List Prefix) : BitVec 4 :=
  match p.getLast? with
  | some (.rex wrxb) => wrxb
  | _ => 0

/-- Which prefixes may precede a VEX or EVEX prefix: segment overrides and `67`
(30_encoding.md R59). -/
def Prefix.beforeVex : Prefix → Bool
  | .es => true
  | .cs => true
  | .ss => true
  | .ds => true
  | .fs => true
  | .gs => true
  | .addrsize => true
  | .lock => false
  | .repne => false
  | .rep => false
  | .opsize => false
  | .rex _ => false

/-- Format LEG (30_encoding.md R51 to R53): LOCK is illegal (R73), REX.W is ignored (92 D21). -/
def Move.leg (p : List Prefix) (m : ModRM) : Move :=
  { fam := .sse, vl := .v128, ew := 128, pfx := p
    len := p.length + 2 + modRMLen m
    r := (effectiveRex p).getLsbD 2, x := (effectiveRex p).getLsbD 1, b := (effectiveRex p).getLsbD 0
    r2 := false, vvvvOk := true, encOk := !p.contains .lock
    z := false, aaa := 0, reg := m.reg, rm := m.rm }

/-- Format VEX2 (30_encoding.md R54): `X` = `B` = 0. -/
def Move.vex2 (vl : VecLen) (p : List Prefix) (v : Vex2) (m : ModRM) : Move :=
  { fam := .vex, vl := vl, ew := vl.bits, pfx := p
    len := p.length + 3 + modRMLen m
    r := !v.rBar, x := false, b := false
    r2 := false, vvvvOk := v.vvvv == 15, encOk := p.all Prefix.beforeVex
    z := false, aaa := 0, reg := m.reg, rm := m.rm }

/-- Format VEX3 (30_encoding.md R55): `W` is ignored (92 D21). -/
def Move.vex3 (vl : VecLen) (p : List Prefix) (v : Vex3) (m : ModRM) : Move :=
  { fam := .vex, vl := vl, ew := vl.bits, pfx := p
    len := p.length + 4 + modRMLen m
    r := !v.rBar, x := !v.xBar, b := !v.bBar
    r2 := false, vvvvOk := v.vvvv == 15, encOk := p.all Prefix.beforeVex
    z := false, aaa := 0, reg := m.reg, rm := m.rm }

/-- The EVEX encodings that R73 does not make illegal, where `toRm` says that the destination is the
`r/m` operand: zeroing-masking needs a writemask and a register destination (90 C1, 92 D7, D23). -/
def evexLegal (toRm : Bool) (p : List Prefix) (e : Evex) (m : ModRM) : Bool :=
  p.all Prefix.beforeVex && e.p0Reserved == 0 && e.p1Fixed && !e.b && e.v2Bar &&
    !(e.z && e.aaa == 0) &&
    !(e.z && toRm && match m.rm with
      | .reg _ => false
      | .mem _ => true)

/-- Format EVEX (30_encoding.md R57, R58) with element width `ew`. -/
def Move.evex (vl : VecLen) (ew : Nat) (toRm : Bool) (p : List Prefix) (e : Evex) (m : ModRM) : Move :=
  { fam := .evex, vl := vl, ew := ew, pfx := p
    len := p.length + 5 + modRMLen m
    r := !e.rBar, x := !e.xBar, b := !e.bBar, r2 := !e.r2Bar
    vvvvOk := e.vvvv == 15, encOk := evexLegal toRm p e m
    z := e.z, aaa := e.aaa, reg := m.reg, rm := m.rm }

/-! ## Register numbers -/

/-- The vector register in `ModRM:reg` (30_encoding.md R64). -/
def Move.regNum (mv : Move) : BitVec 5 := bit1 mv.r2 ++ bit1 mv.r ++ mv.reg

/-- The vector register in `ModRM:r/m`: EVEX extends it with `X` and `B`, the others with `B` alone
(30_encoding.md R65). -/
def Move.rmNum (mv : Move) (rm : BitVec 3) : BitVec 5 :=
  match mv.fam with
  | .evex => bit1 mv.x ++ bit1 mv.b ++ rm
  | _ => 0#1 ++ bit1 mv.b ++ rm

/-- A base register of a memory operand, `(B << 3) | rm` (30_encoding.md R66). -/
def Move.baseNum (mv : Move) (rm : BitVec 3) : BitVec 4 := bit1 mv.b ++ rm

/-- An index register of a memory operand, `(X << 3) | index` (30_encoding.md R66). -/
def Move.indexNum (mv : Move) (index : BitVec 3) : BitVec 4 := bit1 mv.x ++ index

/-! ## Effective address (20_memory.md R40, 30_encoding.md R67) -/

/-- The address size in bits: the mode's default, switched by the prefix `67` (20_memory.md R40). -/
def addrBits (mode : Mode) (p : List Prefix) : Nat :=
  match mode with
  | .mode64 => if p.contains .addrsize then 32 else 64
  | .mode32 => if p.contains .addrsize then 16 else 32
  | .mode16 => if p.contains .addrsize then 32 else 16

/-- The factor of an 8-bit displacement: the operand's size in EVEX forms, else 1 (30_encoding.md
R63). -/
def Move.dispScale (mv : Move) : Nat :=
  match mv.fam with
  | .evex => mv.vl.bytes
  | _ => 1

/-- A displacement, sign-extended; an 8-bit one scaled (30_encoding.md R62, R63). -/
def Move.disp (mv : Move) : Disp → Word64
  | .none => 0
  | .d8 d => d.signExtend 64 * BitVec.ofNat 64 mv.dispScale
  | .d32 d => d.signExtend 64

/-- A displacement of 16-bit addressing (30_encoding.md R62, R63, R67). -/
def Move.disp16 (mv : Move) : Disp16 → Word64
  | .none => 0
  | .d8 d => d.signExtend 64 * BitVec.ofNat 64 mv.dispScale
  | .d16 d => d.signExtend 64

/-- The scaled index; `index` = 100 with `X` = 0 is no index (20_memory.md R40). -/
def Move.indexValue (mv : Move) (s : State) (scale : BitVec 2) (index : BitVec 3) : Word64 :=
  if index = 4 ∧ mv.x = false then 0 else s.gprAt (mv.indexNum index) <<< scale.toNat

/-- The registers of 16-bit addressing (30_encoding.md R67): BX is 3, BP 5, SI 6, DI 7. -/
def base16Value (s : State) (rm : BitVec 3) : Word64 :=
  if rm = 0 then s.gprAt 3 + s.gprAt 6
  else if rm = 1 then s.gprAt 3 + s.gprAt 7
  else if rm = 2 then s.gprAt 5 + s.gprAt 6
  else if rm = 3 then s.gprAt 5 + s.gprAt 7
  else if rm = 4 then s.gprAt 6
  else if rm = 5 then s.gprAt 7
  else if rm = 6 then s.gprAt 5
  else s.gprAt 3

/-- The address before it is cut to the address size; all sums wrap, so that cutting registers and sums
first gives the same (20_memory.md R40). -/
def Move.rawAddr (mv : Move) (s : State) : MemOp → Word64
  | .base rm d => s.gprAt (mv.baseNum rm) + mv.disp d
  | .ripOrAbs d =>
    match s.mode with
    | .mode64 => s.rip + BitVec.ofNat 64 mv.len + d.signExtend 64
    | _ => d.setWidth 64
  | .sib scale index b d =>
    s.gprAt (mv.baseNum b) + mv.indexValue s scale index + mv.disp d
  | .sibNoBase scale index d => mv.indexValue s scale index + d.signExtend 64
  | .base16 rm d => base16Value s rm + mv.disp16 d
  | .abs16 d => d.setWidth 64

/-- The effective address: `A` bits, zero-extended (20_memory.md R40). -/
def Move.effAddr (mv : Move) (s : State) (o : MemOp) : Word64 :=
  ((mv.rawAddr s o).setWidth (addrBits s.mode mv.pfx)).setWidth 64

/-! ## Segment and linear address (20_memory.md R41) -/

/-- The segment a prefix selects; in 64-bit mode `26`, `2E`, `36` and `3E` are ignored
(20_memory.md R41). -/
def overrideOf (mode : Mode) : Prefix → Option SegReg
  | .fs => some .fs
  | .gs => some .gs
  | .es => if mode = .mode64 then none else some .es
  | .cs => if mode = .mode64 then none else some .cs
  | .ss => if mode = .mode64 then none else some .ss
  | .ds => if mode = .mode64 then none else some .ds
  | _ => none

/-- The segment without an override: SS for a base register 4 or 5 (BP in 16-bit addressing), else DS
(20_memory.md R41, 30_encoding.md R67). -/
def Move.defaultSeg (mv : Move) : MemOp → SegReg
  | .base rm _ => if mv.baseNum rm = 4 ∨ mv.baseNum rm = 5 then .ss else .ds
  | .ripOrAbs _ => .ds
  | .sib _ _ b _ => if mv.baseNum b = 4 ∨ mv.baseNum b = 5 then .ss else .ds
  | .sibNoBase _ _ _ => .ds
  | .base16 rm _ => if rm = 2 ∨ rm = 3 ∨ rm = 6 then .ss else .ds
  | .abs16 _ => .ds

/-- The segment of a memory operand: the last override that counts, else the default (20_memory.md R41,
30_encoding.md R52; log 18). -/
def Move.seg (mv : Move) (s : State) (o : MemOp) : SegReg :=
  ((mv.pfx.filterMap (overrideOf s.mode)).getLast?).getD (mv.defaultSeg o)

/-- The segment base that is added: in 64-bit mode only FS and GS have one (20_memory.md R41). -/
def State.segBase (s : State) (g : SegReg) : Word64 :=
  match s.mode with
  | .mode64 =>
    match g with
    | .fs => s.segs.fs.base
    | .gs => s.segs.gs.base
    | _ => 0
  | _ => (s.segs.get g).base

/-- The linear address (20_memory.md R41). -/
def Move.linear (mv : Move) (s : State) (o : MemOp) : Word64 :=
  match s.mode with
  | .mode64 => s.segBase (mv.seg s o) + mv.effAddr s o
  | _ => ((s.segBase (mv.seg s o) + mv.effAddr s o).setWidth 32).setWidth 64

/-! ## Checks on a memory operand -/

/-- The linear-address width (20_memory.md R42). -/
def State.law (s : State) : Nat := if s.cfg.la57 then 57 else 48

/-- Bits 63:`LAW`-1 are all equal: all 0 or all 1 (20_memory.md R42). -/
def State.canonical (s : State) (la : Word64) : Bool :=
  decide (la.toNat < 2 ^ (s.law - 1)) || decide (2 ^ 64 - 2 ^ (s.law - 1) ≤ la.toNat)

/-- The segment-level exception of an access outside the segment or to a non-canonical address: #SS for
SS, else #GP (60_exceptions.md R168, R169). -/
def segCause (g : SegReg) : Cause :=
  if g = .ss then .stackSegment else .segmentViolation

/-- The rights of the segment do not allow the access, or its selector is null (60_exceptions.md
R169; log 21). -/
def Segment.forbids (g : Segment) (access : Access) : Bool :=
  g.isNull ||
    match access with
    | .read => !g.readable
    | .write => !g.writable

/-- The segment-level and canonical checks (60_exceptions.md R168, R169): in 64-bit mode every byte of
the operand is canonical; outside it every byte lies within the segment limit, the segment allows the
access, and in real-address mode every byte lies in 0 to FFFFH. -/
def Move.segFault (mv : Move) (s : State) (o : MemOp) (access : Access) : Option Cause :=
  let g := mv.seg s o
  let lastOffset := (mv.effAddr s o).toNat + (mv.vl.bytes - 1)
  match s.mode with
  | .mode64 =>
    let la := mv.linear s o
    if s.canonical la && s.canonical (la + BitVec.ofNat 64 (mv.vl.bytes - 1)) then none
    else some (segCause g)
  | _ =>
    if (s.segs.get g).limit.toNat < lastOffset then some (segCause g)
    else if (s.segs.get g).forbids access then some .segmentViolation
    else if s.opMode = .real ∧ 0xFFFF < lastOffset then some .segmentViolation
    else none

/-- The memory operand is not aligned to its size (20_memory.md R34, 40_common_semantics.md R96; on the
linear address, 92 D28). -/
def Move.misaligned (mv : Move) (s : State) (o : MemOp) : Bool :=
  (mv.linear s o).toNat % mv.vl.bytes != 0

/-- Step 3 of 40_common_semantics.md R90: the linear address of a memory operand, or the exception of the
first check that fails. -/
def Move.operandAddr (mv : Move) (s : State) (o : MemOp) (access : Access) : Except Stop Word64 :=
  match mv.segFault s o access with
  | some c => .error (.exn c)
  | none => if mv.misaligned s o then .error (.exn .misaligned) else .ok (mv.linear s o)

/-- Steps 1 and 2 of 40_common_semantics.md R90, in the order of 60_exceptions.md R173: length, encoding,
enablement, device not available. -/
def Move.decodeFault (mv : Move) (s : State) : Option Cause :=
  if maxInstrBytes < mv.len then some .lengthOver15
  else if !mv.vvvvOk then some .vvvvUsed
  else if !mv.encOk then some .illegalEncoding
  else if !s.enabled mv.fam mv.vl then some .notEnabled
  else if s.cr0TS then some .deviceNotAvailable
  else none

/-! ## Mask and elements (40_common_semantics.md R93, R94) -/

/-- `KL`, the number of elements (00_scope.md R4). -/
def Move.kl (mv : Move) : Nat := mv.vl.bits / mv.ew

/-- The mask bit of element `j`: `aaa` = 0 is no writemask, every element moves and `K[0]` is not read
(10_state.md R14, 40_common_semantics.md R93). -/
def Move.maskBit (mv : Move) (s : State) (j : Nat) : Bool :=
  mv.aaa == 0 || (s.kAt mv.aaa).getLsbD j

/-- The elements that the mask selects, in ascending order. -/
def Move.enabledElems (mv : Move) (s : State) : List Nat := (List.range mv.kl).filter (mv.maskBit s)

/-- The memory addresses of elements of `n` bytes of the operand at `la`, each with its number, or why the
first one that cannot be accessed stops the instruction (20_memory.md R38, 60_exceptions.md R170). -/
def State.elemAddrs (s : State) (access : Access) (la : Word64) (n : Nat) :
    List Nat → Except Stop (List (Nat × Nat))
  | [] => .ok []
  | j :: js =>
    match s.translate (la + BitVec.ofNat 64 (j * n)) access with
    | .error st => .error st
    | .ok pa =>
      match s.elemAddrs access la n js with
      | .error st => .error st
      | .ok ps => .ok ((j, pa) :: ps)

/-- Element `j` of width `ew` put in its place in a vector. -/
def placeElem {w : Nat} (ew j : Nat) (v : BitVec w) : Vec := v.setWidth 512 <<< (j * ew)

/-- The vector with the listed elements read from memory and 0 elsewhere (20_memory.md R33). -/
def loadElems (m : Memory) (ew : Nat) : List (Nat × Nat) → Vec
  | [] => 0
  | (j, pa) :: ps => placeElem ew j (m.readLE pa (ew / 8)) ||| loadElems m ew ps

/-- The listed elements of a vector written to memory (20_memory.md R33, 40_common_semantics.md
R94). -/
def storeElems (m : Memory) (ew : Nat) (v : Vec) : List (Nat × Nat) → Memory
  | [] => m
  | (j, pa) :: ps =>
    storeElems (m.writeBytes pa (bytesLE (ew / 8) (v.extractLsb' (j * ew) ew))) ew v ps

/-- Whether a byte of the listed elements is program text (20_memory.md R49). -/
def State.touchesText (s : State) (n : Nat) (ps : List (Nat × Nat)) : Bool :=
  ps.any fun e => (List.range n).any fun i => s.isText (e.2 + i)

/-- The first `n` elements of the new destination (40_common_semantics.md R93): the source's where the
mask bit is 1, else the old ones, or 0 under zeroing-masking. -/
def mergeElems (ew : Nat) (mask : Nat → Bool) (z : Bool) (src old : Vec) : Nat → Vec
  | 0 => 0
  | j + 1 =>
    mergeElems ew mask z src old j |||
      placeElem ew j
        (if mask j then src.extractLsb' (j * ew) ew
          else if z then 0 else old.extractLsb' (j * ew) ew)

/-- The new value of a destination register (40_common_semantics.md R93, R95): the moved elements, and
above `VL` the old bits for legacy SSE, else 0. -/
def Move.newReg (mv : Move) (s : State) (d : BitVec 5) (src : Vec) : Vec :=
  let low := mergeElems mv.ew (mv.maskBit s) mv.z src (s.zmmAt d) mv.kl
  match mv.fam with
  | .sse => ((s.zmmAt d >>> mv.vl.bits) <<< mv.vl.bits) ||| low
  | _ => low

/-- The value of a memory source: its enabled elements (40_common_semantics.md R92, R93). -/
def Move.loadOperand (mv : Move) (s : State) (o : MemOp) : Except Stop Vec :=
  match mv.operandAddr s o .read with
  | .error st => .error st
  | .ok la =>
    match s.elemAddrs .read la (mv.ew / 8) (mv.enabledElems s) with
    | .error st => .error st
    | .ok ps => .ok (loadElems s.mem mv.ew ps)

/-- Memory after the enabled elements of a vector are stored (40_common_semantics.md R94); every enabled
element is checked before any is written (60_exceptions.md R174), and a store into the program is refused
(20_memory.md R49). DESIGN CHOICE (log 37): where the store also faults, the fault wins over this refusal, for
which 40_common_semantics.md R90 and 60_exceptions.md R173 have no place. -/
def Move.storeOperand (mv : Move) (s : State) (o : MemOp) (v : Vec) : Except Stop Memory :=
  match mv.operandAddr s o .write with
  | .error st => .error st
  | .ok la =>
    match s.elemAddrs .write la (mv.ew / 8) (mv.enabledElems s) with
    | .error st => .error st
    | .ok ps =>
      if s.touchesText (mv.ew / 8) ps then .error (.refuse .storeIntoProgram)
      else .ok (storeElems s.mem mv.ew v ps)

/-! ## The data movement of one instruction (40_common_semantics.md R90, R91) -/

/-- A register written and the instruction completed (40_common_semantics.md R93, R95, R98). -/
def Move.writeReg (mv : Move) (s : State) (d : BitVec 5) (src : Vec) : State :=
  (s.setZmm d (mv.newReg s d src)).advance mv.len

/-- Opcode `6F`: from `r/m` to `reg`, the load and register-copy forms (40_common_semantics.md R90 to
R93). -/
def Move.toReg (mv : Move) (s : State) : Host.Outcome State Fault Refusal :=
  match mv.decodeFault s with
  | some c => raise c s
  | none =>
    match mv.rm with
    | .reg n => .next (mv.writeReg s mv.regNum (s.zmmAt (mv.rmNum n)))
    | .mem o =>
      match mv.loadOperand s o with
      | .error st => st.outcome s
      | .ok src => .next (mv.writeReg s mv.regNum src)

/-- Opcode `7F`: from `reg` to `r/m`, the store and register-copy forms (40_common_semantics.md R90, R91,
R94; 92 D22). -/
def Move.toRm (mv : Move) (s : State) : Host.Outcome State Fault Refusal :=
  match mv.decodeFault s with
  | some c => raise c s
  | none =>
    match mv.rm with
    | .reg n => .next (mv.writeReg s (mv.rmNum n) (s.zmmAt mv.regNum))
    | .mem o =>
      match mv.storeOperand s o (s.zmmAt mv.regNum) with
      | .error st => st.outcome s
      | .ok m => .next ({ s with mem := m }.advance mv.len)

end Sys2Proof.Machine
end

