-- ==== Sys2Proof/Machine/Movdqa.lean ====
section
/-! DEFINITION. MOVDQA, the legacy SSE forms (41_movdqa_sse.md): `VL` = 128, no mask, bits 511:128 of a register
destination unchanged. -/

namespace Sys2Proof.Machine

/-- `MOVDQA xmm1, xmm2/m128` (R100). -/
def execMovdqaRegRm (p : List Prefix) (m : ModRM) (s : State) :
    Host.Outcome State Fault Refusal :=
  (Move.leg p m).toReg s

/-- `MOVDQA xmm2/m128, xmm1` (R101). -/
def execMovdqaRmReg (p : List Prefix) (m : ModRM) (s : State) :
    Host.Outcome State Fault Refusal :=
  (Move.leg p m).toRm s

end Sys2Proof.Machine
end

