-- ==== Sys2Proof/Machine/Vmovdqa.lean ====
section
/-! DEFINITION. VMOVDQA, the VEX-encoded forms (42_vmovdqa_vex.md): `VL` = 128 or 256, no mask, the bits of a
register destination above `VL` become 0. -/

namespace Sys2Proof.Machine

/-- `VMOVDQA xmm1, xmm2/m128`, two-byte VEX prefix (R110). -/
def execVmovdqaXmmRegRmVex2 (p : List Prefix) (v : Vex2) (m : ModRM) (s : State) :
    Host.Outcome State Fault Refusal :=
  (Move.vex2 .v128 p v m).toReg s

/-- `VMOVDQA xmm1, xmm2/m128`, three-byte VEX prefix (R110). -/
def execVmovdqaXmmRegRmVex3 (p : List Prefix) (v : Vex3) (m : ModRM) (s : State) :
    Host.Outcome State Fault Refusal :=
  (Move.vex3 .v128 p v m).toReg s

/-- `VMOVDQA xmm2/m128, xmm1`, two-byte VEX prefix (R111). -/
def execVmovdqaXmmRmRegVex2 (p : List Prefix) (v : Vex2) (m : ModRM) (s : State) :
    Host.Outcome State Fault Refusal :=
  (Move.vex2 .v128 p v m).toRm s

/-- `VMOVDQA xmm2/m128, xmm1`, three-byte VEX prefix (R111). -/
def execVmovdqaXmmRmRegVex3 (p : List Prefix) (v : Vex3) (m : ModRM) (s : State) :
    Host.Outcome State Fault Refusal :=
  (Move.vex3 .v128 p v m).toRm s

/-- `VMOVDQA ymm1, ymm2/m256`, two-byte VEX prefix (R112). -/
def execVmovdqaYmmRegRmVex2 (p : List Prefix) (v : Vex2) (m : ModRM) (s : State) :
    Host.Outcome State Fault Refusal :=
  (Move.vex2 .v256 p v m).toReg s

/-- `VMOVDQA ymm1, ymm2/m256`, three-byte VEX prefix (R112). -/
def execVmovdqaYmmRegRmVex3 (p : List Prefix) (v : Vex3) (m : ModRM) (s : State) :
    Host.Outcome State Fault Refusal :=
  (Move.vex3 .v256 p v m).toReg s

/-- `VMOVDQA ymm2/m256, ymm1`, two-byte VEX prefix (R113). -/
def execVmovdqaYmmRmRegVex2 (p : List Prefix) (v : Vex2) (m : ModRM) (s : State) :
    Host.Outcome State Fault Refusal :=
  (Move.vex2 .v256 p v m).toRm s

/-- `VMOVDQA ymm2/m256, ymm1`, three-byte VEX prefix (R113). -/
def execVmovdqaYmmRmRegVex3 (p : List Prefix) (v : Vex3) (m : ModRM) (s : State) :
    Host.Outcome State Fault Refusal :=
  (Move.vex3 .v256 p v m).toRm s

end Sys2Proof.Machine
end

