-- ==== Sys2Proof/Machine/Vmovdqa32.lean ====
section
/-! DEFINITION. VMOVDQA32, the EVEX-encoded forms with 32-bit elements (43_vmovdqa32_evex.md): `VL` = 128, 256 or 512,
optional writemask, the bits of a register destination above `VL` become 0. -/

namespace Sys2Proof.Machine

/-- `VMOVDQA32 xmm1 [k1][z], xmm2/m128`, 4 elements (R120). -/
def execVmovdqa32XmmRegRm (p : List Prefix) (e : Evex) (m : ModRM) (s : State) :
    Host.Outcome State Fault Refusal :=
  (Move.evex .v128 32 false p e m).toReg s

/-- `VMOVDQA32 ymm1 [k1][z], ymm2/m256`, 8 elements (R121). -/
def execVmovdqa32YmmRegRm (p : List Prefix) (e : Evex) (m : ModRM) (s : State) :
    Host.Outcome State Fault Refusal :=
  (Move.evex .v256 32 false p e m).toReg s

/-- `VMOVDQA32 zmm1 [k1][z], zmm2/m512`, 16 elements (R122). -/
def execVmovdqa32ZmmRegRm (p : List Prefix) (e : Evex) (m : ModRM) (s : State) :
    Host.Outcome State Fault Refusal :=
  (Move.evex .v512 32 false p e m).toReg s

/-- `VMOVDQA32 xmm2/m128 [k1][z], xmm1`, 4 elements (R123). -/
def execVmovdqa32XmmRmReg (p : List Prefix) (e : Evex) (m : ModRM) (s : State) :
    Host.Outcome State Fault Refusal :=
  (Move.evex .v128 32 true p e m).toRm s

/-- `VMOVDQA32 ymm2/m256 [k1][z], ymm1`, 8 elements (R124). -/
def execVmovdqa32YmmRmReg (p : List Prefix) (e : Evex) (m : ModRM) (s : State) :
    Host.Outcome State Fault Refusal :=
  (Move.evex .v256 32 true p e m).toRm s

/-- `VMOVDQA32 zmm2/m512 [k1][z], zmm1`, 16 elements (R125). -/
def execVmovdqa32ZmmRmReg (p : List Prefix) (e : Evex) (m : ModRM) (s : State) :
    Host.Outcome State Fault Refusal :=
  (Move.evex .v512 32 true p e m).toRm s

end Sys2Proof.Machine
end

