-- ==== Sys2Proof/Machine/Vmovdqa64.lean ====
section
/-! DEFINITION. VMOVDQA64, the EVEX-encoded forms with 64-bit elements (44_vmovdqa64_evex.md): `VL` = 128, 256 or 512,
optional writemask, the bits of a register destination above `VL` become 0. -/

namespace Sys2Proof.Machine

/-- `VMOVDQA64 xmm1 [k1][z], xmm2/m128`, 2 elements (R140). -/
def execVmovdqa64XmmRegRm (p : List Prefix) (e : Evex) (m : ModRM) (s : State) :
    Host.Outcome State Fault Refusal :=
  (Move.evex .v128 64 false p e m).toReg s

/-- `VMOVDQA64 ymm1 [k1][z], ymm2/m256`, 4 elements (R141). -/
def execVmovdqa64YmmRegRm (p : List Prefix) (e : Evex) (m : ModRM) (s : State) :
    Host.Outcome State Fault Refusal :=
  (Move.evex .v256 64 false p e m).toReg s

/-- `VMOVDQA64 zmm1 [k1][z], zmm2/m512`, 8 elements (R142). -/
def execVmovdqa64ZmmRegRm (p : List Prefix) (e : Evex) (m : ModRM) (s : State) :
    Host.Outcome State Fault Refusal :=
  (Move.evex .v512 64 false p e m).toReg s

/-- `VMOVDQA64 xmm2/m128 [k1][z], xmm1`, 2 elements (R143). -/
def execVmovdqa64XmmRmReg (p : List Prefix) (e : Evex) (m : ModRM) (s : State) :
    Host.Outcome State Fault Refusal :=
  (Move.evex .v128 64 true p e m).toRm s

/-- `VMOVDQA64 ymm2/m256 [k1][z], ymm1`, 4 elements (R144). -/
def execVmovdqa64YmmRmReg (p : List Prefix) (e : Evex) (m : ModRM) (s : State) :
    Host.Outcome State Fault Refusal :=
  (Move.evex .v256 64 true p e m).toRm s

/-- `VMOVDQA64 zmm2/m512 [k1][z], zmm1`, 8 elements (R145). -/
def execVmovdqa64ZmmRmReg (p : List Prefix) (e : Evex) (m : ModRM) (s : State) :
    Host.Outcome State Fault Refusal :=
  (Move.evex .v512 64 true p e m).toRm s

end Sys2Proof.Machine
end

