-- ==== Sys2Proof/Machine/Dispatch.lean ====
section
/-! DEFINITION. The meaning of each instruction: one arm for each row of spec/opcode_table.json. -/

namespace Sys2Proof.Machine

def exec (i : Instr) (s : State) : Host.Outcome State Fault Refusal :=
  match i with
  | .movdqaRegRm p m => Sys2Proof.Machine.execMovdqaRegRm p m s
  | .movdqaRmReg p m => Sys2Proof.Machine.execMovdqaRmReg p m s
  | .vmovdqaXmmRegRmVex2 p v m => Sys2Proof.Machine.execVmovdqaXmmRegRmVex2 p v m s
  | .vmovdqaXmmRegRmVex3 p v m => Sys2Proof.Machine.execVmovdqaXmmRegRmVex3 p v m s
  | .vmovdqaXmmRmRegVex2 p v m => Sys2Proof.Machine.execVmovdqaXmmRmRegVex2 p v m s
  | .vmovdqaXmmRmRegVex3 p v m => Sys2Proof.Machine.execVmovdqaXmmRmRegVex3 p v m s
  | .vmovdqaYmmRegRmVex2 p v m => Sys2Proof.Machine.execVmovdqaYmmRegRmVex2 p v m s
  | .vmovdqaYmmRegRmVex3 p v m => Sys2Proof.Machine.execVmovdqaYmmRegRmVex3 p v m s
  | .vmovdqaYmmRmRegVex2 p v m => Sys2Proof.Machine.execVmovdqaYmmRmRegVex2 p v m s
  | .vmovdqaYmmRmRegVex3 p v m => Sys2Proof.Machine.execVmovdqaYmmRmRegVex3 p v m s
  | .vmovdqa32XmmRegRm p e m => Sys2Proof.Machine.execVmovdqa32XmmRegRm p e m s
  | .vmovdqa32YmmRegRm p e m => Sys2Proof.Machine.execVmovdqa32YmmRegRm p e m s
  | .vmovdqa32ZmmRegRm p e m => Sys2Proof.Machine.execVmovdqa32ZmmRegRm p e m s
  | .vmovdqa32XmmRmReg p e m => Sys2Proof.Machine.execVmovdqa32XmmRmReg p e m s
  | .vmovdqa32YmmRmReg p e m => Sys2Proof.Machine.execVmovdqa32YmmRmReg p e m s
  | .vmovdqa32ZmmRmReg p e m => Sys2Proof.Machine.execVmovdqa32ZmmRmReg p e m s
  | .vmovdqa64XmmRegRm p e m => Sys2Proof.Machine.execVmovdqa64XmmRegRm p e m s
  | .vmovdqa64YmmRegRm p e m => Sys2Proof.Machine.execVmovdqa64YmmRegRm p e m s
  | .vmovdqa64ZmmRegRm p e m => Sys2Proof.Machine.execVmovdqa64ZmmRegRm p e m s
  | .vmovdqa64XmmRmReg p e m => Sys2Proof.Machine.execVmovdqa64XmmRmReg p e m s
  | .vmovdqa64YmmRmReg p e m => Sys2Proof.Machine.execVmovdqa64YmmRmReg p e m s
  | .vmovdqa64ZmmRmReg p e m => Sys2Proof.Machine.execVmovdqa64ZmmRmReg p e m s

end Sys2Proof.Machine
end

