-- ==== Sys2Proof/Machine/Fetch.lean ====
section
/-! DEFINITION. Fetching and decoding the instruction at the instruction pointer (40_common_semantics.md
R90 step 1; 10_state.md R17, R18), and placing a program as the software outside the scope does
(70_reset_and_hazards.md R191, R192). -/

namespace Sys2Proof.Machine

/-! ## Fetch -/

/-- The linear address of byte `i` of the instruction in 64-bit mode (10_state.md R18; log 14): #GP(0)
at a non-canonical address, refused in the canonical upper half and where the sum overflows. -/
def State.codeLinear64 (s : State) (i : Nat) : Except Stop Word64 :=
  if 2 ^ 64 ≤ s.rip.toNat + i then .error (.refuse .ripOverflow)
  else
    let la := s.rip + BitVec.ofNat 64 i
    if !s.canonical la then .error (.exn .fetchNonCanonical)
    else if 2 ^ (s.law - 1) ≤ la.toNat then .error (.refuse .upperHalfProgram)
    else .ok la

/-- The bits of the instruction pointer outside 64-bit mode: 32, or 16 in 16-bit code (10_state.md
R17). -/
def ipBits (mode : Mode) : Nat :=
  match mode with
  | .mode64 => 64
  | .mode32 => 32
  | .mode16 => 16

/-- The linear address of byte `i` of the instruction outside 64-bit mode, `CS.base` added (10_state.md
R17, R22, R26; log 16): refused where the instruction pointer after the byte overflows and beyond the
limit of the code segment. -/
def State.codeLinear32 (s : State) (i : Nat) : Except Stop Word64 :=
  let ip := s.rip.toNat + i
  if 2 ^ ipBits s.mode ≤ ip + 1 then .error (.refuse .ripOverflow)
  else if s.segs.cs.limit.toNat < ip then .error (.refuse .fetchBeyondSegment)
  else .ok (((s.segs.cs.base + BitVec.ofNat 64 ip).setWidth 32).setWidth 64)

/-- The linear address of byte `i` of the instruction at `rip`. -/
def State.codeLinear (s : State) (i : Nat) : Except Stop Word64 :=
  match s.mode with
  | .mode64 => s.codeLinear64 i
  | _ => s.codeLinear32 i

/-- A stop of the translation of a fetched byte: the spec gives a fetch no page fault (60_exceptions.md
R170, `I/D` = 0; log 13). -/
def fetchStop : Stop → Stop
  | .exn _ => .refuse .fetchNotTranslated
  | .refuse _ => .refuse .fetchFromDevice

/-- The memory address of byte `i` of the instruction at `rip`. -/
def State.codeAddr (s : State) (i : Nat) : Except Stop Nat :=
  match s.codeLinear i with
  | .error st => .error st
  | .ok la =>
    match s.translate la .read with
    | .error st => .error (fetchStop st)
    | .ok pa => .ok pa

/-- Byte `i` of the instruction at `rip`; only program text is fetched (95_test_vectors.md sections 7
and 8; log 15). -/
def State.codeByte (s : State) (i : Nat) : Except Stop Byte :=
  match s.codeAddr i with
  | .error st => .error st
  | .ok pa => if s.isText pa then .ok (s.mem.read pa) else .error (.refuse .endOfProgram)

/-- Up to `n` bytes from byte `i` on, and why they end. -/
def State.codeBytes (s : State) (i : Nat) : (n : Nat) → List Byte × Stop
  | 0 => ([], .refuse .endOfProgram)
  | n + 1 =>
    match s.codeByte i with
    | .error st => ([], st)
    | .ok b => (b :: (s.codeBytes (i + 1) n).1, (s.codeBytes (i + 1) n).2)

/-- How many bytes a fetch looks at: more than can be fetched, so that it ends where the first byte stops
it (`fetched_end` in Laws/Step.lean). Only text is fetched; a page that no page rule names is translated to
itself, so its bytes are so many bytes of text, and there are no more other pages than rules. -/
def State.fetchWindow (s : State) : Nat :=
  (s.text.map Region.size).sum + 4096 * s.pageRules.length + 1

/-- The bytes at `rip`, as many as there are, and why they end. -/
def State.fetched (s : State) : List Byte × Stop := s.codeBytes 0 s.fetchWindow

/-- Fetch and decode (40_common_semantics.md R90 step 1): the instruction at `rip`, or why there is none.
The length fault goes before #UD, and a refusal before both (30_encoding.md R71, 90 C9). -/
def State.fetchInstr (s : State) : Except Stop Instr :=
  match decode s.mode s.fetched.1 with
  | .instr i => .ok i
  | .illegal len =>
    .error (.exn (if maxInstrBytes < len then .lengthOver15 else .illegalEncoding))
  | .notInScope => .error (.refuse .notInScope)
  | .truncated => .error s.fetched.2

/-! ## Launch (70_reset_and_hazards.md R191, R192) -/

/-- What the boot software of R192 sets up before the forms execute, in 64-bit mode: `CR0.PE` and `CR0.MP`
1, `CR0.EM` and `CR0.TS` 0, `CR4.OSFXSR` and `CR4.OSXSAVE` 1, `XCR0` bits 0, 1, 2, 5, 6, 7 set,
`IA32_EFER.LMA` 1, `CS.L` 1 (log 27). DESIGN CHOICE (log 27): `CR4.OSXMMEXCPT`, bit 10, which R192 sets only
"normally" and no form reads, stays as it was. -/
def State.launch64 (s : State) : State :=
  { s with
    cr0 := (s.cr0 ||| 0x3#64) &&& ~~~0xC#64
    cr4 := s.cr4 ||| 0x40200#64
    xcr0 := s.xcr0 ||| 0xE7#64
    efer := s.efer ||| 0x400#64
    csL := true }

/-- The memory address at which byte `i` of the next instruction is fetched; the linear address itself
where the fetch cannot reach it. -/
def State.codeAddrOr (s : State) (i : Nat) : Nat :=
  match s.codeAddr i with
  | .ok pa => pa
  | .error _ => (s.rip + BitVec.ofNat 64 i).toNat

/-- The bytes placed where the machine fetches its next instruction, from byte `i` on, as program
text. -/
def State.placeCode (s : State) (i : Nat) : List Byte → State
  | [] => s
  | b :: bs =>
    let a := s.codeAddrOr i
    State.placeCode { s with mem := s.mem.write a b, text := ⟨a, 1⟩ :: s.text } (i + 1) bs

end Sys2Proof.Machine
end

