-- ==== Sys2Proof/Machine/Step.lean ====
section
/-! DEFINITION. One step of the machine (40_common_semantics.md R90), and the placing of one instruction
where the next step fetches it. -/

namespace Sys2Proof.Machine

/-- One step: fetch and decode the instruction at `rip`, then run it; its meaning advances `rip`. -/
def step (s : State) : Host.Outcome State Fault Refusal :=
  match s.fetchInstr with
  | .ok i => exec i s
  | .error st => st.outcome s

/-- The machine launched in 64-bit mode (log 27) with the instruction whose bits are `w` placed where the
next step fetches. -/
def State.withFetchWord (s : State) (nbits w : Nat) : State :=
  s.launch64.placeCode 0 (tableBytes nbits w)

end Sys2Proof.Machine
end

