-- ==== Sys2Proof/Safety.lean ====
section
/-! DEFINITION. The terms of the claims: what a row of the opcode table fixes, when a form executes
normally, what a register destination holds afterwards, and the invariant of every step. -/

namespace Sys2Proof.Machine

/-! ## What a row fixes (30_encoding.md R70) -/

/-- The encoding format with the payload of its prefix (30_encoding.md R50). -/
inductive Fmt where
  | leg
  | vex2 (v : Vex2)
  | vex3 (v : Vex3)
  | evex (e : Evex)
deriving DecidableEq, Repr

/-- An instruction as its row describes it: format, `VL`, element width in bits (`VL` where there is no
masking), whether the destination is the `r/m` operand (opcode `7F`), prefixes, and ModRM. -/
structure View where
  fmt : Fmt
  vl : VecLen
  ew : Nat
  toRm : Bool
  pfx : List Prefix
  m : ModRM
deriving DecidableEq, Repr

end Sys2Proof.Machine

namespace Sys2Proof

/-- The row of each instruction (30_encoding.md R69, R70). -/
def Instr.view : Instr → Machine.View
  | .movdqaRegRm p m => ⟨.leg, .v128, 128, false, p, m⟩
  | .movdqaRmReg p m => ⟨.leg, .v128, 128, true, p, m⟩
  | .vmovdqaXmmRegRmVex2 p v m => ⟨.vex2 v, .v128, 128, false, p, m⟩
  | .vmovdqaXmmRegRmVex3 p v m => ⟨.vex3 v, .v128, 128, false, p, m⟩
  | .vmovdqaXmmRmRegVex2 p v m => ⟨.vex2 v, .v128, 128, true, p, m⟩
  | .vmovdqaXmmRmRegVex3 p v m => ⟨.vex3 v, .v128, 128, true, p, m⟩
  | .vmovdqaYmmRegRmVex2 p v m => ⟨.vex2 v, .v256, 256, false, p, m⟩
  | .vmovdqaYmmRegRmVex3 p v m => ⟨.vex3 v, .v256, 256, false, p, m⟩
  | .vmovdqaYmmRmRegVex2 p v m => ⟨.vex2 v, .v256, 256, true, p, m⟩
  | .vmovdqaYmmRmRegVex3 p v m => ⟨.vex3 v, .v256, 256, true, p, m⟩
  | .vmovdqa32XmmRegRm p e m => ⟨.evex e, .v128, 32, false, p, m⟩
  | .vmovdqa32YmmRegRm p e m => ⟨.evex e, .v256, 32, false, p, m⟩
  | .vmovdqa32ZmmRegRm p e m => ⟨.evex e, .v512, 32, false, p, m⟩
  | .vmovdqa32XmmRmReg p e m => ⟨.evex e, .v128, 32, true, p, m⟩
  | .vmovdqa32YmmRmReg p e m => ⟨.evex e, .v256, 32, true, p, m⟩
  | .vmovdqa32ZmmRmReg p e m => ⟨.evex e, .v512, 32, true, p, m⟩
  | .vmovdqa64XmmRegRm p e m => ⟨.evex e, .v128, 64, false, p, m⟩
  | .vmovdqa64YmmRegRm p e m => ⟨.evex e, .v256, 64, false, p, m⟩
  | .vmovdqa64ZmmRegRm p e m => ⟨.evex e, .v512, 64, false, p, m⟩
  | .vmovdqa64XmmRmReg p e m => ⟨.evex e, .v128, 64, true, p, m⟩
  | .vmovdqa64YmmRmReg p e m => ⟨.evex e, .v256, 64, true, p, m⟩
  | .vmovdqa64ZmmRmReg p e m => ⟨.evex e, .v512, 64, true, p, m⟩

end Sys2Proof

namespace Sys2Proof.Machine

/-- The parameters of the shared data movement. -/
def View.move (w : View) : Move :=
  match w.fmt with
  | .leg => Move.leg w.pfx w.m
  | .vex2 v => Move.vex2 w.vl w.pfx v w.m
  | .vex3 v => Move.vex3 w.vl w.pfx v w.m
  | .evex e => Move.evex w.vl w.ew w.toRm w.pfx e w.m

end Sys2Proof.Machine

namespace Sys2Proof

/-- The parameters of the shared data movement of an instruction. -/
def Instr.move (i : Instr) : Machine.Move := i.view.move

/-- The kind of access an instruction makes to its memory operand (20_memory.md R37). -/
def Instr.access (i : Instr) : Machine.Access := if i.view.toRm then .write else .read

end Sys2Proof

namespace Sys2Proof.Machine

/-! ## When a form executes normally -/

/-- The stored `vvvv` is 1111, or the format has no such field (30_encoding.md R72). -/
def View.vvvvOk (w : View) : Prop :=
  match w.fmt with
  | .leg => True
  | .vex2 v => v.vvvv = 15#4
  | .vex3 v => v.vvvv = 15#4
  | .evex e => e.vvvv = 15#4

/-- Only segment overrides and `67` (30_encoding.md R59). -/
def OnlySegOrAddr (p : List Prefix) : Prop :=
  ∀ q ∈ p, q = .es ∨ q = .cs ∨ q = .ss ∨ q = .ds ∨ q = .fs ∨ q = .gs ∨ q = .addrsize

/-- None of the illegal encodings of 30_encoding.md R73 that a row can spell. -/
def View.legal (w : View) : Prop :=
  match w.fmt with
  | .leg => Prefix.lock ∉ w.pfx
  | .vex2 _ => OnlySegOrAddr w.pfx
  | .vex3 _ => OnlySegOrAddr w.pfx
  | .evex e =>
    OnlySegOrAddr w.pfx ∧ e.p0Reserved = 0 ∧ e.p1Fixed = true ∧ e.b = false ∧ e.v2Bar = true ∧
      (e.z = true → e.aaa ≠ 0) ∧ (e.z = true → w.toRm = true → ∃ n, w.m.rm = .reg n)

/-- Neither real-address nor virtual-8086 mode (10_state.md R21). -/
def NotRealNorV86 (s : State) : Prop :=
  s.efer.getLsbD 10 = true ∨ (s.cr0.getLsbD 0 = true ∧ s.rflags.getLsbD 17 = false)

/-- No line of the VEX column of 60_exceptions.md R166 but the CPUID line holds. -/
def VexStateOn (s : State) : Prop :=
  s.cr4.getLsbD 18 = true ∧ s.xcr0.getLsbD 1 = true ∧ s.xcr0.getLsbD 2 = true ∧ NotRealNorV86 s

/-- No line of the row's column of 60_exceptions.md R166 holds. -/
def View.ready (w : View) (s : State) : Prop :=
  match w.fmt with
  | .leg => s.cfg.sse2 = true ∧ s.cr0.getLsbD 2 = false ∧ s.cr4.getLsbD 9 = true
  | .vex2 _ => s.cfg.avx = true ∧ VexStateOn s
  | .vex3 _ => s.cfg.avx = true ∧ VexStateOn s
  | .evex _ =>
    s.cfg.avx512f = true ∧ (w.vl = .v512 ∨ s.cfg.avx512vl = true) ∧ VexStateOn s ∧
      s.xcr0.getLsbD 5 = true ∧ s.xcr0.getLsbD 6 = true ∧ s.xcr0.getLsbD 7 = true

/-- Lines 1 to 3 of 60_exceptions.md R173 do not hold: the instruction goes on to its operands. -/
def Executes (i : Instr) (s : State) : Prop :=
  (encode i).length ≤ 15 ∧ i.view.vvvvOk ∧ i.view.legal ∧ i.view.ready s ∧
    s.cr0.getLsbD 3 = false

/-- Line 4 of 60_exceptions.md R173 does not hold for a memory operand (R168, R169): in 64-bit mode every
byte of it is canonical; outside it every byte lies within the segment limit, the selector is not null and
the segment allows the access, and in real-address mode every byte lies in 0 to FFFFH. -/
def SegmentAllows (i : Instr) (s : State) (o : MemOp) (access : Access) : Prop :=
  let g := s.segs.get (i.move.seg s o)
  (s.mode = .mode64 →
    ∀ k < i.view.vl.bytes, s.canonical (i.move.linear s o + BitVec.ofNat 64 k) = true) ∧
  (s.mode ≠ .mode64 →
    (∀ k < i.view.vl.bytes, (i.move.effAddr s o).toNat + k ≤ g.limit.toNat) ∧
    g.isNull = false ∧ (access = .read → g.readable = true) ∧ (access = .write → g.writable = true) ∧
    (s.efer.getLsbD 10 = false → s.cr0.getLsbD 0 = false →
      ∀ k < i.view.vl.bytes, (i.move.effAddr s o).toNat + k ≤ 0xFFFF))

/-- Lines 4 and 5 of 60_exceptions.md R173 do not hold for the memory operand: its segment allows the
access and it is aligned. -/
def OperandOk (i : Instr) (s : State) (o : MemOp) (access : Access) : Prop :=
  SegmentAllows i s o access ∧ i.view.vl.bytes ∣ (i.move.linear s o).toNat

/-! ## The spec's tables of addressing -/

/-- A displacement at `A` bits: sign-extended, an 8-bit one multiplied by the scale (30_encoding.md R62,
R63). -/
def dispAtWidth (A scale : Nat) : Disp → BitVec A
  | .none => 0
  | .d8 d => d.signExtend A * BitVec.ofNat A scale
  | .d32 d => d.signExtend A

/-- The registers that a row of the table of 30_encoding.md R67 adds: BX 3, BP 5, SI 6, DI 7. -/
def regs16 (rm : Nat) : List (BitVec 4) :=
  [[3, 6], [3, 7], [5, 6], [5, 7], [6], [7], [5], [3]].getD rm []

/-- The segment-override prefixes (30_encoding.md R52). -/
def segPrefixes : List (Prefix × SegReg) :=
  [(.es, .es), (.cs, .cs), (.ss, .ss), (.ds, .ds), (.fs, .fs), (.gs, .gs)]

/-! ## What a form moves -/

/-- The bit of the writemask for element `j`: 1 for every element where there is no writemask
(10_state.md R14, 40_common_semantics.md R93). -/
def View.mask (w : View) (s : State) (j : Nat) : Bool :=
  match w.fmt with
  | .evex e => e.aaa == 0 || (s.kAt e.aaa).getLsbD j
  | _ => true

/-- Zeroing-masking is asked for (30_encoding.md R57). -/
def View.zeroing (w : View) : Bool :=
  match w.fmt with
  | .evex e => e.z
  | _ => false

/-- Bit `b` of destination register `d` after the move, where `src` gives the bits of the source
(40_common_semantics.md R93, R95). -/
def View.movedBit (w : View) (s : State) (d : BitVec 5) (src : Nat → Bool) (b : Nat) : Bool :=
  if b < w.vl.bits then
    if w.mask s (b / w.ew) then src b
    else if w.zeroing then false
    else (s.zmmAt d).getLsbD b
  else
    match w.fmt with
    | .leg => (s.zmmAt d).getLsbD b
    | _ => false

/-- `t` is `s` but for the vector registers, memory and `rip`, which has gone past the instruction. -/
def SameButMoved (i : Instr) (s t : State) : Prop :=
  t = { s with zmm := t.zmm, mem := t.mem, rip := s.rip + BitVec.ofNat 64 (encode i).length }

/-! ## Safe runs -/

/-- The instruction pointer fits the mode: in 64-bit mode it lies in the canonical lower half or right
behind it, elsewhere it fits its 32 or 16 bits (10_state.md R17, R18). -/
def RipFits (s : State) : Prop :=
  match s.mode with
  | .mode64 => s.rip.toNat ≤ 2 ^ (s.law - 1)
  | _ => s.rip.toNat < 2 ^ ipBits s.mode

/-- The invariant of every step: memory is in canonical form and the instruction pointer fits. -/
def Inv (s : State) : Prop := s.mem.wf = true ∧ RipFits s

/-- A run of `n` steps from `s` that no fault and no refusal ends. -/
def SafeRun (s : State) : Nat → Prop
  | 0 => True
  | n + 1 =>
    match step s with
    | .next t => SafeRun t n
    | _ => False

end Sys2Proof.Machine
end

