-- ==== Sys2Proof/Certificates/Slice0/Obligations.lean ====
section
/-! DEFINITION. The statements for the provers. They speak of an instruction through its row
(`Instr.view`), of its memory operand through the model's own address computation (`Instr.move`), and of
memory through `Memory.read`, one byte at a time. A recorded fault is written out:
`.fault (.exception cause vector errorCode rip cr2)`. A docstring's "not in the source" names what the spec marks
as its own: general knowledge (GKn), a decision (Dn), an inference. -/

open Sys2Proof Sys2Proof.Machine

/-! ## Encoding -/

/-- 30_encoding.md R71: decoding the encoding of any well-formed instruction, of every row and in every mode,
gives it back, whatever bytes follow. (Not in the source: GK2 to GK7, D25.) -/
def Obligations.DecodeOfEncode : Prop :=
  ∀ (mode : Mode) (i : Instr) (rest : List Byte),
    i.wf mode = true → decode mode (encode i ++ rest) = .instr i

/-- 30_encoding.md R71: bytes that decode to an instruction are its encoding, followed by what comes after it,
and the instruction is well-formed. So each byte sequence has one reading. (Not in the source: GK2 to GK7,
D25.) -/
def Obligations.EncodeOfDecode : Prop :=
  ∀ (mode : Mode) (bs : List Byte) (i : Instr),
    decode mode bs = .instr i → i.wf mode = true ∧ ∃ rest, bs = encode i ++ rest

/-- 30_encoding.md R73, R78: an EVEX encoding of opcode 6F or 7F with `L'L` = 11 or with `mm` = 00 selects no
row; its step raises #UD, or #GP(0) if it is longer than 15 bytes. That `mm` = 00 raises #UD, as R73 says, and
is not refused, as R71 reads, is the model's choice (log 19). (Not in the source: GK5, D7, D12.) -/
def Obligations.EvexNoRowIllegal : Prop :=
  (∀ (mode : Mode) (w : Bool) (mm ll : BitVec 2) (op : Byte) (p : List Prefix) (e : Evex) (m : ModRM)
      (rest : List Byte),
    op = 0x6F ∨ op = 0x7F → partsWf mode p m = true → e.wf mode = true →
    (mm = 1 ∧ ll = 3) ∨ mm = 0 →
    let bytes := prefixBytes p ++
      [0x62, bit1 e.rBar ++ bit1 e.xBar ++ bit1 e.bBar ++ bit1 e.r2Bar ++ e.p0Reserved ++ mm,
        bit1 w ++ e.vvvv ++ bit1 e.p1Fixed ++ 1#2,
        bit1 e.z ++ ll ++ bit1 e.b ++ bit1 e.v2Bar ++ e.aaa, op] ++ m.bytes
    decode mode (bytes ++ rest) = .illegal bytes.length) ∧
  ∀ (s : State) (len : Nat), decode s.mode s.fetched.1 = .illegal len →
    step s =
      if 15 < len then .fault (.exception .lengthOver15 13 (some 0) s.rip none)
      else .fault (.exception .illegalEncoding 6 none s.rip none)

/-- 30_encoding.md R56, R58, R63 to R65: a word of each family, written out from the layouts, decodes to the
instruction it stands for. (Not in the source: GK2 to GK7.) -/
def Obligations.SpecWordsDecode : Prop :=
  decode .mode64 [0x66, 0x0F, 0x6F, 0xDD] = .instr (.movdqaRegRm [.opsize] ⟨3, .reg 5⟩) ∧
  decode .mode64 [0xC5, 0xFD, 0x7F, 0x7E, 0x20] =
    .instr (.vmovdqaYmmRmRegVex2 [] ⟨true, 15⟩ ⟨7, .mem (.base 6 (.d8 0x20))⟩) ∧
  decode .mode64 [0xC4, 0xE1, 0xF9, 0x6F, 0xCA] =
    .instr (.vmovdqaXmmRegRmVex3 [] ⟨true, true, true, true, 15⟩ ⟨1, .reg 2⟩) ∧
  decode .mode64 [0x62, 0xF1, 0x7D, 0xAA, 0x6F, 0x03] =
    .instr (.vmovdqa32YmmRegRm []
      ⟨true, true, true, true, 0, 15, true, true, false, true, 2⟩ ⟨0, .mem (.base 3 .none)⟩) ∧
  decode .mode64 [0x62, 0x81, 0xFD, 0x48, 0x6F, 0xCE] =
    .instr (.vmovdqa64ZmmRegRm []
      ⟨true, false, false, false, 0, 15, true, false, false, true, 0⟩ ⟨1, .reg 6⟩)

/-- 95_test_vectors.md section 8: bytes of other instructions, and a truncated one, are not read as any of the
eighteen forms. (Not in the source: GK4, GK5, GK7.) -/
def Obligations.OtherBytesNotRead : Prop :=
  decode .mode64 [0x0F, 0x6F, 0x0E] = .notInScope ∧
  decode .mode64 [0xF3, 0x0F, 0x6F, 0x0E] = .notInScope ∧
  decode .mode64 [0xF2, 0x0F, 0x6F, 0x0E] = .notInScope ∧
  decode .mode64 [0x66, 0x0F, 0x6E, 0x0E] = .notInScope ∧
  decode .mode64 [0x66, 0x0F, 0xD6, 0x0E] = .notInScope ∧
  decode .mode64 [0xC5, 0xF8, 0x6F, 0x0E] = .notInScope ∧
  decode .mode64 [0xC5, 0xFA, 0x6F, 0x0E] = .notInScope ∧
  decode .mode64 [0xC4, 0xE2, 0x79, 0x6F, 0x0E] = .notInScope ∧
  decode .mode64 [0x62, 0xF1, 0x7E, 0x48, 0x6F, 0x0E] = .notInScope ∧
  decode .mode64 [0x62, 0xF1, 0x7F, 0x48, 0x6F, 0x0E] = .notInScope ∧
  decode .mode64 [0x62, 0xF2, 0x7D, 0x48, 0x6F, 0x0E] = .notInScope ∧
  decode .mode64 [0x62, 0xF1, 0x7D, 0x48, 0x6F] = .truncated

/-- 30_encoding.md R53, R64, R65, R66: the register numbers that the fields and extension bits name. In format
LEG the bits are those of the REX byte immediately before `0F`, and 0 where the last prefix is no REX (that a
REX byte before another prefix is taken along: DEDUCED, log 17). (Not in the source: GK3, GK4, GK5.) -/
def Obligations.RegisterNumbers : Prop :=
  ∀ i : Instr,
    match i.view.fmt with
    | .leg =>
      ∀ rex : BitVec 4,
        (∃ before, i.view.pfx = before ++ [.rex rex]) ∨
          (rex = 0 ∧ ¬ ∃ before wrxb, i.view.pfx = before ++ [.rex wrxb]) →
        i.move.regNum.toNat = 8 * (rex.getLsbD 2).toNat + i.view.m.reg.toNat ∧
        (∀ n, (i.move.rmNum n).toNat = 8 * (rex.getLsbD 0).toNat + n.toNat) ∧
        (∀ n, (i.move.baseNum n).toNat = 8 * (rex.getLsbD 0).toNat + n.toNat) ∧
        ∀ n, (i.move.indexNum n).toNat = 8 * (rex.getLsbD 1).toNat + n.toNat
    | .vex2 v =>
      i.move.regNum.toNat = 8 * (!v.rBar).toNat + i.view.m.reg.toNat ∧
      (∀ n, (i.move.rmNum n).toNat = n.toNat) ∧
      (∀ n, (i.move.baseNum n).toNat = n.toNat) ∧
      ∀ n, (i.move.indexNum n).toNat = n.toNat
    | .vex3 v =>
      i.move.regNum.toNat = 8 * (!v.rBar).toNat + i.view.m.reg.toNat ∧
      (∀ n, (i.move.rmNum n).toNat = 8 * (!v.bBar).toNat + n.toNat) ∧
      (∀ n, (i.move.baseNum n).toNat = 8 * (!v.bBar).toNat + n.toNat) ∧
      ∀ n, (i.move.indexNum n).toNat = 8 * (!v.xBar).toNat + n.toNat
    | .evex e =>
      i.move.regNum.toNat =
        16 * (!e.r2Bar).toNat + 8 * (!e.rBar).toNat + i.view.m.reg.toNat ∧
      (∀ n, (i.move.rmNum n).toNat = 16 * (!e.xBar).toNat + 8 * (!e.bBar).toNat + n.toNat) ∧
      (∀ n, (i.move.baseNum n).toNat = 8 * (!e.bBar).toNat + n.toNat) ∧
      ∀ n, (i.move.indexNum n).toNat = 8 * (!e.xBar).toNat + n.toNat

/-! ## Addresses -/

/-- 20_memory.md R40 and 30_encoding.md R63: the effective address of 32- and 64-bit addressing, every sum
taken at the address size `A` (registers cut to `A` bits first), and zero above it; an 8-bit displacement is
scaled by the operand size in EVEX forms only. (Not in the source: GK6, GK9, D9.) -/
def Obligations.EffectiveAddress : Prop :=
  ∀ (i : Instr) (s : State) (o : MemOp),
    let A :=
      if s.mode = .mode64 then if .addrsize ∈ i.view.pfx then 32 else 64
      else if s.mode = .mode32 then if .addrsize ∈ i.view.pfx then 16 else 32
      else if .addrsize ∈ i.view.pfx then 32 else 16
    let scale := match i.view.fmt with
      | .evex _ => i.view.vl.bytes
      | _ => 1
    let index (sc : BitVec 2) (x : BitVec 3) : BitVec A :=
      if x = 4 ∧ i.move.x = false then 0
      else ((s.gprAt (i.move.indexNum x)).setWidth A) <<< sc.toNat
    (i.move.effAddr s o).toNat < 2 ^ A ∧
    match o with
    | .base rm d =>
      (i.move.effAddr s o).setWidth A =
        (s.gprAt (i.move.baseNum rm)).setWidth A + dispAtWidth A scale d
    | .ripOrAbs d =>
      (s.mode = .mode64 → (i.move.effAddr s o).setWidth A =
        (s.rip + BitVec.ofNat 64 (encode i).length + d.signExtend 64).setWidth A) ∧
      (s.mode ≠ .mode64 → (i.move.effAddr s o).setWidth A = d.setWidth A)
    | .sib sc x b d =>
      (i.move.effAddr s o).setWidth A =
        (s.gprAt (i.move.baseNum b)).setWidth A + index sc x + dispAtWidth A scale d
    | .sibNoBase sc x d =>
      (i.move.effAddr s o).setWidth A = index sc x + d.signExtend A
    | .base16 _ _ => True
    | .abs16 _ => True

/-- 30_encoding.md R67, 20_memory.md R40: in `Mode16` without `67` and in `Mode32` with it, the effective address of 16-bit addressing is the 16-bit sum of the registers of the
table and the sign-extended displacement; an 8-bit displacement is scaled in EVEX forms only. (Not in the
source: GK27, D19.) -/
def Obligations.EffectiveAddress16 : Prop :=
  ∀ (i : Instr) (s : State),
    (s.mode = .mode16 ∧ .addrsize ∉ i.view.pfx) ∨ (s.mode = .mode32 ∧ .addrsize ∈ i.view.pfx) →
    let scale := match i.view.fmt with
      | .evex _ => i.view.vl.bytes
      | _ => 1
    (∀ (rm : BitVec 3) (d : Disp16),
      i.move.effAddr s (.base16 rm d) =
        (((regs16 rm.toNat).map fun n => (s.gprAt n).setWidth 16).sum +
          match d with
          | .none => 0#16
          | .d8 d => d.signExtend 16 * BitVec.ofNat 16 scale
          | .d16 d => d).setWidth 64) ∧
    ∀ d : BitVec 16, i.move.effAddr s (.abs16 d) = d.setWidth 64

/-- 20_memory.md R41, 30_encoding.md R52, R67: the segment of a memory operand. Without an override that
counts it is SS for base register 4 or 5 (BP in 16-bit addressing), else DS; the last override that counts
replaces it; in 64-bit mode only FS and GS count (that an ignored override does not undo an earlier FS or GS
is DEDUCED, log 18). (Not in the source: GK7, GK9, GK27, D9.) -/
def Obligations.SegmentOfOperand : Prop :=
  ∀ (i : Instr) (s : State) (o : MemOp),
    let counts (q : Prefix) : Prop :=
      if s.mode = .mode64 then q = .fs ∨ q = .gs else q ∈ segPrefixes.map Prod.fst
    ((∀ q ∈ i.view.pfx, ¬ counts q) →
      i.move.seg s o =
        match o with
        | .base rm _ => if (i.move.baseNum rm).toNat ∈ [4, 5] then .ss else .ds
        | .sib _ _ b _ => if (i.move.baseNum b).toNat ∈ [4, 5] then .ss else .ds
        | .base16 rm _ => if rm.toNat ∈ [2, 3, 6] then .ss else .ds
        | _ => .ds) ∧
    ∀ (before after : List Prefix) (q : Prefix) (g : SegReg),
      i.view.pfx = before ++ q :: after → (q, g) ∈ segPrefixes → counts q →
      (∀ r ∈ after, ¬ counts r) → i.move.seg s o = g

/-- 20_memory.md R41: the linear address. In 64-bit mode the base of FS or GS is added and no other; outside
it the segment base is added and the sum cut to 32 bits. (Not in the source: GK9, GK10, D9.) -/
def Obligations.LinearAddress : Prop :=
  ∀ (i : Instr) (s : State) (o : MemOp),
    (s.mode = .mode64 →
      (i.move.linear s o).toNat =
        ((match i.move.seg s o with
          | .fs => s.segs.fs.base.toNat
          | .gs => s.segs.gs.base.toNat
          | _ => 0) + (i.move.effAddr s o).toNat) % 2 ^ 64) ∧
    (s.mode ≠ .mode64 →
      (i.move.linear s o).toNat =
        ((s.segs.get (i.move.seg s o)).base.toNat + (i.move.effAddr s o).toNat) % 2 ^ 32)

/-- 20_memory.md R44: `Translate`, by pages of 4096 bytes. With no page rule for the page, the kind of access
and the privilege level the memory address is the linear address itself; otherwise the first rule for them
answers: its frame, a page fault, or device memory. That `Translate` is a list of rules is the model's form of
it (log 11), and device memory its addition (log 23). (Not in the source: GK21, D10.) -/
def Obligations.TranslateByRules : Prop :=
  ∀ (s : State) (la : Word64) (access : Access),
    let applies (r : PageRule) : Prop :=
      r.page.toNat = la.toNat / 4096 ∧ r.access = access ∧ r.cpl = s.cpl
    ((∀ r ∈ s.pageRules, ¬ applies r) →
      s.pageAnswer (pageOf la) access = .frame (pageOf la) ∧ inFrame (pageOf la) la = la.toNat ∧
        s.translate la access = .ok la.toNat) ∧
    (∀ before r after, s.pageRules = before ++ r :: after → applies r → (∀ q ∈ before, ¬ applies q) →
      s.pageAnswer (pageOf la) access = r.answer ∧
        match r.answer with
        | .frame f => s.translate la access = .ok (inFrame f la)
        | .pageFault present rsvd pk =>
          s.translate la access =
            .error (.exn (.pageFault (pageFaultCode access s.cpl present rsvd pk) la))
        | .device => s.translate la access = .error (.refuse .deviceOperand)) ∧
    ∀ f : BitVec 52, inFrame f la = 4096 * f.toNat + la.toNat % 4096

/-- 20_memory.md R42: an address is canonical when bits 63:LAW-1 are all equal, LAW being 48 or 57. (Not in
the source: GK10, D9.) -/
def Obligations.CanonicalBits : Prop :=
  ∀ (s : State) (la : Word64),
    s.canonical la = true ↔
      ∀ b, (if s.cfg.la57 then 56 else 47) ≤ b → b < 64 → la.getLsbD b = la.getLsbD 63

/-- 10_state.md R21: the mode of the machine, from IA32_EFER.LMA, CS.L, CS.D, CR0.PE and RFLAGS.VM. (Not in
the source: GK24, D2; log 8.) -/
def Obligations.ModeOfMachine : Prop :=
  ∀ s : State,
    (s.efer.getLsbD 10 = true → s.csL = true → s.mode = .mode64) ∧
    (s.efer.getLsbD 10 = true → s.csL = false →
      s.mode = if s.csD then .mode32 else .mode16) ∧
    (s.efer.getLsbD 10 = false → s.cr0.getLsbD 0 = true → s.rflags.getLsbD 17 = false →
      s.mode = if s.csD then .mode32 else .mode16) ∧
    (s.efer.getLsbD 10 = false → s.cr0.getLsbD 0 = true → s.rflags.getLsbD 17 = true →
      s.mode = .mode16) ∧
    (s.efer.getLsbD 10 = false → s.cr0.getLsbD 0 = false → s.mode = .mode16)

/-! ## Memory -/

/-- 20_memory.md R31, R32, R33: reading `k` bytes at offset `o` of a stored value of `n` bytes gives bits `8o`
to `8(o+k)-1` of it (a mixed-width read; `o` = 0 and `k` = n is the whole value), and no other byte changes.
(Not in the source: GK11, D5.) -/
def Obligations.StoredValueReadBack : Prop :=
  ∀ (m : Memory) (a n : Nat) (v : BitVec (8 * n)),
    (∀ o k, o + k ≤ n →
      (m.writeBytes a (bytesLE n v)).readLE (a + o) k = v.extractLsb' (8 * o) (8 * k)) ∧
    ∀ x, ¬ (a ≤ x ∧ x < a + n) → (m.writeBytes a (bytesLE n v)).read x = m.read x

/-! ## Fetch and step -/

/-- 40_common_semantics.md R90: when the bytes at the instruction pointer are those of a well-formed
instruction, of any length, the step is the meaning of that instruction; the step adds nothing to it. (Not in
the source: D12.) -/
def Obligations.StepRunsDecoded : Prop :=
  ∀ (s : State) (i : Instr),
    i.wf s.mode = true →
    (∀ j (h : j < (encode i).length), s.codeByte j = .ok (encode i)[j]) →
    step s = exec i s

/-- 30_encoding.md R71, 10_state.md R18: bytes that begin with no encoding of the eighteen forms are refused.
Where the fetched bytes end inside an instruction, the step ends for the reason of the first byte that cannot
be fetched: a refusal of that name, or the #GP(0) of R18 if it is non-canonical. (Not in the source: the spec's
own inference R71, GK10, D6; where text ends: log 15.) -/
def Obligations.OtherBytesStop : Prop :=
  ∀ s : State,
    (decode s.mode s.fetched.1 = .notInScope → step s = .refused .notInScope) ∧
    (decode s.mode s.fetched.1 = .truncated →
      (∀ j (h : j < s.fetched.1.length), s.codeByte j = .ok s.fetched.1[j]) ∧
      ((∃ r, s.codeByte s.fetched.1.length = .error (.refuse r) ∧ step s = .refused r) ∨
        (s.codeByte s.fetched.1.length = .error (.exn .fetchNonCanonical) ∧
          step s = .fault (.exception .fetchNonCanonical 13 (some 0) s.rip none))))

/-- 10_state.md R17, R22, R26: byte `j` of the instruction is the byte of memory at `rip` + j, in 64-bit mode
in the canonical lower half, elsewhere with the base of CS added modulo 2^32 and within its limit; in the
frame its page has for reads, if it is program text. Fetching through `Translate` and the limit of CS are the
model's (log 13, 16). (Not in the source: GK9, GK10, GK16, D6.) -/
def Obligations.FetchedByte : Prop :=
  ∀ (s : State) (j : Nat) (f : BitVec 52) (la : Word64),
    (s.mode = .mode64 → s.rip.toNat + j < 2 ^ (if s.cfg.la57 then 56 else 47) ∧
      la.toNat = s.rip.toNat + j) →
    (s.mode ≠ .mode64 →
      s.rip.toNat + j + 1 < 2 ^ (if s.mode = .mode32 then 32 else 16) ∧
      s.rip.toNat + j ≤ s.segs.cs.limit.toNat ∧
      la.toNat = (s.segs.cs.base.toNat + s.rip.toNat + j) % 2 ^ 32) →
    s.pageAnswer (pageOf la) .read = .frame f → s.isText (inFrame f la) = true →
    s.codeByte j = .ok (s.mem.read (inFrame f la))

/-- 10_state.md R18: no byte of an instruction is fetched outside the canonical lower half or across the end
of the instruction pointer. In 64-bit mode byte `j` at a non-canonical address raises #GP(0), and in the
canonical upper half it is refused; where the instruction pointer would overflow it is refused in every mode
(the spec's own choice, 92 D6; the widths outside 64-bit mode: log 16). The step does so at byte 0, and at a
later byte where the instruction is not complete before it (OtherBytesStop). (Not in the source: GK9, GK10,
D6.) -/
def Obligations.FetchOutsideLowerHalf : Prop :=
  ∀ (s : State) (j : Nat),
    (s.mode = .mode64 → s.rip.toNat + j < 2 ^ 64 → s.canonical (s.rip + BitVec.ofNat 64 j) = false →
      s.codeByte j = .error (.exn .fetchNonCanonical) ∧
      (j = 0 → step s = .fault (.exception .fetchNonCanonical 13 (some 0) s.rip none))) ∧
    (s.mode = .mode64 → s.rip.toNat + j < 2 ^ 64 → s.canonical (s.rip + BitVec.ofNat 64 j) = true →
      (s.rip + BitVec.ofNat 64 j).getLsbD 63 = true →
      s.codeByte j = .error (.refuse .upperHalfProgram) ∧
      (j = 0 → step s = .refused .upperHalfProgram)) ∧
    ((s.mode = .mode64 ∧ 2 ^ 64 ≤ s.rip.toNat + j) ∨
        (s.mode = .mode32 ∧ 2 ^ 32 ≤ s.rip.toNat + j + 1) ∨
        (s.mode = .mode16 ∧ 2 ^ 16 ≤ s.rip.toNat + j + 1) →
      s.codeByte j = .error (.refuse .ripOverflow) ∧ (j = 0 → step s = .refused .ripOverflow))

/-! ## Exceptions, in the order of 60_exceptions.md R173 -/

/-- 30_encoding.md R68, 60_exceptions.md R173 line 1: an instruction of more than 15 bytes raises #GP(0),
whatever else holds. (Not in the source: GK7, D12, D20.) -/
def Obligations.LengthFault : Prop :=
  ∀ (i : Instr) (s : State), 15 < (encode i).length →
    exec i s = .fault (.exception .lengthOver15 13 (some 0) s.rip none)

/-- 60_exceptions.md R162: every VEX and EVEX form whose stored vvvv is not 1111 raises #UD, register or
memory operand; no error code, and nothing is recorded but the instruction pointer. (The length fault of
R173 line 1 comes before it.) -/
def Obligations.VvvvFault : Prop :=
  ∀ (i : Instr) (s : State), (encode i).length ≤ 15 → ¬ i.view.vvvvOk →
    exec i s = .fault (.exception .vvvvUsed 6 none s.rip none)

/-- 60_exceptions.md R165, 30_encoding.md R73: the other illegal encodings raise #UD. (Not in the source: GK5,
GK7, GK12, D7, D23.) -/
def Obligations.IllegalEncodingFault : Prop :=
  ∀ (i : Instr) (s : State), (encode i).length ≤ 15 → i.view.vvvvOk → ¬ i.view.legal →
    exec i s = .fault (.exception .illegalEncoding 6 none s.rip none)

/-- 60_exceptions.md R166: a form raises #UD when a line of its column holds. (Not in the source: GK12, GK15,
D8.) -/
def Obligations.NotEnabledFault : Prop :=
  ∀ (i : Instr) (s : State), (encode i).length ≤ 15 → i.view.vvvvOk → i.view.legal →
    ¬ i.view.ready s → exec i s = .fault (.exception .notEnabled 6 none s.rip none)

/-- 60_exceptions.md R167: every form raises #NM when CR0.TS = 1, without an error code (once no line of R173
above it holds). (Not in the source: GK12, D8, D12.) -/
def Obligations.DeviceNotAvailableFault : Prop :=
  ∀ (i : Instr) (s : State), (encode i).length ≤ 15 → i.view.vvvvOk → i.view.legal →
    i.view.ready s → s.cr0.getLsbD 3 = true →
    exec i s = .fault (.exception .deviceNotAvailable 7 none s.rip none)

/-- 60_exceptions.md R168, R169, 20_memory.md R42: in 64-bit mode a memory operand any byte of which is
non-canonical raises #SS(0) if its segment is SS, else #GP(0). (Not in the source: GK10, GK12, D9.) -/
def Obligations.NonCanonicalFault : Prop :=
  ∀ (i : Instr) (s : State) (o : MemOp), Executes i s → i.view.m.rm = .mem o → s.mode = .mode64 →
    (∃ k < i.view.vl.bytes, s.canonical (i.move.linear s o + BitVec.ofNat 64 k) = false) →
    exec i s =
      if i.move.seg s o = .ss then .fault (.exception .stackSegment 12 (some 0) s.rip none)
      else .fault (.exception .segmentViolation 13 (some 0) s.rip none)

/-- 60_exceptions.md R168, R169: outside 64-bit mode a memory operand any byte of which lies outside the
segment limit raises #SS(0) if its segment is SS, else #GP(0). That the limit is tested before the null
selector and the rights, so that SS then raises #SS(0), and that a limit is an upper bound, is the model's
choice (DEDUCED, log 21). (Not in the source: GK12, D9.) -/
def Obligations.SegmentLimitFault : Prop :=
  ∀ (i : Instr) (s : State) (o : MemOp), Executes i s → i.view.m.rm = .mem o → s.mode ≠ .mode64 →
    (∃ k < i.view.vl.bytes,
      (s.segs.get (i.move.seg s o)).limit.toNat < (i.move.effAddr s o).toNat + k) →
    exec i s =
      if i.move.seg s o = .ss then .fault (.exception .stackSegment 12 (some 0) s.rip none)
      else .fault (.exception .segmentViolation 13 (some 0) s.rip none)

/-- 60_exceptions.md R169: outside 64-bit mode, within the limit, a null selector, a store to a segment that
is not writable, a load from one that is not readable, and in real-address mode a byte beyond FFFFH raise
#GP(0). (Not in the source: GK12, D9; log 21.) -/
def Obligations.SegmentRightsFault : Prop :=
  ∀ (i : Instr) (s : State) (o : MemOp), Executes i s → i.view.m.rm = .mem o → s.mode ≠ .mode64 →
    (∀ k < i.view.vl.bytes,
      (i.move.effAddr s o).toNat + k ≤ (s.segs.get (i.move.seg s o)).limit.toNat) →
    (s.segs.get (i.move.seg s o)).isNull = true ∨
      (i.view.toRm = true ∧ (s.segs.get (i.move.seg s o)).writable = false) ∨
      (i.view.toRm = false ∧ (s.segs.get (i.move.seg s o)).readable = false) ∨
      (s.efer.getLsbD 10 = false ∧ s.cr0.getLsbD 0 = false ∧
        ∃ k < i.view.vl.bytes, 0xFFFF < (i.move.effAddr s o).toNat + k) →
    exec i s = .fault (.exception .segmentViolation 13 (some 0) s.rip none)

/-- 40_common_semantics.md R96: a memory operand whose linear address is not a multiple of VL/8 raises
#GP(0), for loads and stores, before any byte is read or written and independently of the writemask (nothing
is assumed of the mask, of the page or of the bytes). The exceptions of R173 above it do not hold. -/
def Obligations.MisalignedFault : Prop :=
  ∀ (i : Instr) (s : State) (o : MemOp), Executes i s → i.view.m.rm = .mem o →
    SegmentAllows i s o i.access →
    (i.move.linear s o).toNat % i.view.vl.bytes ≠ 0 →
    exec i s = .fault (.exception .misaligned 13 (some 0) s.rip none)

/-- 60_exceptions.md R170, 20_memory.md R38: when the page of the operand is refused, the lowest element whose
mask bit is 1 raises #PF; the error code has P, W/R (store), U/S (privilege level 3), RSVD, I/D = 0 and PK in
bits 0 to 5, and CR2 is the address of that element. (Not in the source: GK12, GK13, GK19, D15; log 12.) -/
def Obligations.PageFaultRecord : Prop :=
  ∀ (i : Instr) (s : State) (o : MemOp) (present rsvd pk : Bool) (j : Nat),
    Executes i s → i.view.m.rm = .mem o → OperandOk i s o i.access →
    s.pageAnswer (pageOf (i.move.linear s o)) i.access = .pageFault present rsvd pk →
    j < i.view.vl.bits / i.view.ew → i.view.mask s j = true → (∀ k < j, i.view.mask s k = false) →
    ∃ code : BitVec 32,
      let la := i.move.linear s o + BitVec.ofNat 64 (j * (i.view.ew / 8))
      exec i s = .fault (.exception (.pageFault code la) 14 (some code) s.rip (some la)) ∧
      code.getLsbD 0 = present ∧ code.getLsbD 1 = i.view.toRm ∧
      code.getLsbD 2 = decide (s.cpl = 3) ∧ code.getLsbD 3 = rsvd ∧ code.getLsbD 4 = false ∧
      code.getLsbD 5 = pk ∧ ∀ b, 6 ≤ b → code.getLsbD b = false

/-- 60_exceptions.md R172: every exception, of an instruction or of a step, records the instruction pointer of
the faulting instruction and, where the table of R160 shows one, an error code; only #PF records an address,
and nothing else is recorded. (Not in the source: GK13.) -/
def Obligations.FaultRecord : Prop :=
  ∀ (s : State) (f : Fault), step s = .fault f ∨ (∃ i, exec i s = .fault f) →
    ∃ c v code cr2, f = .exception c v code s.rip cr2 ∧ (cr2.isSome = true ↔ v = 14) ∧
      ((v = 6 ∧ code = none) ∨ (v = 7 ∧ code = none) ∨ (v = 12 ∧ code = some 0) ∨
        (v = 13 ∧ code = some 0) ∨ (v = 14 ∧ code.isSome = true))

/-- 60_exceptions.md R163: no form raises a SIMD floating-point exception (vector 19) or sets a flag in
MXCSR, whatever the data. -/
def Obligations.NoSimdException : Prop :=
  ∀ (i : Instr) (s : State),
    (∀ c v code rip cr2, exec i s = .fault (.exception c v code rip cr2) → v ≠ 19) ∧
    ∀ t, exec i s = .next t → t.mxcsr = s.mxcsr

/-- The only refusals of an instruction: past lines 1 to 3 of 60_exceptions.md R173 and with a memory operand,
it is refused for device memory (92 D26), or as a store into the program (20_memory.md R49). So an instruction
with a register operand is never refused. (Not in the source: D17.) -/
def Obligations.RefusedOnlyFor : Prop :=
  ∀ (i : Instr) (s : State) (r : Refusal), exec i s = .refused r →
    Executes i s ∧ (∃ o, i.view.m.rm = .mem o) ∧
      (r = .deviceOperand ∨ (r = .storeIntoProgram ∧ i.view.toRm = true))

/-- 20_memory.md R43, 92 D26: an operand in device memory is refused, if any of its elements is to be
accessed. (Not in the source: GK18; log 23.) -/
def Obligations.DeviceOperandRefused : Prop :=
  ∀ (i : Instr) (s : State) (o : MemOp) (j : Nat),
    Executes i s → i.view.m.rm = .mem o → OperandOk i s o i.access →
    s.pageAnswer (pageOf (i.move.linear s o)) i.access = .device →
    j < i.view.vl.bits / i.view.ew → i.view.mask s j = true →
    exec i s = .refused .deviceOperand

/-- 20_memory.md R49: a store that would write a byte of the program text is refused. (Only the bytes of
elements whose mask bit is 1 count: DEDUCED, log 15.) (Not in the source: D17.) -/
def Obligations.StoreIntoProgramRefused : Prop :=
  ∀ (i : Instr) (s : State) (o : MemOp) (f : BitVec 52) (k : Nat),
    Executes i s → i.view.toRm = true → i.view.m.rm = .mem o → OperandOk i s o .write →
    s.pageAnswer (pageOf (i.move.linear s o)) .write = .frame f →
    k < i.view.vl.bytes → i.view.mask s (8 * k / i.view.ew) = true →
    s.isText (inFrame f (i.move.linear s o) + k) = true →
    exec i s = .refused .storeIntoProgram

/-! ## What the instructions do -/

/-- 40_common_semantics.md R91 to R95, R98, for all 22 rows with a register in `r/m`, both opcodes: the
instruction completes; each bit of the destination register is as R93 and R95 say (source bit, old bit or 0,
element by element); every other register, memory and all other state are unchanged but for `rip`. (Not in the
source: GK3 to GK5, GK9, D6, D22.) -/
def Obligations.RegisterCopyResult : Prop :=
  ∀ (i : Instr) (s : State) (n : BitVec 3), Executes i s → i.view.m.rm = .reg n →
    let dst := if i.view.toRm then i.move.rmNum n else i.move.regNum
    let src := if i.view.toRm then i.move.regNum else i.move.rmNum n
    ∃ t, exec i s = .next t ∧ SameButMoved i s t ∧
      (∀ b < 512, (t.zmmAt dst).getLsbD b =
        i.view.movedBit s dst (fun b => (s.zmmAt src).getLsbD b) b) ∧
      (∀ d, d ≠ dst → t.zmmAt d = s.zmmAt d) ∧ ∀ a, t.mem.read a = s.mem.read a

/-- 40_common_semantics.md R92, R93, R95, R98, for the 11 rows of opcode 6F with a memory operand: when the
checks pass and the page has a frame for reads, the load completes; bit b of the source is bit b mod 8 of the
byte at offset b / 8 of the operand (20_memory.md R31, R33); every other register, memory and all other state
are unchanged but for `rip`. (Not in the source: GK5, GK9, GK11, D5, D6, D9.) -/
def Obligations.LoadResult : Prop :=
  ∀ (i : Instr) (s : State) (o : MemOp) (f : BitVec 52),
    Executes i s → i.view.toRm = false → i.view.m.rm = .mem o → OperandOk i s o .read →
    s.pageAnswer (pageOf (i.move.linear s o)) .read = .frame f →
    let dst := i.move.regNum
    let base := inFrame f (i.move.linear s o)
    ∃ t, exec i s = .next t ∧ SameButMoved i s t ∧
      (∀ b < 512, (t.zmmAt dst).getLsbD b =
        i.view.movedBit s dst (fun b => (s.mem.read (base + b / 8)).getLsbD (b % 8)) b) ∧
      (∀ d, d ≠ dst → t.zmmAt d = s.zmmAt d) ∧ ∀ a, t.mem.read a = s.mem.read a

/-- 40_common_semantics.md R94, R98, for the 11 rows of opcode 7F with a memory operand: when the checks pass,
the page has a frame for writes and no byte to be written is program text, the store completes; each byte of
an element whose mask bit is 1 takes the register's, every other byte of memory, every register and all other
state are unchanged but for `rip`. (Not in the source: GK9, GK11, D5, D6, D9.) -/
def Obligations.StoreResult : Prop :=
  ∀ (i : Instr) (s : State) (o : MemOp) (f : BitVec 52),
    Executes i s → i.view.toRm = true → i.view.m.rm = .mem o → OperandOk i s o .write →
    s.pageAnswer (pageOf (i.move.linear s o)) .write = .frame f →
    let base := inFrame f (i.move.linear s o)
    let writes (a : Nat) : Prop :=
      base ≤ a ∧ a < base + i.view.vl.bytes ∧ i.view.mask s (8 * (a - base) / i.view.ew) = true
    (∀ a, writes a → s.isText a = false) →
    ∃ t, exec i s = .next t ∧ SameButMoved i s t ∧ t.zmm = s.zmm ∧
      ∀ a, (writes a → t.mem.read a = (s.zmmAt i.move.regNum).extractLsb' (8 * (a - base)) 8) ∧
        (¬ writes a → t.mem.read a = s.mem.read a)

/-- 20_memory.md R38: with every mask bit 0 a store writes nothing and a load reads nothing, so both complete
whatever the page answers; a load still merges or zeroes its destination (40_common_semantics.md R99). (Not in
the source: GK19, D15.) -/
def Obligations.AllMaskedOff : Prop :=
  ∀ (i : Instr) (s : State) (o : MemOp), Executes i s → i.view.m.rm = .mem o →
    OperandOk i s o i.access → (∀ j < i.view.vl.bits / i.view.ew, i.view.mask s j = false) →
    (i.view.toRm = true →
      exec i s = .next { s with rip := s.rip + BitVec.ofNat 64 (encode i).length }) ∧
    (i.view.toRm = false → ∃ t, exec i s = .next t ∧ SameButMoved i s t ∧ t.mem = s.mem ∧
      (∀ b < 512, (t.zmmAt i.move.regNum).getLsbD b =
        (decide (b < i.view.vl.bits) && !i.view.zeroing && (s.zmmAt i.move.regNum).getLsbD b)) ∧
      ∀ d, d ≠ i.move.regNum → t.zmmAt d = s.zmmAt d)

/-- 41_movdqa_sse.md R100, R101: a MOVDQA register copy, either opcode, takes the low 128 bits of the source
and keeps bits 511:128 of the destination. (Not in the source: D22.) -/
def Obligations.MovdqaCopyKeepsUpper : Prop :=
  ∀ (p : List Prefix) (reg n : BitVec 3) (s : State),
    let six := Instr.movdqaRegRm p ⟨reg, .reg n⟩
    let sev := Instr.movdqaRmReg p ⟨reg, .reg n⟩
    let a := six.move.regNum
    let b := six.move.rmNum n
    (Executes six s →
      ∃ t, exec six s = .next t ∧ (t.zmmAt a).extractLsb' 0 128 = (s.zmmAt b).extractLsb' 0 128 ∧
        (t.zmmAt a).extractLsb' 128 384 = (s.zmmAt a).extractLsb' 128 384) ∧
    (Executes sev s →
      ∃ t, exec sev s = .next t ∧ (t.zmmAt b).extractLsb' 0 128 = (s.zmmAt a).extractLsb' 0 128 ∧
        (t.zmmAt b).extractLsb' 128 384 = (s.zmmAt b).extractLsb' 128 384)

/-- 42_vmovdqa_vex.md R110 to R113: a VMOVDQA register copy, both lengths, both prefix spellings and both
opcodes, leaves the low 128 or 256 bits of the source, zero-extended, in the whole destination register. (Not
in the source: GK9, D6, D22.) -/
def Obligations.VmovdqaCopyZeroExtends : Prop :=
  ∀ (i : Instr) (s : State) (n : BitVec 3), Executes i s → i.view.m.rm = .reg n →
    ((∃ v, i.view.fmt = .vex2 v) ∨ ∃ v, i.view.fmt = .vex3 v) →
    let dst := if i.view.toRm then i.move.rmNum n else i.move.regNum
    let src := if i.view.toRm then i.move.regNum else i.move.rmNum n
    exec i s = .next
      ((s.setZmm dst (((s.zmmAt src).setWidth i.view.vl.bits).setWidth 512)).advance
        (encode i).length)

/-- 43_vmovdqa32_evex.md R120 to R125, 44_vmovdqa64_evex.md R140 to R145: under a writemask, element j of the
destination of a VMOVDQA32 or VMOVDQA64 register copy is the source's if `K[aaa]` bit j is 1, else the old
one, or 0 with `z`. (Not in the source: GK5, D22.) -/
def Obligations.EvexCopyByElement : Prop :=
  ∀ (i : Instr) (s : State) (n : BitVec 3) (e : Evex) (j : Nat),
    Executes i s → i.view.m.rm = .reg n → i.view.fmt = .evex e → e.aaa ≠ 0 →
    j < i.view.vl.bits / i.view.ew →
    let dst := if i.view.toRm then i.move.rmNum n else i.move.regNum
    let src := if i.view.toRm then i.move.regNum else i.move.rmNum n
    ∃ t, exec i s = .next t ∧
      (t.zmmAt dst).extractLsb' (j * i.view.ew) i.view.ew =
        if (s.kAt e.aaa).getLsbD j then (s.zmmAt src).extractLsb' (j * i.view.ew) i.view.ew
        else if e.z then 0 else (s.zmmAt dst).extractLsb' (j * i.view.ew) i.view.ew

/-! ## What holds of every instruction that completes -/

/-- 40_common_semantics.md R95: the bits above VL of a register destination are unchanged for legacy SSE and
0 for VEX and EVEX, whatever the writemask and the kind of masking, and also when source and destination are
the same register. -/
def Obligations.UpperBits : Prop :=
  ∀ (i : Instr) (s t : State), exec i s = .next t →
    (i.view.toRm = false ∨ ∃ n, i.view.m.rm = .reg n) →
    let dst := match i.view.toRm, i.view.m.rm with
      | true, .reg n => i.move.rmNum n
      | _, _ => i.move.regNum
    ∀ b, i.view.vl.bits ≤ b → b < 512 →
      (t.zmmAt dst).getLsbD b =
        match i.view.fmt with
        | .leg => (s.zmmAt dst).getLsbD b
        | _ => false

/-- 40_common_semantics.md R98: every form that completes continues at the next sequential instruction. (Not
in the source: GK9, D6.) -/
def Obligations.ContinuesAtNext : Prop :=
  ∀ (i : Instr) (s t : State), exec i s = .next t →
    t.rip = s.rip + BitVec.ofNat 64 (encode i).length

/-- 10_state.md R13, R15, R16, R19, R20, 92 D24: an instruction that completes changes vector registers,
memory and `rip` and nothing else: no general register, opmask, flag, control, segment or x87 state, no
configuration; and never both a vector register and memory. (Not in the source: GK15, D24, the spec's own
inference R15.) -/
def Obligations.OnlyMovedStateChanges : Prop :=
  ∀ (i : Instr) (s t : State), exec i s = .next t →
    SameButMoved i s t ∧ (t.zmm = s.zmm ∨ ∀ a, t.mem.read a = s.mem.read a)

/-- 10_state.md R15: an instruction reads the selected opmask register only, and only its bits KL-1:0 (with
`aaa` = 0, or outside EVEX, none), and writes none: with other opmask registers that agree on those bits it
does the same. (Not in the source: the spec's own inference R15.) -/
def Obligations.OpmaskReadOnlySelected : Prop :=
  ∀ (i : Instr) (s : State) (k' : Vector Word64 8),
    (∀ e, i.view.fmt = .evex e → e.aaa ≠ 0 → ∀ j < i.view.vl.bits / i.view.ew,
      (State.kAt { s with k := k' } e.aaa).getLsbD j = (s.kAt e.aaa).getLsbD j) →
    (∀ t, exec i s = .next t → t.k = s.k ∧ exec i { s with k := k' } = .next { t with k := k' }) ∧
    (∀ f, exec i s = .fault f → exec i { s with k := k' } = .fault f) ∧
    ∀ r, exec i s = .refused r → exec i { s with k := k' } = .refused r

/-- 10_state.md R19: an instruction reads no flag and writes no flag: with other contents of RFLAGS and MXCSR
it does the same and leaves them alone. RFLAGS.VM is mode state (10_state.md R21) and is kept. (Not in the
source: GK15, D24.) -/
def Obligations.FlagsNotUsed : Prop :=
  ∀ (i : Instr) (s : State) (rflags' : Word64) (mxcsr' : BitVec 32),
    rflags'.getLsbD 17 = s.rflags.getLsbD 17 →
    let s' := { s with rflags := rflags', mxcsr := mxcsr' }
    (∀ t, exec i s = .next t →
      exec i s' = .next { t with rflags := rflags', mxcsr := mxcsr' } ∧
        t.rflags = s.rflags ∧ t.mxcsr = s.mxcsr) ∧
    (∀ f, exec i s = .fault f → exec i s' = .fault f) ∧
    ∀ r, exec i s = .refused r → exec i s' = .refused r

/-- 30_encoding.md R77: the two spellings of one register copy, opcode 6F and opcode 7F with the operand
fields exchanged, have the same effect in every state. (Not in the source: D22, the spec's own inference
R77.) -/
def Obligations.TwoSpellingsOneCopy : Prop :=
  ∀ (i j : Instr) (s : State) (n n' : BitVec 3),
    i.view.toRm = false → j.view.toRm = true → i.view.m.rm = .reg n → j.view.m.rm = .reg n' →
    i.move.fam = j.move.fam → i.view.vl = j.view.vl → i.view.ew = j.view.ew →
    (encode i).length = (encode j).length →
    (i.view.vvvvOk ↔ j.view.vvvvOk) → (i.view.legal ↔ j.view.legal) →
    i.move.z = j.move.z → i.move.aaa = j.move.aaa →
    i.move.regNum = j.move.rmNum n' → i.move.rmNum n = j.move.regNum →
    exec i s = exec j s

/-- 40_common_semantics.md R97: an unmasked VMOVDQA32 and an unmasked VMOVDQA64 of the same vector length do
the same in every state: load, store and register copy, with every exception and refusal. (Not in the source:
the spec's own inference R97.) -/
def Obligations.UnmaskedElementSizeIrrelevant : Prop :=
  ∀ (p : List Prefix) (e : Evex) (m : ModRM) (s : State), e.aaa = 0 →
    exec (.vmovdqa32XmmRegRm p e m) s = exec (.vmovdqa64XmmRegRm p e m) s ∧
    exec (.vmovdqa32YmmRegRm p e m) s = exec (.vmovdqa64YmmRegRm p e m) s ∧
    exec (.vmovdqa32ZmmRegRm p e m) s = exec (.vmovdqa64ZmmRegRm p e m) s ∧
    exec (.vmovdqa32XmmRmReg p e m) s = exec (.vmovdqa64XmmRmReg p e m) s ∧
    exec (.vmovdqa32YmmRmReg p e m) s = exec (.vmovdqa64YmmRmReg p e m) s ∧
    exec (.vmovdqa32ZmmRmReg p e m) s = exec (.vmovdqa64ZmmRmReg p e m) s

/-- 40_common_semantics.md R99: a writemask that is all ones in bits KL-1:0, without zeroing, is the same as
no writemask. (Not in the source: the spec's own inference R99.) -/
def Obligations.AllOnesMaskIsNoMask : Prop :=
  ∀ (i j : Instr) (e : Evex) (s : State),
    i.view.fmt = .evex e → j.view = { i.view with fmt := .evex { e with aaa := 0 } } → e.z = false →
    (∀ k < i.view.vl.bits / i.view.ew, i.view.mask s k = true) →
    exec i s = exec j s

/-- 70_reset_and_hazards.md R193, 20_memory.md R46: a load sees the bytes written by an earlier store: when a
store and then a load of the same length, at the same linear address and with every element enabled, complete,
the loaded register holds the stored register's bits VL-1:0. The page has one frame for reads and writes. (Not
in the source: GK18, D13.) -/
def Obligations.LoadSeesEarlierStore : Prop :=
  ∀ (i j : Instr) (s t u : State) (o o' : MemOp) (f : BitVec 52),
    i.view.toRm = true → j.view.toRm = false → i.view.m.rm = .mem o → j.view.m.rm = .mem o' →
    i.view.vl = j.view.vl →
    (∀ k < i.view.vl.bits / i.view.ew, i.view.mask s k = true) →
    (∀ k < j.view.vl.bits / j.view.ew, j.view.mask t k = true) →
    j.move.linear t o' = i.move.linear s o →
    s.pageAnswer (pageOf (i.move.linear s o)) .write = .frame f →
    s.pageAnswer (pageOf (i.move.linear s o)) .read = .frame f →
    exec i s = .next t → exec j t = .next u →
    ∀ b < i.view.vl.bits,
      (u.zmmAt j.move.regNum).getLsbD b = (s.zmmAt i.move.regNum).getLsbD b

/-! ## What holds of every step -/

/-- Every step keeps the invariant, from every state that has it: memory stays in canonical form, and the
instruction pointer stays in the canonical lower half or right behind it (64-bit mode), or within its 32 or 16
bits (10_state.md R17, R18). The canonical form of memory and the refusal to wrap are the model's (log 6, 14).
(Not in the source: GK9, GK10, D6.) -/
def Obligations.StepKeepsInvariant : Prop :=
  ∀ s t : State, Inv s → step s = .next t → Inv t

/-- The invariant holds at reset (log 2, 6). -/
def Obligations.ResetHasInvariant : Prop :=
  Inv State.reset

/-- 20_memory.md R49: the program text is fixed for a run: no step changes which bytes are text, or any byte
of text. (Not in the source: D17.) -/
def Obligations.StepKeepsProgramText : Prop :=
  ∀ s t : State, step s = .next t →
    ∀ a, t.isText a = s.isText a ∧ (s.isText a = true → t.mem.read a = s.mem.read a)

/-- 60_exceptions.md R186, 10_state.md R20, R21: the mode, the control registers, the privilege level, the
configuration and `Translate` are constant during a run, as are all registers but the vector registers and
`rip`. (Not in the source: GK15, GK24, D8.) -/
def Obligations.StepKeepsControlState : Prop :=
  ∀ s t : State, step s = .next t →
    t = { s with zmm := t.zmm, mem := t.mem, rip := t.rip } ∧ t.mode = s.mode

/-! ## Reset and launch -/

/-- 10_state.md R26: the reset values the table gives (the spec's general knowledge; RDX, which the table
gives no value, is register 2 and is left out). (Not in the source: GK16, D16.) -/
def Obligations.ResetValues : Prop :=
  (∀ n, State.reset.zmmAt n = 0) ∧ (∀ n, State.reset.kAt n = 0) ∧
  (∀ n, n ≠ 2 → State.reset.gprAt n = 0) ∧
  State.reset.rip = 0xFFF0 ∧ State.reset.segs.cs.base = 0xFFFF0000 ∧ State.reset.rflags = 2 ∧
  State.reset.mxcsr = 0x1F80 ∧ State.reset.cr0 = 0x60000010 ∧ State.reset.cr4 = 0 ∧
  State.reset.xcr0 = 1 ∧ State.reset.efer = 0 ∧ State.reset.opMode = .real

/-- 10_state.md R26, its consequence: straight out of reset every form of at most 15 bytes raises #UD. (Not in
the source: GK16, D16; log 2.) -/
def Obligations.ResetEveryFormUndefined : Prop :=
  ∀ i : Instr, (encode i).length ≤ 15 →
    ∃ c, exec i State.reset = .fault (.exception c 6 none 0xFFF0 none)

/-- 10_state.md R26, its column "after INIT": INIT leaves the vector and opmask registers, MXCSR, XCR0, CD and
NW of CR0 and memory as they are, and gives the other state of the table its reset value (the spec's general
knowledge; RDX is left out; the places of CD and NW: log 36). (Not in the source: GK16.) -/
def Obligations.InitValues : Prop :=
  ∀ s : State,
    let t := s.afterInit
    t.zmm = s.zmm ∧ t.k = s.k ∧ t.mxcsr = s.mxcsr ∧ t.xcr0 = s.xcr0 ∧ t.mem = s.mem ∧
    (∀ n, n ≠ 2 → t.gprAt n = 0) ∧ t.rip = 0xFFF0 ∧ t.segs.cs.base = 0xFFFF0000 ∧ t.rflags = 2 ∧
    (∀ b, t.cr0.getLsbD b = if b = 29 ∨ b = 30 then s.cr0.getLsbD b else b == 4) ∧
    t.cr4 = 0 ∧ t.efer = 0 ∧ t.opMode = .real

/-- 70_reset_and_hazards.md R192: after the boot requirements of the rule, in 64-bit mode, every form is ready
on a processor that has its CPUID flags, and CR0.TS is 0; the launch changes no vector, opmask or general
register, no memory and not `rip`. (Not in the source: GK17, D8; log 27.) -/
def Obligations.LaunchMakesReady : Prop :=
  ∀ (s : State) (i : Instr), s.cfg = Config.primary →
    s.launch64.mode = .mode64 ∧ i.view.ready s.launch64 ∧ s.launch64.cr0.getLsbD 3 = false ∧
      s.launch64.zmm = s.zmm ∧ s.launch64.k = s.k ∧ s.launch64.gpr = s.gpr ∧
      s.launch64.mem = s.mem ∧ s.launch64.rip = s.rip
end

