-- ==== Sys2Proof/Laws/Memory.lean ====
section
/-! SUPPORT. What the memory operations do: reading after a write, and the canonical form. -/

namespace Sys2Proof.Machine

/-! ## One byte -/

theorem read_erase (m : Memory) (a x : Nat) :
    (m.erase a).read x = if x = a then unlistedByte else m.read x := by
  induction m with
  | nil => simp [Memory.erase, Memory.read]
  | cons c cs ih =>
    simp only [Memory.erase] at ih
    by_cases hc : c.1 = a
    · simp only [Memory.erase, List.filter, hc, bne_self_eq_false, ih, Memory.read]
      split <;> simp_all [eq_comm]
    · have hb : (c.1 != a) = true := by simpa using hc
      simp only [Memory.erase, List.filter, hb, Memory.read, ih]
      split <;> rename_i h
      · subst h; simp [hc]
      · rfl

theorem erase_absent (m : Memory) (a : Nat) : ∀ c ∈ m.erase a, c.1 ≠ a := by
  intro c hc
  simpa using (List.mem_filter.mp hc).2

theorem read_insertCell (m : Memory) (a x : Nat) (b : Byte) (h : ∀ c ∈ m, c.1 ≠ a) :
    (m.insertCell a b).read x = if x = a then b else m.read x := by
  induction m with
  | nil => simp [Memory.insertCell, Memory.read, eq_comm]
  | cons c cs ih =>
    have hc : c.1 ≠ a := h c (by simp)
    have ih' := ih fun d hd => h d (by simp [hd])
    simp only [Memory.insertCell]
    split
    · simp [Memory.read, eq_comm]
    · simp only [Memory.read, ih']
      split <;> rename_i hx
      · subst hx; simp [hc]
      · rfl

/-- Reading after a write: the byte written at its address, what was there elsewhere. -/
theorem read_write (m : Memory) (a x : Nat) (b : Byte) :
    (m.write a b).read x = if x = a then b else m.read x := by
  unfold Memory.write
  split <;> rename_i hb
  · rw [read_erase, hb]
  · rw [read_insertCell _ _ _ _ (erase_absent m a), read_erase]
    split <;> simp_all

@[simp] theorem read_write_same (m : Memory) (a : Nat) (b : Byte) : (m.write a b).read a = b := by
  simp [read_write]

theorem read_write_other (m : Memory) (a x : Nat) (b : Byte) (h : x ≠ a) :
    (m.write a b).read x = m.read x := by
  simp [read_write, h]

/-! ## Several bytes -/

/-- Reading after several bytes are written. -/
theorem read_writeBytes (m : Memory) (a x : Nat) (bs : List Byte) :
    (m.writeBytes a bs).read x =
      if a ≤ x ∧ x < a + bs.length then bs.getD (x - a) 0 else m.read x := by
  induction bs generalizing m a with
  | nil => simp only [Memory.writeBytes, List.length_nil]; rw [if_neg (by omega)]
  | cons b bs ih =>
    simp only [Memory.writeBytes, ih, read_write, List.length_cons]
    by_cases h1 : a + 1 ≤ x ∧ x < a + 1 + bs.length
    · rw [if_pos h1, if_pos (by omega)]
      obtain ⟨k, hk⟩ : ∃ k, x - a = k + 1 := ⟨x - a - 1, by omega⟩
      have hk' : x - (a + 1) = k := by omega
      simp [hk, hk']
    · rw [if_neg h1]
      by_cases h2 : x = a
      · subst h2; simp
      · rw [if_neg h2, if_neg (by omega)]

@[simp] theorem length_bytesLE {w : Nat} (n : Nat) (v : BitVec w) : (bytesLE n v).length = n := by
  simp [bytesLE]

theorem bytesLE_getD {w : Nat} (n : Nat) (v : BitVec w) (i : Nat) (h : i < n) :
    (bytesLE n v).getD i 0 = v.extractLsb' (8 * i) 8 := by
  simp [bytesLE, List.getD, h]

/-- The bits of a value read from memory (20_memory.md R31). -/
theorem getLsbD_readLE (m : Memory) (a n b : Nat) :
    (m.readLE a n).getLsbD b = (decide (b < 8 * n) && (m.read (a + b / 8)).getLsbD (b % 8)) := by
  induction n generalizing a b with
  | zero => simp [Memory.readLE]
  | succ n ih =>
    simp only [Memory.readLE, BitVec.getLsbD_append, ih]
    by_cases hb : b < 8
    · have h1 : b / 8 = 0 := by omega
      have h2 : b % 8 = b := by omega
      have h3 : b < 8 * (n + 1) := by omega
      simp [hb, h1, h2, h3]
    · have h1 : a + 1 + (b - 8) / 8 = a + b / 8 := by omega
      have h2 : (b - 8) % 8 = b % 8 := by omega
      have h3 : (b - 8 < 8 * n) ↔ (b < 8 * (n + 1)) := by omega
      simp [hb, h1, h2, h3]

/-! ## The canonical form -/

theorem wf_cons (c : Host.Cell) (cs : Memory) :
    Memory.wf (c :: cs) = true ↔
      c.2 ≠ unlistedByte ∧ (∀ d ∈ cs, c.1 < d.1) ∧ Memory.wf cs = true := by
  simp [Memory.wf, and_assoc]

theorem wf_erase (m : Memory) (a : Nat) (h : m.wf = true) : (m.erase a).wf = true := by
  induction m with
  | nil => rfl
  | cons c cs ih =>
    rw [wf_cons] at h
    obtain ⟨h1, h2, h3⟩ := h
    by_cases hc : c.1 = a
    · simpa [Memory.erase, List.filter, hc] using ih h3
    · have hb : (c.1 != a) = true := by simpa using hc
      have e : Memory.erase (c :: cs) a = c :: Memory.erase cs a := by
        simp [Memory.erase, List.filter, hb]
      rw [e, wf_cons]
      exact ⟨h1, fun d hd => h2 d (List.mem_filter.mp hd).1, ih h3⟩

theorem mem_insertCell (m : Memory) (a : Nat) (b : Byte) (d : Host.Cell)
    (h : d ∈ m.insertCell a b) : d = (a, b) ∨ d ∈ m := by
  induction m with
  | nil => simpa [Memory.insertCell] using h
  | cons c cs ih =>
    simp only [Memory.insertCell] at h
    split at h
    · simpa using h
    · rcases List.mem_cons.mp h with h | h
      · exact .inr (by simp [h])
      · rcases ih h with h | h
        · exact .inl h
        · exact .inr (by simp [h])

theorem wf_insertCell (m : Memory) (a : Nat) (b : Byte) (hb : b ≠ unlistedByte)
    (ha : ∀ c ∈ m, c.1 ≠ a) (h : m.wf = true) : (m.insertCell a b).wf = true := by
  induction m with
  | nil => simp [Memory.insertCell, hb, Memory.wf]
  | cons c cs ih =>
    have h' := h
    rw [wf_cons] at h
    obtain ⟨h1, h2, h3⟩ := h
    have hca : c.1 ≠ a := ha c (by simp)
    simp only [Memory.insertCell]
    split <;> rename_i hlt
    · rw [wf_cons]
      refine ⟨hb, fun d hd => ?_, h'⟩
      rcases List.mem_cons.mp hd with hd | hd
      · simpa [hd] using hlt
      · exact lt_trans hlt (h2 d hd)
    · rw [wf_cons]
      refine ⟨h1, fun d hd => ?_, ih (fun d hd => ha d (by simp [hd])) h3⟩
      rcases mem_insertCell cs a b d hd with hd | hd
      · subst hd; show c.1 < a; omega
      · exact h2 d hd

/-- A write keeps the canonical form. -/
theorem wf_write (m : Memory) (a : Nat) (b : Byte) (h : m.wf = true) : (m.write a b).wf = true := by
  unfold Memory.write
  split <;> rename_i hb
  · exact wf_erase m a h
  · exact wf_insertCell _ a b hb (erase_absent m a) (wf_erase m a h)

/-- Writing several bytes keeps the canonical form. -/
theorem wf_writeBytes (m : Memory) (a : Nat) (bs : List Byte) (h : m.wf = true) :
    (m.writeBytes a bs).wf = true := by
  induction bs generalizing m a with
  | nil => exact h
  | cons b bs ih => exact ih _ _ (wf_write m a b h)

end Sys2Proof.Machine
end

