-- ==== Sys2Proof/Laws/State.lean ====
section
/-! SUPPORT. The small lemmas of the state: one for each field of each update, and what the derived bits of
the state do under an update. -/

namespace Sys2Proof.Machine

/-! ## `setZmm` -/

@[simp] theorem setZmm_zmm (s : State) (n : BitVec 5) (v : Vec) :
    (s.setZmm n v).zmm = s.zmm.set n.toNat v n.isLt := rfl
@[simp] theorem setZmm_k (s : State) (n : BitVec 5) (v : Vec) : (s.setZmm n v).k = s.k := rfl
@[simp] theorem setZmm_gpr (s : State) (n : BitVec 5) (v : Vec) : (s.setZmm n v).gpr = s.gpr := rfl
@[simp] theorem setZmm_rip (s : State) (n : BitVec 5) (v : Vec) : (s.setZmm n v).rip = s.rip := rfl
@[simp] theorem setZmm_rflags (s : State) (n : BitVec 5) (v : Vec) : (s.setZmm n v).rflags = s.rflags := rfl
@[simp] theorem setZmm_mxcsr (s : State) (n : BitVec 5) (v : Vec) : (s.setZmm n v).mxcsr = s.mxcsr := rfl
@[simp] theorem setZmm_x87 (s : State) (n : BitVec 5) (v : Vec) : (s.setZmm n v).x87 = s.x87 := rfl
@[simp] theorem setZmm_x87Tag (s : State) (n : BitVec 5) (v : Vec) : (s.setZmm n v).x87Tag = s.x87Tag := rfl
@[simp] theorem setZmm_cr0 (s : State) (n : BitVec 5) (v : Vec) : (s.setZmm n v).cr0 = s.cr0 := rfl
@[simp] theorem setZmm_cr2 (s : State) (n : BitVec 5) (v : Vec) : (s.setZmm n v).cr2 = s.cr2 := rfl
@[simp] theorem setZmm_cr4 (s : State) (n : BitVec 5) (v : Vec) : (s.setZmm n v).cr4 = s.cr4 := rfl
@[simp] theorem setZmm_xcr0 (s : State) (n : BitVec 5) (v : Vec) : (s.setZmm n v).xcr0 = s.xcr0 := rfl
@[simp] theorem setZmm_efer (s : State) (n : BitVec 5) (v : Vec) : (s.setZmm n v).efer = s.efer := rfl
@[simp] theorem setZmm_segs (s : State) (n : BitVec 5) (v : Vec) : (s.setZmm n v).segs = s.segs := rfl
@[simp] theorem setZmm_csL (s : State) (n : BitVec 5) (v : Vec) : (s.setZmm n v).csL = s.csL := rfl
@[simp] theorem setZmm_csD (s : State) (n : BitVec 5) (v : Vec) : (s.setZmm n v).csD = s.csD := rfl
@[simp] theorem setZmm_cpl (s : State) (n : BitVec 5) (v : Vec) : (s.setZmm n v).cpl = s.cpl := rfl
@[simp] theorem setZmm_cfg (s : State) (n : BitVec 5) (v : Vec) : (s.setZmm n v).cfg = s.cfg := rfl
@[simp] theorem setZmm_pageRules (s : State) (n : BitVec 5) (v : Vec) : (s.setZmm n v).pageRules = s.pageRules := rfl
@[simp] theorem setZmm_text (s : State) (n : BitVec 5) (v : Vec) : (s.setZmm n v).text = s.text := rfl
@[simp] theorem setZmm_mem (s : State) (n : BitVec 5) (v : Vec) : (s.setZmm n v).mem = s.mem := rfl

/-! ## `advance` -/

@[simp] theorem advance_rip (s : State) (len : Nat) :
    (s.advance len).rip = s.rip + BitVec.ofNat 64 len := rfl
@[simp] theorem advance_zmm (s : State) (len : Nat) : (s.advance len).zmm = s.zmm := rfl
@[simp] theorem advance_k (s : State) (len : Nat) : (s.advance len).k = s.k := rfl
@[simp] theorem advance_gpr (s : State) (len : Nat) : (s.advance len).gpr = s.gpr := rfl
@[simp] theorem advance_rflags (s : State) (len : Nat) : (s.advance len).rflags = s.rflags := rfl
@[simp] theorem advance_mxcsr (s : State) (len : Nat) : (s.advance len).mxcsr = s.mxcsr := rfl
@[simp] theorem advance_x87 (s : State) (len : Nat) : (s.advance len).x87 = s.x87 := rfl
@[simp] theorem advance_x87Tag (s : State) (len : Nat) : (s.advance len).x87Tag = s.x87Tag := rfl
@[simp] theorem advance_cr0 (s : State) (len : Nat) : (s.advance len).cr0 = s.cr0 := rfl
@[simp] theorem advance_cr2 (s : State) (len : Nat) : (s.advance len).cr2 = s.cr2 := rfl
@[simp] theorem advance_cr4 (s : State) (len : Nat) : (s.advance len).cr4 = s.cr4 := rfl
@[simp] theorem advance_xcr0 (s : State) (len : Nat) : (s.advance len).xcr0 = s.xcr0 := rfl
@[simp] theorem advance_efer (s : State) (len : Nat) : (s.advance len).efer = s.efer := rfl
@[simp] theorem advance_segs (s : State) (len : Nat) : (s.advance len).segs = s.segs := rfl
@[simp] theorem advance_csL (s : State) (len : Nat) : (s.advance len).csL = s.csL := rfl
@[simp] theorem advance_csD (s : State) (len : Nat) : (s.advance len).csD = s.csD := rfl
@[simp] theorem advance_cpl (s : State) (len : Nat) : (s.advance len).cpl = s.cpl := rfl
@[simp] theorem advance_cfg (s : State) (len : Nat) : (s.advance len).cfg = s.cfg := rfl
@[simp] theorem advance_pageRules (s : State) (len : Nat) : (s.advance len).pageRules = s.pageRules := rfl
@[simp] theorem advance_text (s : State) (len : Nat) : (s.advance len).text = s.text := rfl
@[simp] theorem advance_mem (s : State) (len : Nat) : (s.advance len).mem = s.mem := rfl

/-! ## `afterInit` -/

@[simp] theorem afterInit_zmm (s : State) : s.afterInit.zmm = s.zmm := rfl
@[simp] theorem afterInit_k (s : State) : s.afterInit.k = s.k := rfl
@[simp] theorem afterInit_mxcsr (s : State) : s.afterInit.mxcsr = s.mxcsr := rfl
@[simp] theorem afterInit_x87 (s : State) : s.afterInit.x87 = s.x87 := rfl
@[simp] theorem afterInit_x87Tag (s : State) : s.afterInit.x87Tag = s.x87Tag := rfl
@[simp] theorem afterInit_xcr0 (s : State) : s.afterInit.xcr0 = s.xcr0 := rfl
@[simp] theorem afterInit_cfg (s : State) : s.afterInit.cfg = s.cfg := rfl
@[simp] theorem afterInit_pageRules (s : State) : s.afterInit.pageRules = s.pageRules := rfl
@[simp] theorem afterInit_text (s : State) : s.afterInit.text = s.text := rfl
@[simp] theorem afterInit_mem (s : State) : s.afterInit.mem = s.mem := rfl
@[simp] theorem afterInit_gpr (s : State) : s.afterInit.gpr = State.reset.gpr := rfl
@[simp] theorem afterInit_rip (s : State) : s.afterInit.rip = State.reset.rip := rfl
@[simp] theorem afterInit_rflags (s : State) : s.afterInit.rflags = State.reset.rflags := rfl
@[simp] theorem afterInit_cr2 (s : State) : s.afterInit.cr2 = State.reset.cr2 := rfl
@[simp] theorem afterInit_cr4 (s : State) : s.afterInit.cr4 = State.reset.cr4 := rfl
@[simp] theorem afterInit_efer (s : State) : s.afterInit.efer = State.reset.efer := rfl
@[simp] theorem afterInit_segs (s : State) : s.afterInit.segs = State.reset.segs := rfl
@[simp] theorem afterInit_csL (s : State) : s.afterInit.csL = State.reset.csL := rfl
@[simp] theorem afterInit_csD (s : State) : s.afterInit.csD = State.reset.csD := rfl
@[simp] theorem afterInit_cpl (s : State) : s.afterInit.cpl = State.reset.cpl := rfl
@[simp] theorem afterInit_cr0 (s : State) :
    s.afterInit.cr0 = 0x10#64 ||| (s.cr0 &&& 0x60000000#64) := rfl

/-! ## Vector registers -/

@[simp] theorem zmmAt_setZmm_same (s : State) (n : BitVec 5) (v : Vec) : (s.setZmm n v).zmmAt n = v := by
  simp [State.zmmAt, State.setZmm]

theorem zmmAt_setZmm_other (s : State) (n d : BitVec 5) (v : Vec) (h : d ≠ n) :
    (s.setZmm n v).zmmAt d = s.zmmAt d := by
  have hn : n.toNat ≠ d.toNat := fun e => h (BitVec.eq_of_toNat_eq e.symm)
  simp [State.zmmAt, State.setZmm, hn]

@[simp] theorem zmmAt_advance (s : State) (len : Nat) (n : BitVec 5) :
    (s.advance len).zmmAt n = s.zmmAt n := rfl

/-! ## What else reads the state, after `setZmm` -/

@[simp] theorem mode_setZmm (s : State) (n : BitVec 5) (v : Vec) :
    (s.setZmm n v).mode = s.mode := rfl
@[simp] theorem opMode_setZmm (s : State) (n : BitVec 5) (v : Vec) :
    (s.setZmm n v).opMode = s.opMode := rfl
@[simp] theorem law_setZmm (s : State) (n : BitVec 5) (v : Vec) :
    (s.setZmm n v).law = s.law := rfl
@[simp] theorem enabled_setZmm (s : State) (n : BitVec 5) (v : Vec) (fam : Family) (vl : VecLen) :
    (s.setZmm n v).enabled fam vl = s.enabled fam vl := rfl
@[simp] theorem cr0TS_setZmm (s : State) (n : BitVec 5) (v : Vec) :
    (s.setZmm n v).cr0TS = s.cr0TS := rfl
@[simp] theorem kAt_setZmm (s : State) (n : BitVec 5) (v : Vec) (j : BitVec 3) :
    (s.setZmm n v).kAt j = s.kAt j := rfl
@[simp] theorem gprAt_setZmm (s : State) (n : BitVec 5) (v : Vec) (j : BitVec 4) :
    (s.setZmm n v).gprAt j = s.gprAt j := rfl
@[simp] theorem translate_setZmm (s : State) (n : BitVec 5) (v : Vec) (la : Word64) (a : Access) :
    (s.setZmm n v).translate la a = s.translate la a := rfl
@[simp] theorem isText_setZmm (s : State) (n : BitVec 5) (v : Vec) (a : Nat) :
    (s.setZmm n v).isText a = s.isText a := rfl
@[simp] theorem canonical_setZmm (s : State) (n : BitVec 5) (v : Vec) (la : Word64) :
    (s.setZmm n v).canonical la = s.canonical la := rfl

/-! ## What else reads the state, after `advance` -/

@[simp] theorem mode_advance (s : State) (len : Nat) :
    (s.advance len).mode = s.mode := rfl
@[simp] theorem opMode_advance (s : State) (len : Nat) :
    (s.advance len).opMode = s.opMode := rfl
@[simp] theorem law_advance (s : State) (len : Nat) :
    (s.advance len).law = s.law := rfl
@[simp] theorem enabled_advance (s : State) (len : Nat) (fam : Family) (vl : VecLen) :
    (s.advance len).enabled fam vl = s.enabled fam vl := rfl
@[simp] theorem cr0TS_advance (s : State) (len : Nat) :
    (s.advance len).cr0TS = s.cr0TS := rfl
@[simp] theorem kAt_advance (s : State) (len : Nat) (j : BitVec 3) :
    (s.advance len).kAt j = s.kAt j := rfl
@[simp] theorem gprAt_advance (s : State) (len : Nat) (j : BitVec 4) :
    (s.advance len).gprAt j = s.gprAt j := rfl
@[simp] theorem translate_advance (s : State) (len : Nat) (la : Word64) (a : Access) :
    (s.advance len).translate la a = s.translate la a := rfl
@[simp] theorem isText_advance (s : State) (len : Nat) (a : Nat) :
    (s.advance len).isText a = s.isText a := rfl
@[simp] theorem canonical_advance (s : State) (len : Nat) (la : Word64) :
    (s.advance len).canonical la = s.canonical la := rfl

/-! ## What else reads the state, after memory changes -/

@[simp] theorem mode_mem (s : State) (m : Memory) :
    State.mode { s with mem := m } = s.mode := rfl
@[simp] theorem opMode_mem (s : State) (m : Memory) :
    State.opMode { s with mem := m } = s.opMode := rfl
@[simp] theorem law_mem (s : State) (m : Memory) :
    State.law { s with mem := m } = s.law := rfl
@[simp] theorem kAt_mem (s : State) (m : Memory) (j : BitVec 3) :
    State.kAt { s with mem := m } j = s.kAt j := rfl
@[simp] theorem gprAt_mem (s : State) (m : Memory) (j : BitVec 4) :
    State.gprAt { s with mem := m } j = s.gprAt j := rfl
@[simp] theorem translate_mem (s : State) (m : Memory) (la : Word64) (a : Access) :
    State.translate { s with mem := m } la a = s.translate la a := rfl
@[simp] theorem isText_mem (s : State) (m : Memory) (a : Nat) :
    State.isText { s with mem := m } a = s.isText a := rfl
@[simp] theorem canonical_mem (s : State) (m : Memory) (la : Word64) :
    State.canonical { s with mem := m } la = s.canonical la := rfl
@[simp] theorem zmmAt_mem (s : State) (m : Memory) (n : BitVec 5) :
    State.zmmAt { s with mem := m } n = s.zmmAt n := rfl

end Sys2Proof.Machine
end

