-- ==== Sys2Proof/Laws/Elements.lean ====
section
/-! SUPPORT. What the operations on elements do: the translation of the elements of an operand, the bits of
a loaded and of a merged vector, the bytes of a stored one. -/

namespace Sys2Proof.Machine

/-! ## Translation inside one page -/

theorem toNat_pageOf (la : Word64) : (pageOf la).toNat = la.toNat / 4096 := by
  simp only [pageOf, BitVec.extractLsb'_toNat, Nat.shiftRight_eq_div_pow]
  have := la.isLt
  omega

theorem inFrame_eq (f : BitVec 52) (la : Word64) :
    inFrame f la = f.toNat * 4096 + la.toNat % 4096 := by
  simp only [inFrame, BitVec.toNat_append, BitVec.extractLsb'_toNat, Nat.shiftRight_zero]
  rw [← Nat.shiftLeft_add_eq_or_of_lt (by omega), Nat.shiftLeft_eq]

/-- Page and place in the page of a byte of an aligned operand. -/
theorem inPage (la : Word64) (n off : Nat) (f : BitVec 52) (hn : n ∣ 4096) (ha : n ∣ la.toNat)
    (ho : off < n) :
    pageOf (la + BitVec.ofNat 64 off) = pageOf la ∧
      inFrame f (la + BitVec.ofNat 64 off) = inFrame f la + off := by
  have hl := la.isLt
  obtain ⟨q, hq⟩ := hn
  obtain ⟨k, hk⟩ := ha
  have hnn : n ≤ 4096 := Nat.le_of_dvd (by omega) ⟨q, hq⟩
  have h64 : la.toNat + off < 2 ^ 64 := by
    have hd : n ∣ 2 ^ 64 := Dvd.dvd.trans ⟨q, hq⟩ (by norm_num)
    obtain ⟨r, hr⟩ := hd
    have : k < r := by
      by_contra hc
      have := Nat.mul_le_mul_left n (Nat.le_of_not_lt hc)
      omega
    have := Nat.mul_le_mul_left n this
    rw [Nat.mul_succ] at this
    omega
  have ht : (la + BitVec.ofNat 64 off).toNat = la.toNat + off := by
    simp only [BitVec.toNat_add, BitVec.toNat_ofNat]
    omega
  have hm : la.toNat % 4096 + off < 4096 := by
    have h1 : la.toNat % 4096 = n * (k % q) := by rw [hk, hq, Nat.mul_mod_mul_left]
    have hqp : 0 < q := Nat.pos_of_ne_zero (by rintro rfl; omega)
    have h2 := Nat.mul_le_mul_left n (Nat.mod_lt k hqp)
    rw [Nat.mul_succ] at h2
    omega
  constructor
  · apply BitVec.eq_of_toNat_eq
    rw [toNat_pageOf, toNat_pageOf, ht]
    omega
  · rw [inFrame_eq, inFrame_eq, ht]
    omega

/-- What translation answers: a memory address in the frame of the page, a page fault of the address, or
the refusal of device memory. -/
theorem translate_cases (s : State) (la : Word64) (access : Access) :
    (∃ f, s.pageAnswer (pageOf la) access = .frame f ∧ s.translate la access = .ok (inFrame f la)) ∨
      (∃ p r k, s.pageAnswer (pageOf la) access = .pageFault p r k ∧
        s.translate la access =
          .error (.exn (.pageFault (pageFaultCode access s.cpl p r k) la))) ∨
      (s.pageAnswer (pageOf la) access = .device ∧
        s.translate la access = .error (.refuse .deviceOperand)) := by
  unfold State.translate
  rcases s.pageAnswer (pageOf la) access with f | ⟨p, r, k⟩ | _
  · exact .inl ⟨f, rfl, rfl⟩
  · exact .inr (.inl ⟨p, r, k, rfl, rfl⟩)
  · exact .inr (.inr ⟨rfl, rfl⟩)

/-- What the element addresses are, if there are any: each element's own translation. -/
theorem elemAddrs_ok (s : State) (access : Access) (la : Word64) (n : Nat) (js : List Nat)
    (ps : List (Nat × Nat)) (h : s.elemAddrs access la n js = .ok ps) :
    ps.map Prod.fst = js ∧
      ∀ e ∈ ps, s.translate (la + BitVec.ofNat 64 (e.1 * n)) access = .ok e.2 := by
  induction js generalizing ps with
  | nil => cases h; simp
  | cons j js ih =>
    simp only [State.elemAddrs] at h
    split at h
    · cases h
    · rename_i pa hpa
      split at h
      · cases h
      · rename_i qs hqs
        cases h
        obtain ⟨h1, h2⟩ := ih qs hqs
        refine ⟨by simp [h1], fun e he => ?_⟩
        rcases List.mem_cons.mp he with rfl | he
        · exact hpa
        · exact h2 e he

/-- Why the element addresses stop: the translation of one of the elements does. -/
theorem elemAddrs_error (s : State) (access : Access) (la : Word64) (n : Nat) (js : List Nat)
    (st : Stop) (h : s.elemAddrs access la n js = .error st) :
    ∃ j ∈ js, s.translate (la + BitVec.ofNat 64 (j * n)) access = .error st := by
  induction js with
  | nil => cases h
  | cons j js ih =>
    simp only [State.elemAddrs] at h
    split at h
    · rename_i st' hst
      cases h
      exact ⟨j, by simp, hst⟩
    · split at h
      · rename_i st' hst
        cases h
        obtain ⟨j', hj, ht⟩ := ih hst
        exact ⟨j', by simp [hj], ht⟩
      · cases h

/-- The element addresses of an operand whose page has a frame. -/
theorem elemAddrs_frame (s : State) (access : Access) (la : Word64) (n e : Nat) (f : BitVec 52)
    (js : List Nat) (hn : n ∣ 4096) (ha : n ∣ la.toNat)
    (hp : s.pageAnswer (pageOf la) access = .frame f) (hj : ∀ j ∈ js, j * e < n) :
    s.elemAddrs access la e js = .ok (js.map fun j => (j, inFrame f la + j * e)) := by
  induction js with
  | nil => rfl
  | cons j js ih =>
    obtain ⟨h1, h2⟩ := inPage la n (j * e) f hn ha (hj j (by simp))
    have ht : s.translate (la + BitVec.ofNat 64 (j * e)) access = .ok (inFrame f la + j * e) := by
      unfold State.translate
      rw [h1, hp]
      simp [h2]
    simp [State.elemAddrs, ht, ih fun i hi => hj i (by simp [hi])]

/-! ## Bits of vectors -/

theorem getLsbD_placeElem {w : Nat} (ew j : Nat) (v : BitVec w) (b : Nat) :
    (placeElem ew j v).getLsbD b =
      (decide (b < 512) && decide (j * ew ≤ b) && v.getLsbD (b - j * ew)) := by
  simp only [placeElem, BitVec.getLsbD_shiftLeft, BitVec.getLsbD_setWidth]
  by_cases h1 : b < 512 <;> by_cases h2 : b < j * ew
  · simp [h2]
  · have : b - j * ew < 512 := by omega
    simp [h1, h2, this, Nat.le_of_not_lt h2]
  · simp [h1]
  · simp [h1]

/-- The bits of a merged vector (40_common_semantics.md R93). -/
theorem getLsbD_mergeElems (ew : Nat) (mask : Nat → Bool) (z : Bool) (src old : Vec) (n b : Nat)
    (hew : 0 < ew) :
    (mergeElems ew mask z src old n).getLsbD b =
      (decide (b < n * ew) && decide (b < 512) &&
        if mask (b / ew) then src.getLsbD b else if z then false else old.getLsbD b) := by
  induction n with
  | zero => simp [mergeElems]
  | succ j ih =>
    simp only [mergeElems, BitVec.getLsbD_or, ih, getLsbD_placeElem]
    have hmul : (j + 1) * ew = j * ew + ew := Nat.succ_mul j ew
    by_cases h1 : b < j * ew
    · have h2 : ¬ j * ew ≤ b := by omega
      have h3 : b < (j + 1) * ew := by omega
      simp [h1, h2, h3]
    · by_cases h3 : b < (j + 1) * ew
      · have hd : b / ew = j := by
          have hs : b - j * ew < ew := by omega
          have hb : b = (b - j * ew) + j * ew := by omega
          rw [hb, Nat.add_mul_div_right _ _ hew, Nat.div_eq_of_lt hs, Nat.zero_add]
        have h2 : j * ew ≤ b := by omega
        have h4 : b - j * ew < ew := by omega
        have h5 : j * ew + (b - j * ew) = b := by omega
        rw [hd]
        cases mask j <;> cases z <;>
          simp [h1, h2, h3, h4, h5]
      · have h4 : ¬ b - j * ew < ew := by omega
        cases mask j <;> cases z <;>
          simp [h1, h3, h4, BitVec.getLsbD_extractLsb']

/-- The bits of a loaded vector (20_memory.md R33). -/
theorem getLsbD_loadElems (m : Memory) (e base : Nat) (js : List Nat) (b : Nat) (he : 0 < e) :
    (loadElems m (8 * e) (js.map fun j => (j, base + j * e))).getLsbD b =
      (decide (b / (8 * e) ∈ js) && decide (b < 512) && (m.read (base + b / 8)).getLsbD (b % 8)) := by
  induction js with
  | nil => simp [loadElems]
  | cons j js ih =>
    have hdiv : 8 * e / 8 = e := Nat.mul_div_cancel_left e (by omega)
    simp only [List.map_cons, loadElems, BitVec.getLsbD_or, ih, getLsbD_placeElem, hdiv,
      getLsbD_readLE]
    have hje : j * (8 * e) = 8 * (j * e) := by ring
    by_cases hj : b / (8 * e) = j
    · have h1 : j * (8 * e) ≤ b := hj ▸ Nat.div_mul_le_self b (8 * e)
      have h2 : b - j * (8 * e) < 8 * e := by
        have := Nat.lt_div_mul_add (a := b) (b := 8 * e) (by omega)
        rw [hj] at this
        omega
      have h3 : base + j * e + (b - j * (8 * e)) / 8 = base + b / 8 := by omega
      have h4 : (b - j * (8 * e)) % 8 = b % 8 := by omega
      by_cases h5 : b < 512 <;> simp [hj, h1, h2, h3, h4, h5]
    · have h0 : ¬ (j * (8 * e) ≤ b ∧ b - j * (8 * e) < 8 * e) := by
        rintro ⟨h1, h2⟩
        apply hj
        have hb : b = (b - j * (8 * e)) + j * (8 * e) := by omega
        rw [hb, Nat.add_mul_div_right _ _ (by omega), Nat.div_eq_of_lt h2, Nat.zero_add]
      by_cases h1 : j * (8 * e) ≤ b
      · have h2 : ¬ b - j * (8 * e) < 8 * e := fun h => h0 ⟨h1, h⟩
        simp [hj, h2]
      · simp [hj, h1]

/-- Memory after elements are stored, byte by byte (20_memory.md R33, 40_common_semantics.md R94). -/
theorem read_storeElems (m : Memory) (e base : Nat) (v : Vec) (js : List Nat) (x : Nat)
    (he : 0 < e) :
    (storeElems m (8 * e) v (js.map fun j => (j, base + j * e))).read x =
      if base ≤ x ∧ (x - base) / e ∈ js then v.extractLsb' (8 * (x - base)) 8 else m.read x := by
  have hdiv : 8 * e / 8 = e := Nat.mul_div_cancel_left e (by omega)
  induction js generalizing m with
  | nil => simp [storeElems]
  | cons j js ih =>
    simp only [List.map_cons, storeElems, ih, hdiv, read_writeBytes, length_bytesLE]
    by_cases h1 : base ≤ x ∧ (x - base) / e ∈ js
    · rw [if_pos h1, if_pos ⟨h1.1, by simp [h1.2]⟩]
    · rw [if_neg h1]
      by_cases h2 : base + j * e ≤ x ∧ x < base + j * e + e
      · have hd : (x - base) / e = j := by
          have hb : x - base = (x - (base + j * e)) + j * e := by omega
          rw [hb, Nat.add_mul_div_right _ _ he, Nat.div_eq_of_lt (by omega), Nat.zero_add]
        rw [if_pos h2, if_pos ⟨by omega, by simp [hd]⟩, bytesLE_getD _ _ _ (by omega)]
        ext i hi
        have h8 : 8 * (x - (base + j * e)) + i < 8 * e := by omega
        have h9 : j * (8 * e) + (8 * (x - (base + j * e)) + i) = 8 * (x - base) + i := by
          have : j * (8 * e) = 8 * (j * e) := by ring
          omega
        simp only [BitVec.getElem_extractLsb', BitVec.getLsbD_extractLsb', h8, h9, decide_true,
          Bool.true_and]
      · rw [if_neg h2, if_neg]
        rintro ⟨hb, hm⟩
        rcases List.mem_cons.mp hm with hm | hm
        · apply h2
          have h3 := Nat.div_mul_le_self (x - base) e
          have h4 := Nat.lt_div_mul_add (a := x - base) he
          rw [hm] at h3 h4
          omega
        · exact h1 ⟨hb, hm⟩

/-- A store of elements keeps the canonical form. -/
theorem wf_storeElems (m : Memory) (ew : Nat) (v : Vec) (ps : List (Nat × Nat)) (h : m.wf = true) :
    (storeElems m ew v ps).wf = true := by
  induction ps generalizing m with
  | nil => exact h
  | cons p ps ih => exact ih _ (wf_writeBytes m _ _ h)

/-- A byte that no listed element covers is not changed by a store. -/
theorem read_storeElems_other (m : Memory) (ew : Nat) (v : Vec) (ps : List (Nat × Nat)) (x : Nat)
    (h : ∀ e ∈ ps, ¬ (e.2 ≤ x ∧ x < e.2 + ew / 8)) :
    (storeElems m ew v ps).read x = m.read x := by
  induction ps generalizing m with
  | nil => rfl
  | cons p ps ih =>
    simp only [storeElems]
    rw [ih _ fun e he => h e (by simp [he]), read_writeBytes, if_neg]
    simpa using h p (by simp)

end Sys2Proof.Machine
end

