-- ==== Sys2Proof/Laws/PerInstr.lean ====
section
/-! SUPPORT. Facts about instructions as syntax, one lemma for each constructor. -/

namespace Sys2Proof.Laws

open Sys2Proof.Machine

/-- The bytes of ModRM, SIB and displacement are as many as 30_encoding.md R60 to R62 count. -/
theorem length_modRM (m : ModRM) : m.bytes.length = modRMLen m := by
  obtain ⟨reg, rm⟩ := m
  rcases rm with n | o
  · rfl
  · rcases o with ⟨rm, d⟩ | _ | ⟨_, _, _, d⟩ | _ | ⟨rm, d⟩ | _
    · cases d <;> rfl
    · rfl
    · cases d <;> rfl
    · rfl
    · cases d <;> rfl
    · rfl

/-- The length that `rip` advances by is the number of bytes of the encoding (30_encoding.md R68). -/
def LengthIsEncoded.Statement (i : Instr) : Prop := i.move.len = (encode i).length

theorem LengthIsEncoded.movdqaRegRm (p : List Prefix) (m : ModRM) :
    LengthIsEncoded.Statement (.movdqaRegRm p m) := by
  simp [LengthIsEncoded.Statement, Instr.move, Instr.view, View.move, Move.leg, encode, encodeLeg,
    prefixBytes, length_modRM]
  omega

theorem LengthIsEncoded.movdqaRmReg (p : List Prefix) (m : ModRM) :
    LengthIsEncoded.Statement (.movdqaRmReg p m) := by
  simp [LengthIsEncoded.Statement, Instr.move, Instr.view, View.move, Move.leg, encode, encodeLeg,
    prefixBytes, length_modRM]
  omega

theorem LengthIsEncoded.vmovdqaXmmRegRmVex2 (p : List Prefix) (v : Vex2) (m : ModRM) :
    LengthIsEncoded.Statement (.vmovdqaXmmRegRmVex2 p v m) := by
  simp [LengthIsEncoded.Statement, Instr.move, Instr.view, View.move, Move.vex2, encode, encodeVex2,
    prefixBytes, length_modRM]
  omega

theorem LengthIsEncoded.vmovdqaXmmRegRmVex3 (p : List Prefix) (v : Vex3) (m : ModRM) :
    LengthIsEncoded.Statement (.vmovdqaXmmRegRmVex3 p v m) := by
  simp [LengthIsEncoded.Statement, Instr.move, Instr.view, View.move, Move.vex3, encode, encodeVex3,
    prefixBytes, length_modRM]
  omega

theorem LengthIsEncoded.vmovdqaXmmRmRegVex2 (p : List Prefix) (v : Vex2) (m : ModRM) :
    LengthIsEncoded.Statement (.vmovdqaXmmRmRegVex2 p v m) := by
  simp [LengthIsEncoded.Statement, Instr.move, Instr.view, View.move, Move.vex2, encode, encodeVex2,
    prefixBytes, length_modRM]
  omega

theorem LengthIsEncoded.vmovdqaXmmRmRegVex3 (p : List Prefix) (v : Vex3) (m : ModRM) :
    LengthIsEncoded.Statement (.vmovdqaXmmRmRegVex3 p v m) := by
  simp [LengthIsEncoded.Statement, Instr.move, Instr.view, View.move, Move.vex3, encode, encodeVex3,
    prefixBytes, length_modRM]
  omega

theorem LengthIsEncoded.vmovdqaYmmRegRmVex2 (p : List Prefix) (v : Vex2) (m : ModRM) :
    LengthIsEncoded.Statement (.vmovdqaYmmRegRmVex2 p v m) := by
  simp [LengthIsEncoded.Statement, Instr.move, Instr.view, View.move, Move.vex2, encode, encodeVex2,
    prefixBytes, length_modRM]
  omega

theorem LengthIsEncoded.vmovdqaYmmRegRmVex3 (p : List Prefix) (v : Vex3) (m : ModRM) :
    LengthIsEncoded.Statement (.vmovdqaYmmRegRmVex3 p v m) := by
  simp [LengthIsEncoded.Statement, Instr.move, Instr.view, View.move, Move.vex3, encode, encodeVex3,
    prefixBytes, length_modRM]
  omega

theorem LengthIsEncoded.vmovdqaYmmRmRegVex2 (p : List Prefix) (v : Vex2) (m : ModRM) :
    LengthIsEncoded.Statement (.vmovdqaYmmRmRegVex2 p v m) := by
  simp [LengthIsEncoded.Statement, Instr.move, Instr.view, View.move, Move.vex2, encode, encodeVex2,
    prefixBytes, length_modRM]
  omega

theorem LengthIsEncoded.vmovdqaYmmRmRegVex3 (p : List Prefix) (v : Vex3) (m : ModRM) :
    LengthIsEncoded.Statement (.vmovdqaYmmRmRegVex3 p v m) := by
  simp [LengthIsEncoded.Statement, Instr.move, Instr.view, View.move, Move.vex3, encode, encodeVex3,
    prefixBytes, length_modRM]
  omega

theorem LengthIsEncoded.vmovdqa32XmmRegRm (p : List Prefix) (e : Evex) (m : ModRM) :
    LengthIsEncoded.Statement (.vmovdqa32XmmRegRm p e m) := by
  simp [LengthIsEncoded.Statement, Instr.move, Instr.view, View.move, Move.evex, encode, encodeEvex,
    prefixBytes, length_modRM]
  omega

theorem LengthIsEncoded.vmovdqa32YmmRegRm (p : List Prefix) (e : Evex) (m : ModRM) :
    LengthIsEncoded.Statement (.vmovdqa32YmmRegRm p e m) := by
  simp [LengthIsEncoded.Statement, Instr.move, Instr.view, View.move, Move.evex, encode, encodeEvex,
    prefixBytes, length_modRM]
  omega

theorem LengthIsEncoded.vmovdqa32ZmmRegRm (p : List Prefix) (e : Evex) (m : ModRM) :
    LengthIsEncoded.Statement (.vmovdqa32ZmmRegRm p e m) := by
  simp [LengthIsEncoded.Statement, Instr.move, Instr.view, View.move, Move.evex, encode, encodeEvex,
    prefixBytes, length_modRM]
  omega

theorem LengthIsEncoded.vmovdqa32XmmRmReg (p : List Prefix) (e : Evex) (m : ModRM) :
    LengthIsEncoded.Statement (.vmovdqa32XmmRmReg p e m) := by
  simp [LengthIsEncoded.Statement, Instr.move, Instr.view, View.move, Move.evex, encode, encodeEvex,
    prefixBytes, length_modRM]
  omega

theorem LengthIsEncoded.vmovdqa32YmmRmReg (p : List Prefix) (e : Evex) (m : ModRM) :
    LengthIsEncoded.Statement (.vmovdqa32YmmRmReg p e m) := by
  simp [LengthIsEncoded.Statement, Instr.move, Instr.view, View.move, Move.evex, encode, encodeEvex,
    prefixBytes, length_modRM]
  omega

theorem LengthIsEncoded.vmovdqa32ZmmRmReg (p : List Prefix) (e : Evex) (m : ModRM) :
    LengthIsEncoded.Statement (.vmovdqa32ZmmRmReg p e m) := by
  simp [LengthIsEncoded.Statement, Instr.move, Instr.view, View.move, Move.evex, encode, encodeEvex,
    prefixBytes, length_modRM]
  omega

theorem LengthIsEncoded.vmovdqa64XmmRegRm (p : List Prefix) (e : Evex) (m : ModRM) :
    LengthIsEncoded.Statement (.vmovdqa64XmmRegRm p e m) := by
  simp [LengthIsEncoded.Statement, Instr.move, Instr.view, View.move, Move.evex, encode, encodeEvex,
    prefixBytes, length_modRM]
  omega

theorem LengthIsEncoded.vmovdqa64YmmRegRm (p : List Prefix) (e : Evex) (m : ModRM) :
    LengthIsEncoded.Statement (.vmovdqa64YmmRegRm p e m) := by
  simp [LengthIsEncoded.Statement, Instr.move, Instr.view, View.move, Move.evex, encode, encodeEvex,
    prefixBytes, length_modRM]
  omega

theorem LengthIsEncoded.vmovdqa64ZmmRegRm (p : List Prefix) (e : Evex) (m : ModRM) :
    LengthIsEncoded.Statement (.vmovdqa64ZmmRegRm p e m) := by
  simp [LengthIsEncoded.Statement, Instr.move, Instr.view, View.move, Move.evex, encode, encodeEvex,
    prefixBytes, length_modRM]
  omega

theorem LengthIsEncoded.vmovdqa64XmmRmReg (p : List Prefix) (e : Evex) (m : ModRM) :
    LengthIsEncoded.Statement (.vmovdqa64XmmRmReg p e m) := by
  simp [LengthIsEncoded.Statement, Instr.move, Instr.view, View.move, Move.evex, encode, encodeEvex,
    prefixBytes, length_modRM]
  omega

theorem LengthIsEncoded.vmovdqa64YmmRmReg (p : List Prefix) (e : Evex) (m : ModRM) :
    LengthIsEncoded.Statement (.vmovdqa64YmmRmReg p e m) := by
  simp [LengthIsEncoded.Statement, Instr.move, Instr.view, View.move, Move.evex, encode, encodeEvex,
    prefixBytes, length_modRM]
  omega

theorem LengthIsEncoded.vmovdqa64ZmmRmReg (p : List Prefix) (e : Evex) (m : ModRM) :
    LengthIsEncoded.Statement (.vmovdqa64ZmmRmReg p e m) := by
  simp [LengthIsEncoded.Statement, Instr.move, Instr.view, View.move, Move.evex, encode, encodeEvex,
    prefixBytes, length_modRM]
  omega

/-- The length that `rip` advances by, for every instruction. -/
theorem move_len (i : Instr) : i.move.len = (encode i).length := by
  cases i
  · exact LengthIsEncoded.movdqaRegRm ..
  · exact LengthIsEncoded.movdqaRmReg ..
  · exact LengthIsEncoded.vmovdqaXmmRegRmVex2 ..
  · exact LengthIsEncoded.vmovdqaXmmRegRmVex3 ..
  · exact LengthIsEncoded.vmovdqaXmmRmRegVex2 ..
  · exact LengthIsEncoded.vmovdqaXmmRmRegVex3 ..
  · exact LengthIsEncoded.vmovdqaYmmRegRmVex2 ..
  · exact LengthIsEncoded.vmovdqaYmmRegRmVex3 ..
  · exact LengthIsEncoded.vmovdqaYmmRmRegVex2 ..
  · exact LengthIsEncoded.vmovdqaYmmRmRegVex3 ..
  · exact LengthIsEncoded.vmovdqa32XmmRegRm ..
  · exact LengthIsEncoded.vmovdqa32YmmRegRm ..
  · exact LengthIsEncoded.vmovdqa32ZmmRegRm ..
  · exact LengthIsEncoded.vmovdqa32XmmRmReg ..
  · exact LengthIsEncoded.vmovdqa32YmmRmReg ..
  · exact LengthIsEncoded.vmovdqa32ZmmRmReg ..
  · exact LengthIsEncoded.vmovdqa64XmmRegRm ..
  · exact LengthIsEncoded.vmovdqa64YmmRegRm ..
  · exact LengthIsEncoded.vmovdqa64ZmmRegRm ..
  · exact LengthIsEncoded.vmovdqa64XmmRmReg ..
  · exact LengthIsEncoded.vmovdqa64YmmRmReg ..
  · exact LengthIsEncoded.vmovdqa64ZmmRmReg ..

end Sys2Proof.Laws
end

