-- ==== Sys2Proof/Laws/Exec.lean ====
section
/-! SUPPORT. What the shared operations and the meanings can do: each said once. -/

namespace Sys2Proof.Machine

open Sys2Proof.Laws (move_len)

/-! ## Exceptions and stops -/

/-- Taking an exception is always a fault, with the record of 60_exceptions.md R175. -/
theorem raise_eq (c : Cause) (s : State) :
    raise c s = .fault (.exception c c.vector c.errorCode s.rip c.cr2) := rfl

theorem raise_ne_next (c : Cause) (s t : State) : raise c s ≠ .next t := nofun

theorem raise_ne_refused (c : Cause) (s : State) (r : Refusal) : raise c s ≠ .refused r := nofun

theorem outcome_ne_next (st : Stop) (s t : State) : st.outcome s ≠ .next t := by
  cases st <;> nofun

/-! ## The checks -/

/-- The checks of decoding and enablement pass exactly when none of their lines holds. -/
theorem decodeFault_none (mv : Move) (s : State) :
    mv.decodeFault s = none ↔
      mv.len ≤ 15 ∧ mv.vvvvOk = true ∧ mv.encOk = true ∧ s.enabled mv.fam mv.vl = true ∧
        s.cr0TS = false := by
  unfold Move.decodeFault maxInstrBytes
  cases mv.vvvvOk <;> cases mv.encOk <;> cases s.enabled mv.fam mv.vl <;> cases s.cr0TS <;>
    by_cases h : 15 < mv.len <;> (simp [h]; try omega)

/-- When a memory operand has an address: its segment-level checks pass, it is aligned, and the address is
its linear address. -/
theorem operandAddr_ok (mv : Move) (s : State) (o : MemOp) (access : Access) (la : Word64) :
    mv.operandAddr s o access = .ok la ↔
      mv.segFault s o access = none ∧ mv.vl.bytes ∣ (mv.linear s o).toNat ∧ la = mv.linear s o := by
  unfold Move.operandAddr Move.misaligned
  cases h : mv.segFault s o access with
  | some c => simp
  | none =>
    by_cases hd : mv.vl.bytes ∣ (mv.linear s o).toNat
    · simp [hd, Nat.mod_eq_zero_of_dvd hd, eq_comm]
    · have : (mv.linear s o).toNat % mv.vl.bytes ≠ 0 := fun e => hd (Nat.dvd_of_mod_eq_zero e)
      simp [hd, this]

/-- What a load reads, if it reads: the enabled elements, at their own translations. -/
theorem loadOperand_ok (mv : Move) (s : State) (o : MemOp) (v : Vec)
    (h : mv.loadOperand s o = .ok v) :
    ∃ la ps, mv.operandAddr s o .read = .ok la ∧
      s.elemAddrs .read la (mv.ew / 8) (mv.enabledElems s) = .ok ps ∧
      v = loadElems s.mem mv.ew ps := by
  unfold Move.loadOperand at h
  split at h
  · cases h
  · rename_i la hla
    split at h
    · cases h
    · rename_i ps hps
      cases h
      exact ⟨la, ps, hla, hps, rfl⟩

/-- What a store writes, if it writes: the enabled elements, at their own translations, none of them
program text. -/
theorem storeOperand_ok (mv : Move) (s : State) (o : MemOp) (v : Vec) (m : Memory)
    (h : mv.storeOperand s o v = .ok m) :
    ∃ la ps, mv.operandAddr s o .write = .ok la ∧
      s.elemAddrs .write la (mv.ew / 8) (mv.enabledElems s) = .ok ps ∧
      s.touchesText (mv.ew / 8) ps = false ∧ m = storeElems s.mem mv.ew v ps := by
  unfold Move.storeOperand at h
  split at h
  · cases h
  · rename_i la hla
    split at h
    · cases h
    · rename_i ps hps
      split at h
      · cases h
      · rename_i ht
        cases h
        exact ⟨la, ps, hla, hps, by simpa using ht, rfl⟩

/-- A store that succeeds leaves every byte of program text as it is (20_memory.md R49). -/
theorem storeOperand_text (mv : Move) (s : State) (o : MemOp) (v : Vec) (m : Memory) (a : Nat)
    (h : mv.storeOperand s o v = .ok m) (ha : s.isText a = true) : m.read a = s.mem.read a := by
  obtain ⟨la, ps, -, -, ht, rfl⟩ := storeOperand_ok mv s o v m h
  apply read_storeElems_other
  rintro e he ⟨h1, h2⟩
  have : s.touchesText (mv.ew / 8) ps = true := by
    simp only [State.touchesText, List.any_eq_true, List.mem_range]
    exact ⟨e, he, a - e.2, by omega, by rwa [Nat.add_sub_cancel' h1]⟩
  simp [this] at ht

/-- A store that succeeds keeps the canonical form of memory. -/
theorem storeOperand_wf (mv : Move) (s : State) (o : MemOp) (v : Vec) (m : Memory)
    (h : mv.storeOperand s o v = .ok m) (hw : s.mem.wf = true) : m.wf = true := by
  obtain ⟨la, ps, -, -, -, rfl⟩ := storeOperand_ok mv s o v m h
  exact wf_storeElems _ _ _ _ hw

/-! ## The data movement -/

/-- What opcode `6F` does, if it completes: the checks passed, and the destination register takes the
register source or the loaded operand. -/
theorem toReg_next (mv : Move) (s t : State) (h : mv.toReg s = .next t) :
    mv.decodeFault s = none ∧
      ((∃ n, mv.rm = .reg n ∧ t = mv.writeReg s mv.regNum (s.zmmAt (mv.rmNum n))) ∨
        ∃ o v, mv.rm = .mem o ∧ mv.loadOperand s o = .ok v ∧ t = mv.writeReg s mv.regNum v) := by
  unfold Move.toReg at h
  split at h
  · cases h
  · rename_i hd
    refine ⟨hd, ?_⟩
    split at h
    · rename_i n hn
      cases h
      exact .inl ⟨n, hn, rfl⟩
    · rename_i o ho
      split at h
      · exact (outcome_ne_next _ _ _ h).elim
      · rename_i v hv
        cases h
        exact .inr ⟨o, v, ho, hv, rfl⟩

/-- What opcode `7F` does, if it completes: the checks passed, and the register or memory destination takes
the register source. -/
theorem toRm_next (mv : Move) (s t : State) (h : mv.toRm s = .next t) :
    mv.decodeFault s = none ∧
      ((∃ n, mv.rm = .reg n ∧ t = mv.writeReg s (mv.rmNum n) (s.zmmAt mv.regNum)) ∨
        ∃ o m, mv.rm = .mem o ∧ mv.storeOperand s o (s.zmmAt mv.regNum) = .ok m ∧
          t = { s with mem := m }.advance mv.len) := by
  unfold Move.toRm at h
  split at h
  · cases h
  · rename_i hd
    refine ⟨hd, ?_⟩
    split at h
    · rename_i n hn
      cases h
      exact .inl ⟨n, hn, rfl⟩
    · rename_i o ho
      split at h
      · exact (outcome_ne_next _ _ _ h).elim
      · rename_i m hm
        cases h
        exact .inr ⟨o, m, ho, hm, rfl⟩

/-- Every meaning is the shared data movement in the direction of its opcode. -/
theorem exec_eq (i : Instr) (s : State) :
    exec i s = if i.view.toRm then i.move.toRm s else i.move.toReg s := by
  cases i <;> rfl

/-- What an instruction does, if it completes: a register destination is written, or memory is; the
instruction pointer goes on by the length of the instruction. -/
theorem exec_next (i : Instr) (s t : State) (h : exec i s = .next t) :
    i.move.decodeFault s = none ∧
      ((∃ d v, t = i.move.writeReg s d v) ∨
        ∃ o m, i.view.toRm = true ∧ i.move.rm = .mem o ∧
          i.move.storeOperand s o (s.zmmAt i.move.regNum) = .ok m ∧
          t = { s with mem := m }.advance i.move.len) := by
  rw [exec_eq] at h
  split at h
  · rename_i hr
    obtain ⟨hd, ⟨n, -, ht⟩ | ⟨o, m, ho, hm, ht⟩⟩ := toRm_next _ _ _ h
    · exact ⟨hd, .inl ⟨_, _, ht⟩⟩
    · exact ⟨hd, .inr ⟨o, m, hr, ho, hm, ht⟩⟩
  · obtain ⟨hd, ⟨n, -, ht⟩ | ⟨o, v, -, -, ht⟩⟩ := toReg_next _ _ _ h
    · exact ⟨hd, .inl ⟨_, _, ht⟩⟩
    · exact ⟨hd, .inl ⟨_, _, ht⟩⟩

/-! ## The new register value -/

/-- The bits of the new value of a destination register (40_common_semantics.md R93, R95). -/
theorem getLsbD_newReg (mv : Move) (s : State) (d : BitVec 5) (src : Vec) (b : Nat)
    (hew : 0 < mv.ew) (hkl : mv.kl * mv.ew = mv.vl.bits) (hb : b < 512) :
    (mv.newReg s d src).getLsbD b =
      if b < mv.vl.bits then
        if mv.maskBit s (b / mv.ew) then src.getLsbD b
        else if mv.z then false else (s.zmmAt d).getLsbD b
      else decide (mv.fam = .sse) && (s.zmmAt d).getLsbD b := by
  have hbits : mv.vl.bits ≤ 512 := by cases mv.vl <;> decide
  unfold Move.newReg
  have hm := getLsbD_mergeElems mv.ew (mv.maskBit s) mv.z src (s.zmmAt d) mv.kl b hew
  rw [hkl] at hm
  cases hf : mv.fam
  · simp only [BitVec.getLsbD_or, hm, BitVec.getLsbD_shiftLeft, BitVec.getLsbD_ushiftRight]
    by_cases h : b < mv.vl.bits
    · simp [h, hb]
    · have : mv.vl.bits + (b - mv.vl.bits) = b := by omega
      simp [h, hb, this]
  · dsimp only
    rw [hm]
    by_cases h : b < mv.vl.bits <;> simp [h, hb]
  · dsimp only
    rw [hm]
    by_cases h : b < mv.vl.bits <;> simp [h, hb]

end Sys2Proof.Machine
end

