-- ==== Sys2Proof/Laws/Step.lean ====
section
/-! SUPPORT. What a fetch and a step can do. -/

namespace Sys2Proof.Machine

/-- What a fetched byte is: text, at the address the instruction pointer translates to. -/
theorem codeByte_ok (s : State) (i : Nat) (b : Byte) (h : s.codeByte i = .ok b) :
    ∃ a, s.codeAddr i = .ok a ∧ s.isText a = true ∧ b = s.mem.read a := by
  unfold State.codeByte at h
  split at h
  · cases h
  · rename_i a ha
    split at h
    · rename_i ht
      cases h
      exact ⟨a, ha, ht, rfl⟩
    · cases h

/-- Every byte of a fetch is a fetched byte. -/
theorem codeBytes_get (s : State) (i n j : Nat) (h : j < (s.codeBytes i n).1.length) :
    s.codeByte (i + j) = .ok (s.codeBytes i n).1[j] := by
  induction n generalizing i j with
  | zero => simp [State.codeBytes] at h
  | succ n ih =>
    cases hb : s.codeByte i with
    | error st => simp [State.codeBytes, hb] at h
    | ok b =>
      have e : (s.codeBytes i (n + 1)).1 = b :: (s.codeBytes (i + 1) n).1 := by
        simp [State.codeBytes, hb]
      simp only [e, List.length_cons] at h ⊢
      cases j with
      | zero => simpa using hb
      | succ j =>
        have := ih (i + 1) j (by omega)
        simpa [Nat.add_assoc, Nat.add_comm 1 j] using this

/-- A fetch begins with the bytes that can be fetched, as far as its window goes. -/
theorem codeBytes_append (s : State) (i n : Nat) (bs : List Byte) (hn : bs.length ≤ n)
    (h : ∀ j (hj : j < bs.length), s.codeByte (i + j) = .ok bs[j]) :
    ∃ rest, (s.codeBytes i n).1 = bs ++ rest := by
  induction bs generalizing i n with
  | nil => exact ⟨_, rfl⟩
  | cons b bs ih =>
    obtain ⟨m, rfl⟩ : ∃ m, n = m + 1 := ⟨n - 1, by simp at hn; omega⟩
    have h0 : s.codeByte i = .ok b := h 0 (by simp)
    obtain ⟨rest, hr⟩ := ih (i + 1) m (by simpa using hn) fun j hj => by
      have := h (j + 1) (by simpa using hj)
      simpa [Nat.add_assoc, Nat.add_comm 1 j] using this
    exact ⟨rest, by simp [State.codeBytes, h0, hr]⟩

/-- Where a fetch ends: at the first byte that stops it, or at the end of its window. -/
theorem codeBytes_end (s : State) (i n : Nat) :
    (∃ k < n, (s.codeBytes i n).1.length = k ∧ s.codeByte (i + k) = .error (s.codeBytes i n).2) ∨
      (s.codeBytes i n).1.length = n := by
  induction n generalizing i with
  | zero => exact .inr rfl
  | succ n ih =>
    unfold State.codeBytes
    cases hb : s.codeByte i with
    | error st => exact .inl ⟨0, by omega, rfl, hb⟩
    | ok b =>
      rcases ih (i + 1) with ⟨k, hk, hl, he⟩ | hl
      · exact .inl ⟨k + 1, by omega, by simp [hl], by rw [← he]; congr 1; omega⟩
      · exact .inr (by simp [hl])

/-- The linear address of byte `i` of an instruction, outside the wrap of the instruction pointer. -/
theorem codeLinear_toNat (s : State) (i : Nat) (la : Word64) (h : s.codeLinear i = .ok la) :
    (s.mode = .mode64 ∧ la.toNat = s.rip.toNat + i) ∨ s.mode ≠ .mode64 ∧
      s.rip.toNat + i < 2 ^ 32 ∧ la.toNat = (s.segs.cs.base.toNat + (s.rip.toNat + i)) % 2 ^ 32 := by
  have h32 (hm : ipBits s.mode ≤ 32) (h : s.codeLinear32 i = .ok la) :
      s.rip.toNat + i < 2 ^ 32 ∧ la.toNat = (s.segs.cs.base.toNat + (s.rip.toNat + i)) % 2 ^ 32 := by
    have hp : 2 ^ ipBits s.mode ≤ 2 ^ 32 := Nat.pow_le_pow_right (by omega) hm
    unfold State.codeLinear32 at h
    dsimp only at h
    split at h
    · cases h
    · split at h
      · cases h
      · cases h
        refine ⟨by omega, ?_⟩
        simp only [BitVec.toNat_setWidth, BitVec.toNat_add, BitVec.toNat_ofNat]
        omega
  unfold State.codeLinear at h
  cases hm : s.mode <;> rw [hm] at h <;> dsimp only at h
  · refine .inl ⟨rfl, ?_⟩
    unfold State.codeLinear64 at h
    split at h
    · cases h
    · dsimp only at h
      split at h
      · cases h
      · split at h
        · cases h
        · cases h
          simp only [BitVec.toNat_add, BitVec.toNat_ofNat]
          omega
  · exact .inr ⟨nofun, h32 (by rw [hm]; decide) h⟩
  · exact .inr ⟨nofun, h32 (by rw [hm]; decide) h⟩

/-- The linear addresses that can hold program text: those of text, and those of pages with a rule. -/
def State.textAddrs (s : State) : List Nat :=
  (s.text.flatMap fun r => List.range' r.start r.size) ++
    s.pageRules.flatMap fun r => List.range' (4096 * r.page.toNat) 4096

theorem length_textAddrs (s : State) : s.textAddrs.length + 1 = s.fetchWindow := by
  simp [State.textAddrs, State.fetchWindow, List.length_flatMap, Nat.mul_comm]

/-- A fetched byte has a linear address, among those that can hold program text. -/
theorem codeByte_linear (s : State) (i : Nat) (b : Byte) (h : s.codeByte i = .ok b) :
    ∃ la, s.codeLinear i = .ok la ∧ la.toNat ∈ s.textAddrs := by
  obtain ⟨a, ha, ht, -⟩ := codeByte_ok s i b h
  unfold State.codeAddr at ha
  split at ha
  · cases ha
  · rename_i la hla
    refine ⟨la, hla, ?_⟩
    simp only [State.textAddrs, List.mem_append, List.mem_flatMap, List.mem_range'_1]
    by_cases hr : ∃ r ∈ s.pageRules, r.page = pageOf la
    · obtain ⟨r, hr, hp⟩ := hr
      have := toNat_pageOf la
      exact .inr ⟨r, hr, by rw [hp]; omega⟩
    · have hn : s.pageAnswer (pageOf la) .read = .frame (pageOf la) := by
        unfold State.pageAnswer
        rw [List.find?_eq_none.2]
        intro r hm
        simp only [Bool.and_eq_true, beq_iff_eq, not_and]
        exact fun e => (hr ⟨r, hm, e.1⟩).elim
      simp only [State.translate, hn] at ha
      cases ha
      simp only [State.isText, List.any_eq_true, Region.contains, Bool.and_eq_true,
        decide_eq_true_eq] at ht
      obtain ⟨r, hr, h0, h1⟩ := ht
      have := inFrame_eq (pageOf la) la
      have := toNat_pageOf la
      exact .inl ⟨r, hr, by omega, by omega⟩

/-- No more bytes can be fetched in a row than the window has before its last one. -/
theorem codeByte_bound (s : State) (n : Nat) (h : ∀ j < n, ∃ b, s.codeByte j = .ok b) :
    n < s.fetchWindow := by
  choose f hf using fun j : Fin n => (h j j.2).elim fun b hb => codeByte_linear s j b hb
  have inj : Function.Injective fun j => (f j).toNat := by
    intro j k e
    have hj := codeLinear_toNat s j _ (hf j).1
    have hk := codeLinear_toNat s k _ (hf k).1
    have : (f j).toNat = (f k).toNat := e
    ext
    rcases hj with ⟨hm, hj⟩ | ⟨hm, hj⟩ <;> rcases hk with ⟨hm', hk⟩ | ⟨hm', hk⟩ <;>
      first | exact (hm' hm).elim | exact (hm hm').elim | omega
  have nodup : (List.ofFn fun j => (f j).toNat).Nodup := List.nodup_ofFn.2 inj
  have sub : (List.ofFn fun j => (f j).toNat) ⊆ s.textAddrs := by
    intro x hx
    obtain ⟨j, rfl⟩ := List.mem_ofFn.1 hx
    exact (hf j).2
  have := (List.subperm_of_subset nodup sub).length_le
  have := length_textAddrs s
  simp only [List.length_ofFn] at *
  omega

/-- A fetch takes every byte up to the first one that stops it, and ends with the reason of that one. -/
theorem fetched_end (s : State) :
    s.codeByte s.fetched.1.length = .error s.fetched.2 ∧
      ∀ j (h : j < s.fetched.1.length), s.codeByte j = .ok s.fetched.1[j] := by
  have get : ∀ j (h : j < s.fetched.1.length), s.codeByte j = .ok s.fetched.1[j] := by
    intro j h
    have hg := codeBytes_get s 0 s.fetchWindow j h
    rw [Nat.zero_add] at hg
    exact hg
  refine ⟨?_, get⟩
  rcases codeBytes_end s 0 s.fetchWindow with ⟨k, -, rfl, he⟩ | hl
  · rw [Nat.zero_add] at he
    exact he
  · have := codeByte_bound s s.fetched.1.length fun j h => ⟨_, get j h⟩
    have : s.fetched.1.length = s.fetchWindow := hl
    omega

/-- The only exception that a fetched byte raises. -/
theorem codeByte_exn (s : State) (i : Nat) (c : Cause) (h : s.codeByte i = .error (.exn c)) :
    c = .fetchNonCanonical := by
  have linear (h : s.codeLinear i = .error (.exn c)) : c = .fetchNonCanonical := by
    unfold State.codeLinear State.codeLinear64 State.codeLinear32 at h
    dsimp only at h
    repeat' split at h
    all_goals cases h
    rfl
  have fetch (st : Stop) : fetchStop st ≠ .exn c := by cases st <;> nofun
  unfold State.codeByte at h
  split at h
  · rename_i st hst
    cases h
    unfold State.codeAddr at hst
    split at hst
    · rename_i hl
      cases hst
      exact linear hl
    · split at hst
      · rename_i st' _
        exact (fetch st' (by injection hst)).elim
      · cases hst
  · split at h <;> cases h

/-- What a step does, if it completes: it runs the instruction that the bytes at the instruction pointer
decode to. -/
theorem step_next (s t : State) (h : step s = .next t) :
    ∃ i, decode s.mode s.fetched.1 = .instr i ∧ exec i s = .next t := by
  unfold step at h
  split at h
  · rename_i i hi
    refine ⟨i, ?_, h⟩
    unfold State.fetchInstr at hi
    split at hi
    · rename_i j hj
      cases hi
      exact hj
    · cases hi
    · cases hi
    · cases hi
  · exact (outcome_ne_next _ _ _ h).elim

end Sys2Proof.Machine
end

