-- ==== Sys2Proof/Laws/View.lean ====
section
/-! SUPPORT. The words of the claims (`Instr.view`, `Executes`) against the words of the meanings
(`Instr.move`, the checks). -/

namespace Sys2Proof.Laws

open Sys2Proof.Machine

/-! ## Fields -/

theorem move_rm (i : Instr) : i.move.rm = i.view.m.rm := by cases i <;> rfl
theorem move_vl (i : Instr) : i.move.vl = i.view.vl := by cases i <;> rfl
theorem move_ew (i : Instr) : i.move.ew = i.view.ew := by cases i <;> rfl
theorem move_z (i : Instr) : i.move.z = i.view.zeroing := by cases i <;> rfl
theorem move_pfx (i : Instr) : i.move.pfx = i.view.pfx := by cases i <;> rfl
theorem move_kl (i : Instr) : i.move.kl = i.view.vl.bits / i.view.ew := by cases i <;> rfl

theorem move_maskBit (i : Instr) (s : State) (j : Nat) : i.move.maskBit s j = i.view.mask s j := by
  cases i <;> simp [Instr.move, Instr.view, View.move, Move.maskBit, View.mask, Move.leg, Move.vex2,
    Move.vex3, Move.evex]

/-! ## Sizes -/

/-- The vector lengths and element widths that rows have: `VL` whole where there is no masking, else 32 or
64 bits (00_scope.md R4, 30_encoding.md R78). -/
def rowShapes : List (VecLen × Nat) :=
  [(.v128, 128), (.v256, 256)] ++ [32, 64].flatMap fun e => [(.v128, e), (.v256, e), (.v512, e)]

theorem view_shape (i : Instr) : (i.view.vl, i.view.ew) ∈ rowShapes := by
  cases i <;> simp [Instr.view, rowShapes]

/-- Elements are whole bytes and fill the vector (00_scope.md R4). -/
theorem view_sizes (i : Instr) :
    ∃ e, i.view.ew = 8 * e ∧ 0 < e ∧ e ≤ i.view.vl.bytes ∧
      i.view.vl.bits / i.view.ew * e = i.view.vl.bytes ∧
      i.view.vl.bits / i.view.ew * i.view.ew = i.view.vl.bits := by
  have whole : ∀ p ∈ rowShapes, p.2 = 8 * (p.2 / 8) ∧ 0 < p.2 / 8 ∧ p.2 / 8 ≤ p.1.bytes ∧
      p.1.bits / p.2 * (p.2 / 8) = p.1.bytes ∧ p.1.bits / p.2 * p.2 = p.1.bits := by decide
  exact ⟨i.view.ew / 8, whole _ (view_shape i)⟩

theorem bits_eq_bytes (v : VecLen) : v.bits = 8 * v.bytes := by cases v <;> rfl
theorem bytes_dvd_page (v : VecLen) : v.bytes ∣ 4096 := by cases v <;> decide
theorem bytes_pos (v : VecLen) : 0 < v.bytes := by cases v <;> decide
theorem bits_le (v : VecLen) : v.bits ≤ 512 := by cases v <;> decide

/-! ## Checks -/

theorem beforeVex_iff (p : List Prefix) : p.all Prefix.beforeVex = true ↔ OnlySegOrAddr p := by
  simp only [List.all_eq_true, OnlySegOrAddr]
  constructor <;> intro h q hq <;> have := h q hq <;> cases q <;> simp_all [Prefix.beforeVex]

theorem vvvvOk_iff (i : Instr) : i.move.vvvvOk = true ↔ i.view.vvvvOk := by
  cases i <;> simp [Instr.move, Instr.view, View.move, View.vvvvOk, Move.leg, Move.vex2, Move.vex3,
    Move.evex]

theorem evexLegal_iff (toRm : Bool) (p : List Prefix) (e : Evex) (m : ModRM) :
    evexLegal toRm p e m = true ↔
      OnlySegOrAddr p ∧ e.p0Reserved = 0 ∧ e.p1Fixed = true ∧ e.b = false ∧ e.v2Bar = true ∧
        (e.z = true → e.aaa ≠ 0) ∧ (e.z = true → toRm = true → ∃ n, m.rm = .reg n) := by
  unfold evexLegal
  rw [← beforeVex_iff]
  generalize p.all Prefix.beforeVex = q
  obtain ⟨reg, rm⟩ := m
  obtain ⟨_, _, _, _, _, _, _, z, _, _, _⟩ := e
  cases rm <;> cases q <;> cases z <;> cases toRm <;> simp [and_assoc]

theorem encOk_iff (i : Instr) : i.move.encOk = true ↔ i.view.legal := by
  unfold Instr.move
  generalize i.view = w
  obtain ⟨fmt, vl, ew, toRm, p, m⟩ := w
  cases fmt with
  | leg => show (!p.contains .lock) = true ↔ Prefix.lock ∉ p; simp
  | vex2 v => exact beforeVex_iff p
  | vex3 v => exact beforeVex_iff p
  | evex e => exact evexLegal_iff toRm p e m

theorem vexMode_iff (s : State) : s.vexMode = true ↔ NotRealNorV86 s := by
  unfold State.vexMode State.opMode State.eferLMA State.cr0PE State.flagVM NotRealNorV86
  generalize s.efer.getLsbD 10 = lma, s.cr0.getLsbD 0 = pe, s.rflags.getLsbD 17 = vm, s.csL = l
  revert lma pe vm l
  decide

theorem enabled_iff (i : Instr) (s : State) :
    s.enabled i.move.fam i.move.vl = true ↔ i.view.ready s := by
  cases i <;> simp [Instr.move, Instr.view, View.move, View.ready, Move.leg, Move.vex2, Move.vex3,
    Move.evex, State.enabled, cpuidHas, VexStateOn, State.cr0EM, State.cr4OSFXSR, State.cr4OSXSAVE,
    vexMode_iff, and_assoc] <;> tauto

/-- The checks of decoding and enablement pass exactly when the instruction executes. -/
theorem decodeFault_none_iff (i : Instr) (s : State) :
    i.move.decodeFault s = none ↔ Executes i s := by
  rw [decodeFault_none, vvvvOk_iff, encOk_iff, enabled_iff, move_len]
  rfl

theorem canonical_iff (s : State) (la : Word64) :
    s.canonical la = true ↔
      la.toNat < 2 ^ (s.law - 1) ∨ 2 ^ 64 - 2 ^ (s.law - 1) ≤ la.toNat := by
  simp [State.canonical]

/-- The bytes between two canonical ends of an operand are canonical. -/
theorem canonical_between (s : State) (la : Word64) (n k : Nat) (hn : n ≤ 64) (hk : k < n)
    (h0 : s.canonical la = true) (h1 : s.canonical (la + BitVec.ofNat 64 (n - 1)) = true) :
    s.canonical (la + BitVec.ofNat 64 k) = true := by
  rw [canonical_iff] at *
  have hl : 2 ^ (s.law - 1) = 140737488355328 ∨ 2 ^ (s.law - 1) = 72057594037927936 := by
    unfold State.law
    split <;> simp
  generalize 2 ^ (s.law - 1) = m at *
  simp only [BitVec.toNat_add, BitVec.toNat_ofNat] at *
  have := la.isLt
  omega

theorem real_iff (s : State) :
    s.opMode = .real ↔ s.efer.getLsbD 10 = false ∧ s.cr0.getLsbD 0 = false := by
  unfold State.opMode State.eferLMA State.cr0PE State.flagVM
  generalize s.efer.getLsbD 10 = lma, s.cr0.getLsbD 0 = pe, s.rflags.getLsbD 17 = vm, s.csL = l
  revert lma pe vm l
  decide

/-- The segment-level checks pass exactly when the segment allows the access. -/
theorem segFault_none_iff (i : Instr) (s : State) (o : MemOp) (access : Access) :
    i.move.segFault s o access = none ↔ SegmentAllows i s o access := by
  have hb := bytes_pos i.view.vl
  have hn : i.view.vl.bytes ≤ 64 := by cases i.view.vl <;> decide
  have hbound (x m : Nat) :
      (∀ k < i.view.vl.bytes, x + k ≤ m) ↔ ¬ m < x + (i.view.vl.bytes - 1) :=
    ⟨fun h => by have := h (i.view.vl.bytes - 1) (by omega); omega, fun h k hk => by omega⟩
  unfold Move.segFault SegmentAllows
  rw [move_vl]
  simp only [hbound, Segment.forbids, ← and_imp (a := s.efer.getLsbD 10 = false), ← real_iff]
  cases hm : s.mode
  · simp only [ne_eq, not_true_eq_false, false_imp_iff, and_true, true_imp_iff]
    constructor
    · intro h k hk
      split at h
      · rename_i hc
        rw [Bool.and_eq_true] at hc
        exact canonical_between s _ _ k hn hk hc.1 hc.2
      · cases h
    · intro h
      have h0 := h 0 hb
      have h1 := h (i.view.vl.bytes - 1) (by omega)
      simp at h0
      simp [h0, h1]
  all_goals
    generalize s.segs.get (i.move.seg s o) = g
    obtain ⟨_, limit, null, rd, wr⟩ := g
    by_cases h1 : limit.toNat < (i.move.effAddr s o).toNat + (i.view.vl.bytes - 1) <;>
      by_cases h2 : s.opMode = .real <;>
        by_cases h3 : 65535 < (i.move.effAddr s o).toNat + (i.view.vl.bytes - 1) <;>
          cases null <;> cases rd <;> cases wr <;> cases access <;> simp [h1, h2, h3]

/-- A memory operand that passes its checks has its linear address. -/
theorem operandAddr_of_ok (i : Instr) (s : State) (o : MemOp) (access : Access)
    (h : OperandOk i s o access) : i.move.operandAddr s o access = .ok (i.move.linear s o) := by
  rw [operandAddr_ok, segFault_none_iff, move_vl]
  exact ⟨h.1, h.2, rfl⟩

/-- What an instruction that executes does with a register operand. -/
theorem exec_reg (i : Instr) (s : State) (n : BitVec 3) (he : Executes i s)
    (hm : i.view.m.rm = .reg n) :
    exec i s = .next (if i.view.toRm then i.move.writeReg s (i.move.rmNum n) (s.zmmAt i.move.regNum)
      else i.move.writeReg s i.move.regNum (s.zmmAt (i.move.rmNum n))) := by
  have hd := (decodeFault_none_iff i s).2 he
  rw [← move_rm] at hm
  rw [exec_eq]
  split
  · unfold Move.toRm; rw [hd, hm]
  · unfold Move.toReg; rw [hd, hm]

/-- What a load form that executes does. -/
theorem exec_load (i : Instr) (s : State) (o : MemOp) (he : Executes i s) (hm : i.view.m.rm = .mem o)
    (ht : i.view.toRm = false) :
    exec i s = match i.move.loadOperand s o with
      | .error st => st.outcome s
      | .ok v => .next (i.move.writeReg s i.move.regNum v) := by
  have hd := (decodeFault_none_iff i s).2 he
  rw [← move_rm] at hm
  rw [exec_eq, ht]
  simp only [Bool.false_eq_true, if_false]
  unfold Move.toReg
  cases h : i.move.loadOperand s o <;> simp only [hd, hm, h]

/-- What a store form that executes does. -/
theorem exec_store (i : Instr) (s : State) (o : MemOp) (he : Executes i s) (hm : i.view.m.rm = .mem o)
    (ht : i.view.toRm = true) :
    exec i s = match i.move.storeOperand s o (s.zmmAt i.move.regNum) with
      | .error st => st.outcome s
      | .ok m => .next ({ s with mem := m }.advance i.move.len) := by
  have hd := (decodeFault_none_iff i s).2 he
  rw [← move_rm] at hm
  rw [exec_eq, ht]
  simp only [if_true]
  unfold Move.toRm
  cases h : i.move.storeOperand s o (s.zmmAt i.move.regNum) <;> simp only [hd, hm, h]

end Sys2Proof.Laws
end

