-- ==== Sys2Proof/Tests/Slice0.lean ====
section
/-! SUPPORT. Tests: ill-formed terms that WellFormed refuses, words written out from the spec's layouts,
single steps from the spec's own vectors (95_test_vectors.md, named T100 to T16E), and a witness for the
hypotheses of every statement. -/

namespace Sys2Proof.Tests

-- Some ninety kernel evaluations at once would ask for more stacks than the memory limit allows.
set_option Elab.async false

open Sys2Proof Sys2Proof.Machine Sys2Proof.Laws

/-! ## WellFormed refuses -/

/-- A register operand, and a memory operand at RSI and at RDI. -/
def mReg : ModRM := ⟨1, .reg 2⟩
def mRsi : ModRM := ⟨1, .mem (.base 6 .none)⟩
def mRdi : ModRM := ⟨1, .mem (.base 7 .none)⟩
/-- Prefix payloads without extensions, `vvvv` = 1111, no mask. -/
def v2 : Vex2 := ⟨true, 15⟩
def v3 : Vex3 := ⟨true, true, true, false, 15⟩
def ev : Evex := ⟨true, true, true, true, 0, 15, true, false, false, true, 0⟩

theorem test_wf_rex_outside_mode64 :
    (Instr.movdqaRegRm [.opsize, .rex 8] mReg).wf .mode64 = true ∧
    (Instr.movdqaRegRm [.opsize, .rex 8] mReg).wf .mode32 = false := by decide
theorem test_wf_mandatory_prefix :
    (Instr.movdqaRegRm [] mReg).wf .mode64 = false ∧
    (Instr.movdqaRmReg [.opsize, .rep] mReg).wf .mode64 = false ∧
    (Instr.movdqaRmReg [.repne, .opsize] mReg).wf .mode64 = false := by decide
theorem test_wf_operand32 :
    MemOp.wf false (.base 4 .none) = false ∧ MemOp.wf false (.base 5 .none) = false ∧
    MemOp.wf false (.base 5 (.d8 0)) = true ∧ MemOp.wf false (.sib 0 1 5 .none) = false ∧
    MemOp.wf false (.base16 0 .none) = false ∧ MemOp.wf false (.abs16 0) = false := by decide
theorem test_wf_operand16 :
    MemOp.wf true (.base 6 .none) = false ∧ MemOp.wf true (.ripOrAbs 0) = false ∧
    MemOp.wf true (.sib 0 1 2 .none) = false ∧ MemOp.wf true (.sibNoBase 0 1 0) = false ∧
    MemOp.wf true (.base16 6 .none) = false ∧ MemOp.wf true (.base16 6 (.d8 0)) = true := by decide
theorem test_wf_address_size :
    (Instr.movdqaRegRm [.opsize, .addrsize] mRsi).wf .mode32 = false ∧
    (Instr.movdqaRegRm [.opsize] mRsi).wf .mode16 = false ∧
    (Instr.movdqaRegRm [.opsize, .addrsize] mRsi).wf .mode16 = true := by decide
theorem test_wf_vex_outside_mode64 :
    (Instr.vmovdqaXmmRegRmVex2 [] { v2 with rBar := false } mReg).wf .mode32 = false ∧
    (Instr.vmovdqaXmmRegRmVex2 [] { v2 with vvvv := 7 } mReg).wf .mode32 = false ∧
    (Instr.vmovdqaXmmRegRmVex2 [] { v2 with vvvv := 7 } mReg).wf .mode64 = true ∧
    (Instr.vmovdqaXmmRegRmVex3 [] { v3 with xBar := false } mReg).wf .mode32 = false ∧
    (Instr.vmovdqaXmmRegRmVex3 [] { v3 with bBar := false } mReg).wf .mode16 = false := by decide
theorem test_wf_evex_outside_mode64 :
    (Instr.vmovdqa32XmmRegRm [] { ev with r2Bar := false } mReg).wf .mode32 = false ∧
    (Instr.vmovdqa32XmmRegRm [] { ev with v2Bar := false } mReg).wf .mode32 = false ∧
    (Instr.vmovdqa64ZmmRmReg [] { ev with bBar := false } mReg).wf .mode16 = false := by decide

/-! ## Words written out from the layouts (30_encoding.md R52 to R67) -/

/-- `66 0F 6F`, ModRM 11 011 101. -/
theorem test_decode_movdqaRegRm :
    decode .mode64 [0b01100110, 0b00001111, 0b01101111, 0b11_011_101] =
      .instr (.movdqaRegRm [.opsize] ⟨3, .reg 5⟩) := by decide
/-- REX 0100 WRXB = 0101, `7F`, ModRM 01 001 100, SIB 10 001 000, displacement 10H. -/
theorem test_decode_movdqaRmReg :
    decode .mode64 [0x66, 0b0100_0101, 0x0F, 0x7F, 0b01_001_100, 0b10_001_000, 0x10] =
      .instr (.movdqaRmReg [.opsize, .rex 5] ⟨1, .mem (.sib 2 1 0 (.d8 0x10))⟩) := by decide
/-- VEX2 payload R̄ vvvv L pp. -/
theorem test_decode_vex2 :
    decode .mode64 [0xC5, 0b1_1111_0_01, 0x6F, 0b11_010_001] =
      .instr (.vmovdqaXmmRegRmVex2 [] ⟨true, 15⟩ ⟨2, .reg 1⟩) ∧
    decode .mode64 [0xC5, 0b0_1111_0_01, 0x7F, 0b11_010_001] =
      .instr (.vmovdqaXmmRmRegVex2 [] ⟨false, 15⟩ ⟨2, .reg 1⟩) ∧
    decode .mode64 [0xC5, 0b1_0111_1_01, 0x6F, 0b00_010_110] =
      .instr (.vmovdqaYmmRegRmVex2 [] ⟨true, 7⟩ ⟨2, .mem (.base 6 .none)⟩) ∧
    decode .mode64 [0xC5, 0b1_1110_1_01, 0x7F, 0b01_111_110, 0x20] =
      .instr (.vmovdqaYmmRmRegVex2 [] ⟨true, 14⟩ ⟨7, .mem (.base 6 (.d8 0x20))⟩) := by decide
/-- VEX3 payload R̄ X̄ B̄ mmmmm, W vvvv L pp. -/
theorem test_decode_vex3 :
    decode .mode64 [0xC4, 0b111_00001, 0b1_1111_0_01, 0x6F, 0b11_001_010] =
      .instr (.vmovdqaXmmRegRmVex3 [] ⟨true, true, true, true, 15⟩ ⟨1, .reg 2⟩) ∧
    decode .mode64 [0xC4, 0b101_00001, 0b0_1111_0_01, 0x7F, 0b11_001_010] =
      .instr (.vmovdqaXmmRmRegVex3 [] ⟨true, false, true, false, 15⟩ ⟨1, .reg 2⟩) ∧
    decode .mode64 [0xC4, 0b010_00001, 0b0_1111_1_01, 0x6F, 0b00_001_000] =
      .instr (.vmovdqaYmmRegRmVex3 [] ⟨false, true, false, false, 15⟩ ⟨1, .mem (.base 0 .none)⟩) ∧
    decode .mode64 [0xC4, 0b111_00001, 0b0_1011_1_01, 0x7F, 0b00_001_101, 1, 2, 3, 0x84] =
      .instr (.vmovdqaYmmRmRegVex3 [] ⟨true, true, true, false, 11⟩
        ⟨1, .mem (.ripOrAbs 0x84030201)⟩) := by decide
/-- EVEX payload R̄ X̄ B̄ R̄' 00 mm, W vvvv 1 pp, z L'L b V̄' aaa, W = 0. -/
theorem test_decode_evex32 :
    decode .mode64 [0x62, 0b0111_00_01, 0b0_1111_1_01, 0b0_00_0_1_001, 0x6F, 0b11_001_010] =
      .instr (.vmovdqa32XmmRegRm []
        ⟨false, true, true, true, 0, 15, true, false, false, true, 1⟩ ⟨1, .reg 2⟩) ∧
    decode .mode64 [0x62, 0b1111_00_01, 0b0_1111_1_01, 0b1_01_0_1_010, 0x6F, 0b00_000_011] =
      .instr (.vmovdqa32YmmRegRm []
        ⟨true, true, true, true, 0, 15, true, true, false, true, 2⟩ ⟨0, .mem (.base 3 .none)⟩) ∧
    decode .mode64 [0x62, 0b1011_00_01, 0b0_1111_1_01, 0b0_10_1_1_100, 0x6F, 0b11_001_010] =
      .instr (.vmovdqa32ZmmRegRm []
        ⟨true, false, true, true, 0, 15, true, false, true, true, 4⟩ ⟨1, .reg 2⟩) ∧
    decode .mode64 [0x62, 0b1101_00_01, 0b0_1111_1_01, 0b0_00_0_0_000, 0x7F, 0b11_001_010] =
      .instr (.vmovdqa32XmmRmReg []
        ⟨true, true, false, true, 0, 15, true, false, false, false, 0⟩ ⟨1, .reg 2⟩) ∧
    decode .mode64 [0x62, 0b1110_00_01, 0b0_1111_1_01, 0b0_01_0_1_000, 0x7F, 0b11_001_010] =
      .instr (.vmovdqa32YmmRmReg []
        ⟨true, true, true, false, 0, 15, true, false, false, true, 0⟩ ⟨1, .reg 2⟩) ∧
    decode .mode64 [0x62, 0b1111_01_01, 0b0_1111_0_01, 0b0_10_0_1_000, 0x7F, 0b11_001_010] =
      .instr (.vmovdqa32ZmmRmReg []
        ⟨true, true, true, true, 1, 15, false, false, false, true, 0⟩ ⟨1, .reg 2⟩) := by decide
/-- The same with W = 1. -/
theorem test_decode_evex64 :
    decode .mode64 [0x62, 0b1111_00_01, 0b1_1111_1_01, 0b0_00_0_1_010, 0x6F, 0b11_010_001] =
      .instr (.vmovdqa64XmmRegRm [] { ev with aaa := 2 } ⟨2, .reg 1⟩) ∧
    decode .mode64 [0x62, 0b1111_00_01, 0b1_0111_1_01, 0b0_01_0_1_000, 0x6F, 0b11_010_001] =
      .instr (.vmovdqa64YmmRegRm [] { ev with vvvv := 7 } ⟨2, .reg 1⟩) ∧
    decode .mode64 [0x62, 0b1000_00_01, 0b1_1111_1_01, 0b0_10_0_1_000, 0x6F, 0b11_001_110] =
      .instr (.vmovdqa64ZmmRegRm []
        { ev with xBar := false, bBar := false, r2Bar := false } ⟨1, .reg 6⟩) ∧
    decode .mode64 [0x62, 0b1111_00_01, 0b1_1111_1_01, 0b0_00_0_1_000, 0x7F, 0b00_111_111] =
      .instr (.vmovdqa64XmmRmReg [] ev ⟨7, .mem (.base 7 .none)⟩) ∧
    decode .mode64 [0x62, 0b1111_00_01, 0b1_1111_1_01, 0b0_01_0_1_011, 0x7F, 0b01_001_111, 0xFF] =
      .instr (.vmovdqa64YmmRmReg [] { ev with aaa := 3 } ⟨1, .mem (.base 7 (.d8 0xFF))⟩) ∧
    decode .mode64 [0x62, 0b1111_00_01, 0b1_1111_1_01, 0b1_10_0_1_111, 0x7F, 0b11_001_111] =
      .instr (.vmovdqa64ZmmRmReg [] { ev with z := true, aaa := 7 } ⟨1, .reg 7⟩) := by decide
/-- 16-bit addressing (30_encoding.md R67) and a 32-bit operand under `67` in 16-bit code. -/
theorem test_decode_addr16 :
    decode .mode16 [0x66, 0x0F, 0x6F, 0b10_001_110, 0x34, 0x12] =
      .instr (.movdqaRegRm [.opsize] ⟨1, .mem (.base16 6 (.d16 0x1234))⟩) ∧
    decode .mode32 [0x67, 0x66, 0x0F, 0x6F, 0b00_001_110, 0x34, 0x12] =
      .instr (.movdqaRegRm [.addrsize, .opsize] ⟨1, .mem (.abs16 0x1234)⟩) ∧
    decode .mode16 [0x67, 0x66, 0x0F, 0x6F, 0b00_001_100, 0b11_100_101, 4, 3, 2, 1] =
      .instr (.movdqaRegRm [.addrsize, .opsize] ⟨1, .mem (.sibNoBase 3 4 0x01020304)⟩) := by decide
/-- Outside 64-bit mode `40` is no REX and `C5`, `62` with a clear extension bit are other instructions
(30_encoding.md R53, R59). -/
theorem test_decode_mode32 :
    decode .mode32 [0x66, 0x48, 0x0F, 0x6F, 0xC1] = .notInScope ∧
    decode .mode32 [0xC5, 0b0_1111_0_01, 0x6F, 0xC1] = .notInScope ∧
    decode .mode32 [0x62, 0b0111_00_01, 0b0_1111_1_01, 0b0_00_0_1_000, 0x6F, 0xC1] = .notInScope ∧
    decode .mode32 [0xC5, 0b1_1111_0_01, 0x6F, 0xC1] =
      .instr (.vmovdqaXmmRegRmVex2 [] v2 ⟨0, .reg 1⟩) := by decide
/-- `mm` = 00 and `L'L` = 11 select no row and raise #UD (30_encoding.md R73, R78). -/
theorem test_decode_illegal :
    decode .mode64 [0x62, 0b1111_00_00, 0b0_1111_1_01, 0b0_10_0_1_000, 0x6F, 0xC1] = .illegal 6 ∧
    decode .mode64 [0x62, 0b1111_00_01, 0b0_1111_1_01, 0b0_11_0_1_000, 0x6F, 0x40, 1] =
      .illegal 7 := by decide
/-- Words of the opcode table, whose LEG rows begin after `66`, first byte most significant. -/
theorem test_decodeTableWord :
    decodeTableWord 24 0x0F6F0E = some (.movdqaRegRm [.opsize] mRsi) ∧
    decodeTableWord 32 0xC5F97FD1 = some (.vmovdqaXmmRmRegVex2 [] v2 ⟨2, .reg 1⟩) ∧
    decodeTableWord 48 0x62F1FD486F0E = some (.vmovdqa64ZmmRegRm [] ev mRsi) := by decide

/-! ## Single steps (95_test_vectors.md) -/

/-- `n` bytes from an address on: `f` of the offset. -/
def block (a n : Nat) (f : Nat → Nat) : Memory :=
  (List.range n).map fun i => (a + i, BitVec.ofNat 8 (f i))

/-- A register whose byte `i` is `b` + `i`. -/
def bytesFrom (b : Nat) : Vec :=
  ((List.range 64).map fun i => BitVec.ofNat 512 ((b + i) <<< (8 * i))).sum

/-- The start state S0 of section 2, with the first 96 and 64 bytes of its two blocks (byte 0 of the
source block is 0 and not listed); the code at `rip` = 400000H. -/
def start (code : List Byte) : State :=
  { State.reset.launch64 with
    rip := 0x400000
    gpr := #v[0x1000, 4, 0, 0x1000, 0x7000, 0x1000, 0x1000, 0x2000, 0x1000, 0, 0, 0, 0, 0, 0, 0]
    k := #v[0, 0xF0, 5, 6, 0, 0, 0, 0xAA]
    zmm := ((Vector.replicate 32 (BitVec.allOnes 512)).set 1 (bytesFrom 0x80)).set 30 (bytesFrom 0x40)
    mem := block 0x1001 95 (· + 1) ++ block 0x2000 64 fun _ => 0xEE }.placeCode 0 code

/-- What `f` says of the next state, if there is one. -/
def after {α : Type} (f : State → α) (o : Host.Outcome State Fault Refusal) : Option α :=
  match o with
  | .next t => some (f t)
  | _ => none

/-- The fault, if the outcome is one. -/
def faultOf (o : Host.Outcome State Fault Refusal) : Option Fault :=
  match o with
  | .fault f => some f
  | _ => none

/-- The refusal, if the outcome is one. -/
def refusalOf (o : Host.Outcome State Fault Refusal) : Option Refusal :=
  match o with
  | .refused r => some r
  | _ => none

theorem test_T105_movdqaRegRm :
    after (fun t => (t.rip, t.zmmAt 9))
      (step (start [0x66, 0x45, 0x0F, 0x6F, 0x4C, 0x88, 0x10])) =
    some (0x400007, 0xFFFFFFFFFFFFFFFFFFFFFFFFFFFFFFFFFFFFFFFFFFFFFFFFFFFFFFFFFFFFFFFFFFFFFFFFFFFFFFFFFFFFFFFFFFFFFFFF2F2E2D2C2B2A29282726252423222120) := by
  decide +kernel
theorem test_T103_movdqaRmReg :
    after (fun t => (t.rip, t.mem.readLE 0x2000 20))
      (step (start [0x66, 0x0F, 0x7F, 0x0F])) =
    some (0x400004, 0xEEEEEEEE8F8E8D8C8B8A89888786858483828180) := by
  decide +kernel
theorem test_T104_movdqaRmReg :
    after (fun t => (t.rip, t.zmmAt 2))
      (step (start [0x66, 0x0F, 0x7F, 0xCA])) =
    some (0x400004, 0xFFFFFFFFFFFFFFFFFFFFFFFFFFFFFFFFFFFFFFFFFFFFFFFFFFFFFFFFFFFFFFFFFFFFFFFFFFFFFFFFFFFFFFFFFFFFFFFF8F8E8D8C8B8A89888786858483828180) := by
  decide +kernel
theorem test_T120_vmovdqaXmmRegRmVex2 :
    after (fun t => (t.rip, t.zmmAt 2))
      (step (start [0xC5, 0xF9, 0x6F, 0xD1])) =
    some (0x400004, 0x8F8E8D8C8B8A89888786858483828180) := by
  decide +kernel
theorem test_T124_vmovdqaXmmRegRmVex2 :
    after (fun t => (t.rip, t.zmmAt 1))
      (step { start [0xC5, 0xF9, 0x6F, 0x0E] with gpr := (start []).gpr.set 6 0x1010 }) =
    some (0x400004, 0x1F1E1D1C1B1A19181716151413121110) := by
  decide +kernel
theorem test_T129_vmovdqaXmmRegRmVex3 :
    after (fun t => (t.rip, t.zmmAt 1))
      (step { start [0xC4, 0xE1, 0xF9, 0x6F, 0xCA] with zmm := (start []).zmm.set 2 0x5F5E5D5C5B5A595857565554535251504F4E4D4C4B4A494847464544434241403F3E3D3C3B3A393837363534333231302F2E2D2C2B2A29282726252423222120 }) =
    some (0x400005, 0x2F2E2D2C2B2A29282726252423222120) := by
  decide +kernel
theorem test_T126_vmovdqaXmmRmRegVex2 :
    after (fun t => (t.rip, t.mem.readLE 0x200C 24))
      (step (start [0xC5, 0xF9, 0x7F, 0x4F, 0x10])) =
    some (0x400005, 0xEEEEEEEE8F8E8D8C8B8A89888786858483828180EEEEEEEE) := by
  decide +kernel
theorem test_T127_vmovdqaXmmRmRegVex2 :
    after (fun t => (t.rip, t.zmmAt 2))
      (step (start [0xC5, 0xF9, 0x7F, 0xCA])) =
    some (0x400004, 0x8F8E8D8C8B8A89888786858483828180) := by
  decide +kernel
theorem test_T122_vmovdqaYmmRegRmVex2 :
    after (fun t => (t.rip, t.zmmAt 1))
      (step (start [0xC5, 0xFD, 0x6F, 0x0E])) =
    some (0x400004, 0x1F1E1D1C1B1A191817161514131211100F0E0D0C0B0A09080706050403020100) := by
  decide +kernel
theorem test_T12A_vmovdqaYmmRegRmVex3 :
    after (fun t => (t.rip, t.zmmAt 9))
      (step (start [0xC4, 0x41, 0x7D, 0x6F, 0x08])) =
    some (0x400005, 0x1F1E1D1C1B1A191817161514131211100F0E0D0C0B0A09080706050403020100) := by
  decide +kernel
theorem test_T125_vmovdqaYmmRmRegVex2 :
    after (fun t => (t.rip, t.mem.readLE 0x2000 36))
      (step (start [0xC5, 0xFD, 0x7F, 0x0F])) =
    some (0x400004, 0xEEEEEEEE9F9E9D9C9B9A999897969594939291908F8E8D8C8B8A89888786858483828180) := by
  decide +kernel
theorem test_T146_vmovdqa32XmmRegRm :
    after (fun t => (t.rip, t.zmmAt 1))
      (step { start [0x62, 0xF1, 0x7D, 0x89, 0x6F, 0x08] with k := (start []).k.set 1 0xFFFFFFFFFFFFFFF5 }) =
    some (0x400006, 0xB0A09080000000003020100) := by
  decide +kernel
theorem test_T147_vmovdqa32YmmRegRm :
    after (fun t => (t.rip, t.zmmAt 1))
      (step (start [0x62, 0xF1, 0x7D, 0x2A, 0x6F, 0x08])) =
    some (0x400006, 0x9F9E9D9C9B9A999897969594939291908F8E8D8C0B0A09088786858403020100) := by
  decide +kernel
theorem test_T141_vmovdqa32ZmmRegRm :
    after (fun t => (t.rip, t.zmmAt 1))
      (step (start [0x62, 0xF1, 0x7D, 0x49, 0x6F, 0x0E])) =
    some (0x400006, 0xBFBEBDBCBBBAB9B8B7B6B5B4B3B2B1B0AFAEADACABAAA9A8A7A6A5A4A3A2A1A01F1E1D1C1B1A191817161514131211108F8E8D8C8B8A89888786858483828180) := by
  decide +kernel
theorem test_T142_vmovdqa32ZmmRegRm :
    after (fun t => (t.rip, t.zmmAt 1))
      (step (start [0x62, 0xF1, 0x7D, 0xC9, 0x6F, 0x0E])) =
    some (0x400006, 0x1F1E1D1C1B1A1918171615141312111000000000000000000000000000000000) := by
  decide +kernel
theorem test_T14A_vmovdqa32XmmRmReg :
    after (fun t => (t.rip, t.mem.readLE 0x2000 20))
      (step { start [0x62, 0xF1, 0x7D, 0x08, 0x7F, 0x48, 0xFF] with gpr := (start []).gpr.set 0 0x2010 }) =
    some (0x400007, 0xEEEEEEEE8F8E8D8C8B8A89888786858483828180) := by
  decide +kernel
theorem test_T149_vmovdqa32YmmRmReg :
    after (fun t => (t.rip, t.mem.readLE 0x201C 36))
      (step { start [0x62, 0xF1, 0x7D, 0x28, 0x7F, 0x48, 0x01] with gpr := (start []).gpr.set 0 0x2000 }) =
    some (0x400007, 0x9F9E9D9C9B9A999897969594939291908F8E8D8C8B8A89888786858483828180EEEEEEEE) := by
  decide +kernel
theorem test_T143_vmovdqa32ZmmRmReg :
    after (fun t => (t.rip, t.mem.readLE 0x2000 64))
      (step (start [0x62, 0xF1, 0x7D, 0x49, 0x7F, 0x0F])) =
    some (0x400006, 0xEEEEEEEEEEEEEEEEEEEEEEEEEEEEEEEEEEEEEEEEEEEEEEEEEEEEEEEEEEEEEEEE9F9E9D9C9B9A99989796959493929190EEEEEEEEEEEEEEEEEEEEEEEEEEEEEEEE) := by
  decide +kernel
theorem test_T14E_vmovdqa32ZmmRmReg :
    after (fun t => (t.rip, t.zmmAt 2))
      (step (start [0x62, 0xF1, 0x7D, 0xC9, 0x7F, 0xCA])) =
    some (0x400006, 0x9F9E9D9C9B9A9998979695949392919000000000000000000000000000000000) := by
  decide +kernel
theorem test_T165_vmovdqa64XmmRegRm :
    after (fun t => (t.rip, t.zmmAt 2))
      (step (start [0x62, 0xF1, 0xFD, 0x0A, 0x6F, 0xD1])) =
    some (0x400006, 0xFFFFFFFFFFFFFFFF8786858483828180) := by
  decide +kernel
theorem test_T164_vmovdqa64YmmRegRm :
    after (fun t => (t.rip, t.zmmAt 2))
      (step { start [0x62, 0xF1, 0xFD, 0x29, 0x6F, 0xD1] with k := (start []).k.set 1 0x9 }) =
    some (0x400006, 0x9F9E9D9C9B9A9998FFFFFFFFFFFFFFFFFFFFFFFFFFFFFFFF8786858483828180) := by
  decide +kernel
theorem test_T16A_vmovdqa64YmmRegRm :
    after (fun t => (t.rip, t.zmmAt 1))
      (step (start [0x62, 0xF1, 0xFD, 0x28, 0x6F, 0x4B, 0x02])) =
    some (0x400007, 0x5F5E5D5C5B5A595857565554535251504F4E4D4C4B4A49484746454443424140) := by
  decide +kernel
theorem test_T162_vmovdqa64ZmmRegRm :
    after (fun t => (t.rip, t.zmmAt 1))
      (step (start [0x62, 0xF1, 0xFD, 0xCF, 0x6F, 0x08])) =
    some (0x400006, 0x3F3E3D3C3B3A393800000000000000002F2E2D2C2B2A292800000000000000001F1E1D1C1B1A191800000000000000000F0E0D0C0B0A09080000000000000000) := by
  decide +kernel
theorem test_T166_vmovdqa64ZmmRegRm :
    after (fun t => (t.rip, t.zmmAt 17))
      (step (start [0x62, 0x81, 0xFD, 0x48, 0x6F, 0xCE])) =
    some (0x400006, 0x7F7E7D7C7B7A797877767574737271706F6E6D6C6B6A696867666564636261605F5E5D5C5B5A595857565554535251504F4E4D4C4B4A49484746454443424140) := by
  decide +kernel
theorem test_T167_vmovdqa64XmmRmReg :
    after (fun t => (t.rip, t.mem.readLE 0x2000 20))
      (step { start [0x62, 0x61, 0xFD, 0x08, 0x7F, 0x3F] with zmm := (start []).zmm.set 31 0x9F9E9D9C9B9A999897969594939291908F8E8D8C8B8A898887868584838281807F7E7D7C7B7A797877767574737271706F6E6D6C6B6A69686766656463626160 }) =
    some (0x400006, 0xEEEEEEEE6F6E6D6C6B6A69686766656463626160) := by
  decide +kernel
theorem test_T163_vmovdqa64YmmRmReg :
    after (fun t => (t.rip, t.mem.readLE 0x2000 32))
      (step (start [0x62, 0xF1, 0xFD, 0x2B, 0x7F, 0x0F])) =
    some (0x400006, 0xEEEEEEEEEEEEEEEE97969594939291908F8E8D8C8B8A8988EEEEEEEEEEEEEEEE) := by
  decide +kernel
theorem test_T16E_vmovdqa64ZmmRmReg :
    after (fun t => (t.rip, t.mem.readLE 0x2000 64))
      (step (start [0x62, 0xF1, 0xFD, 0x4F, 0x7F, 0x0F])) =
    some (0x400006, 0xBFBEBDBCBBBAB9B8EEEEEEEEEEEEEEEEAFAEADACABAAA9A8EEEEEEEEEEEEEEEE9F9E9D9C9B9A9998EEEEEEEEEEEEEEEE8F8E8D8C8B8A8988EEEEEEEEEEEEEEEE) := by
  decide +kernel
theorem test_T101_movdqaRegRm :
    faultOf (step (start [0x66, 0x0F, 0x6F, 0x46, 0x08])) =
    some (.exception .misaligned 13 (some 0) 0x400000 none) := by
  decide +kernel
/-- T127 in the three-byte spelling (30_encoding.md R55). -/
theorem test_vmovdqaXmmRmRegVex3 :
    after (fun t => (t.rip, t.zmmAt 2))
      (step (start [0xC4, 0xE1, 0x79, 0x7F, 0xCA])) =
    some (0x400005, 0x8F8E8D8C8B8A89888786858483828180) := by
  decide +kernel
/-- T125 in the three-byte spelling (30_encoding.md R55). -/
theorem test_vmovdqaYmmRmRegVex3 :
    after (fun t => (t.rip, t.mem.readLE 0x2000 36))
      (step (start [0xC4, 0xE1, 0x7D, 0x7F, 0x0F])) =
    some (0x400005, 0xEEEEEEEE9F9E9D9C9B9A999897969594939291908F8E8D8C8B8A89888786858483828180) := by
  decide +kernel
/-- The host's placing of a word: the next step runs it. -/
theorem test_withFetchWord :
    after (fun t => (t.rip, t.k)) (step (State.reset.withFetchWord 24 0x0F6FCA)) =
    some (0xFFF4, State.reset.k) := by
  decide +kernel

/-! ## Witnesses: states and operands that meet the hypotheses of the statements -/

/-- The rows of opcode `6F` over one EVEX payload and one ModRM. -/
def forms6F (e : Evex) (m : ModRM) : List Instr :=
  [.movdqaRegRm [.opsize] m, .vmovdqaXmmRegRmVex2 [] v2 m, .vmovdqaXmmRegRmVex3 [] v3 m,
    .vmovdqaYmmRegRmVex2 [] v2 m, .vmovdqaYmmRegRmVex3 [] v3 m, .vmovdqa32XmmRegRm [] e m,
    .vmovdqa32YmmRegRm [] e m, .vmovdqa32ZmmRegRm [] e m, .vmovdqa64XmmRegRm [] e m,
    .vmovdqa64YmmRegRm [] e m, .vmovdqa64ZmmRegRm [] e m]

/-- The rows of opcode `7F`. -/
def forms7F (e : Evex) (m : ModRM) : List Instr :=
  [.movdqaRmReg [.opsize] m, .vmovdqaXmmRmRegVex2 [] v2 m, .vmovdqaXmmRmRegVex3 [] v3 m,
    .vmovdqaYmmRmRegVex2 [] v2 m, .vmovdqaYmmRmRegVex3 [] v3 m, .vmovdqa32XmmRmReg [] e m,
    .vmovdqa32YmmRmReg [] e m, .vmovdqa32ZmmRmReg [] e m, .vmovdqa64XmmRmReg [] e m,
    .vmovdqa64YmmRmReg [] e m, .vmovdqa64ZmmRmReg [] e m]

/-- All 22 rows. -/
def forms (e : Evex) (m : ModRM) : List Instr := forms6F e m ++ forms7F e m

/-- RSI and RDI with no displacement: the operands of `mRsi` and `mRdi`. -/
def oRsi : MemOp := .base 6 .none
def oRdi : MemOp := .base 7 .none
/-- RBP with a displacement of 0, which selects SS. -/
def oRbp : MemOp := .base 5 (.d8 0)
def mRbp : ModRM := ⟨1, .mem oRbp⟩

/-- 64-bit mode. -/
def s64 : State := { start [] with mem := [] }
/-- 32-bit protected mode. -/
def s32 : State := { s64 with efer := 0, csL := false, csD := true }
/-- Real-address mode with SSE enabled. -/
def sReal : State := { State.reset with cr4 := 0x200, gpr := s64.gpr }
/-- A state with a general register set. -/
def withGpr (s : State) (n : Fin 16) (v : Word64) : State := { s with gpr := s.gpr.set n v }

theorem executes_all (l : List Instr) (s : State) (P : Instr → Prop)
    (h : ∀ i ∈ l, i.move.decodeFault s = none ∧ P i) : ∀ i ∈ l, Executes i s ∧ P i :=
  fun i hi => ⟨(decodeFault_none_iff i s).1 (h i hi).1, (h i hi).2⟩

theorem operand_all (l : List Instr) (s : State) (o : MemOp) (access : Access) (P : Instr → Prop)
    (h : ∀ i ∈ l, i.move.decodeFault s = none ∧ i.view.m.rm = .mem o ∧
      i.move.segFault s o access = none ∧ (i.move.linear s o).toNat % i.view.vl.bytes = 0 ∧ P i) :
    ∀ i ∈ l, Executes i s ∧ i.view.m.rm = .mem o ∧ OperandOk i s o access ∧ P i :=
  fun i hi =>
    have ⟨hd, hm, hs, ha, hp⟩ := h i hi
    ⟨(decodeFault_none_iff i s).1 hd, hm, ⟨(segFault_none_iff i s o access).1 hs,
      Nat.dvd_of_mod_eq_zero ha⟩, hp⟩

theorem next_of (o : Host.Outcome State Fault Refusal) (h : (after (fun _ => ()) o).isSome = true) :
    ∃ t, o = .next t := by
  cases o with
  | next t => exact ⟨t, rfl⟩
  | fault f => cases h
  | refused r => cases h

theorem fault_of (o : Host.Outcome State Fault Refusal) (f : Fault) (h : faultOf o = some f) :
    o = .fault f := by
  cases o <;> simp_all [faultOf]

theorem refused_of (o : Host.Outcome State Fault Refusal) (r : Refusal) (h : refusalOf o = some r) :
    o = .refused r := by
  cases o <;> simp_all [refusalOf]

/-! ### Encoding -/

theorem witness_DecodeOfEncode :
    (∀ i ∈ forms ev mRsi, i.wf .mode64 = true ∧ i.wf .mode32 = true) ∧
    ∀ i ∈ forms ev ⟨7, .mem (.base16 7 (.d16 0xFFFF))⟩, i.wf .mode16 = true := by decide
theorem witness_EncodeOfDecode :
    decode .mode64 [0x66, 0x0F, 0x6F, 0xDD] = .instr (.movdqaRegRm [.opsize] ⟨3, .reg 5⟩) := by decide
/-- `L'L` = 11 and `mm` = 00, each of 15 and of 16 bytes. -/
theorem witness_EvexNoRowIllegal :
    (partsWf .mode64 [.fs] mRsi = true ∧ ev.wf .mode64 = true) ∧
    (partsWf .mode32 [] mReg = true ∧ ev.wf .mode32 = true) ∧
    ∀ c ∈ [([0x62, 0xF1, 0x7D, 0x68, 0x6F, 0x0E], 9, 15), ([0x62, 0xF1, 0x7D, 0x68, 0x6F, 0x0E], 10, 16),
        ([0x62, 0xF0, 0x7D, 0x48, 0x7F, 0x0E], 9, 15), ([0x62, 0xF0, 0x7D, 0x48, 0x7F, 0x0E], 10, 16)],
      let s := start (List.replicate c.2.1 0x2E ++ c.1)
      decode s.mode s.fetched.1 = .illegal c.2.2 := by decide +kernel
/-- The last prefix is a REX, or is none, also where one stands before it. -/
theorem witness_RegisterNumbers :
    (Instr.movdqaRegRm [.opsize, .rex 7] mReg).view.pfx = [.opsize] ++ [.rex 7] ∧
    (Instr.movdqaRegRm [.opsize, .rex 7] mReg).move.regNum = 9 ∧
    (∀ before wrxb, (Instr.movdqaRegRm [.rex 7, .opsize] mReg).view.pfx ≠ before ++ [.rex wrxb]) ∧
    (Instr.movdqaRegRm [.rex 7, .opsize] mReg).move.regNum = 1 := by
  refine ⟨rfl, by decide, fun before wrxb h => ?_, by decide⟩
  have last := congrArg List.getLast? h
  simp [Instr.view] at last

/-! ### Addresses -/

/-- RIP-relative in 64-bit mode, absolute elsewhere; index 100 is none without `X` and R12 with it; an
8-bit displacement is scaled in an EVEX form. -/
theorem witness_EffectiveAddress :
    s64.mode = .mode64 ∧ s32.mode = .mode32 ∧ sReal.mode = .mode16 ∧
    (Instr.movdqaRegRm [.opsize] mRsi).move.effAddr s64 (.ripOrAbs 0xFFFFFFFF) = 0x400003 ∧
    (Instr.movdqaRegRm [.opsize] mRsi).move.effAddr s32 (.ripOrAbs 0xFFFFFFFF) = 0xFFFFFFFF ∧
    (Instr.movdqaRegRm [.opsize] mRsi).move.effAddr s64 (.sib 3 4 6 .none) = 0x1000 ∧
    (Instr.movdqaRegRm [.opsize, .rex 2] mRsi).move.effAddr (withGpr s64 12 1) (.sib 3 4 6 .none) =
      0x1008 ∧
    (Instr.vmovdqa64ZmmRegRm [] ev mRsi).move.effAddr s64 (.base 6 (.d8 0xFF)) = 0xFC0 ∧
    (Instr.movdqaRegRm [.opsize, .addrsize] mRsi).move.effAddr s64 (.base 6 (.d32 0xFFFFE000)) =
      0xFFFFF000 := by decide +kernel
theorem witness_EffectiveAddress16 :
    (sReal.mode = .mode16 ∧ s32.mode = .mode32) ∧
    (Instr.movdqaRegRm [.opsize, .addrsize] mRsi).move.effAddr s32 (.base16 0 (.d8 0xFF)) = 0x1FFF ∧
    (Instr.movdqaRegRm [.opsize] mRsi).move.effAddr sReal (.base16 3 (.d16 0xF000)) = 0x2000 ∧
    (Instr.movdqaRegRm [.opsize] mRsi).move.effAddr sReal (.abs16 0xFFFF) = 0xFFFF := by decide +kernel
theorem witness_SegmentOfOperand :
    (Instr.movdqaRegRm [.opsize] mRsi).move.seg s64 oRbp = .ss ∧
    (Instr.movdqaRegRm [.opsize, .rex 1] mRsi).move.seg s64 oRbp = .ds ∧
    (Instr.movdqaRegRm [.fs, .cs, .opsize] mRsi).move.seg s64 oRbp = .fs ∧
    (Instr.movdqaRegRm [.fs, .cs, .opsize] mRsi).move.seg s32 oRbp = .cs ∧
    (Instr.movdqaRegRm [.opsize] mRsi).move.seg sReal (.base16 6 (.d8 0)) = .ss := by decide +kernel
/-- The sum wraps at 2^64 in 64-bit mode and at 2^32 outside it. -/
theorem witness_LinearAddress :
    let i := Instr.movdqaRegRm [.fs, .opsize] mRsi
    let fs : Segment := ⟨0xFFFFFFFFFFFFF000, 0xFFFF, false, true, true⟩
    let s := { s64 with segs := { s64.segs with fs := fs } }
    let s' := { s32 with segs := { s32.segs with fs := fs } }
    s.mode = .mode64 ∧ i.move.linear s oRsi = 0 ∧ s'.mode ≠ .mode64 ∧ i.move.linear s' oRsi = 0 := by
  decide +kernel
/-- No rule for the page, the access or the privilege level, and two rules of which the first answers. -/
theorem witness_TranslateByRules :
    let s := { s64 with pageRules := [⟨1, .write, 0, .device⟩, ⟨1, .read, 3, .device⟩,
      ⟨2, .read, 0, .frame 7⟩, ⟨2, .read, 0, .device⟩, ⟨3, .read, 0, .pageFault true false false⟩] }
    s.pageAnswer (pageOf 0x1FFF) .read = .frame 1 ∧ s.pageAnswer (pageOf 0x2FFF) .read = .frame 7 ∧
    inFrame 7 0x2FFF = 0x7FFF ∧ s.pageAnswer (pageOf 0x3000) .read = .pageFault true false false ∧
    s.pageAnswer (pageOf 0x1000) .write = .device := by decide +kernel
theorem witness_CanonicalBits :
    let s57 := { s64 with cfg := { s64.cfg with la57 := true } }
    s64.canonical 0x7FFFFFFFFFFF = true ∧ s64.canonical 0x800000000000 = false ∧
    s64.canonical 0xFFFF7FFFFFFFFFFF = false ∧ s64.canonical 0xFFFF800000000000 = true ∧
    s57.canonical 0xFFFFFFFFFFFFFF = true ∧ s57.canonical 0x100000000000000 = false := by
  decide +kernel
theorem witness_ModeOfMachine :
    let compat := { s64 with csL := false }
    let v86 := { s32 with rflags := 0x20002 }
    (s64.efer.getLsbD 10 = true ∧ s64.csL = true) ∧
    (compat.efer.getLsbD 10 = true ∧ compat.csL = false) ∧
    (s32.efer.getLsbD 10 = false ∧ s32.cr0.getLsbD 0 = true ∧ s32.rflags.getLsbD 17 = false) ∧
    (v86.efer.getLsbD 10 = false ∧ v86.cr0.getLsbD 0 = true ∧ v86.rflags.getLsbD 17 = true) ∧
    sReal.efer.getLsbD 10 = false ∧ sReal.cr0.getLsbD 0 = false := by decide +kernel
theorem witness_StoredValueReadBack :
    let m := Memory.writeBytes [(0x2004, 0xEE)] 0x2000 (bytesLE 4 0x44332211#32)
    m.readLE 0x2002 2 = 0x4433#16 ∧ m.readLE 0x2000 4 = 0x44332211#32 ∧ m.read 0x2004 = 0xEE ∧
      m.read 0x1FFF = 0 := by decide +kernel

/-! ### Fetch and step -/

theorem witness_StepRunsDecoded :
    let i := Instr.vmovdqa64ZmmRegRm [] ev mReg
    let s := start (encode i)
    i.wf s.mode = true ∧
      ∀ j (h : j < (encode i).length), s.codeByte j = .ok (encode i)[j] := by decide +kernel
/-- Bytes that end at the end of the text, and right before the first non-canonical address. -/
theorem witness_OtherBytesStop :
    (let s := start [0x90]; decode s.mode s.fetched.1 = .notInScope) ∧
    (let s := start [0x66, 0x0F, 0x6F];
      decode s.mode s.fetched.1 = .truncated ∧ s.codeByte 3 = .error (.refuse .endOfProgram)) ∧
    let s := State.placeCode { s64 with rip := 0x7FFFFFFFFFFD } 0 [0x66, 0x0F, 0x6F]
    decode s.mode s.fetched.1 = .truncated ∧ s.codeByte 3 = .error (.exn .fetchNonCanonical) := by
  decide +kernel
/-- Two linear pages of one frame: the window is longer than the text. -/
theorem test_fetchWindow_of_aliased_pages :
    let s := { s64 with text := [⟨0x5000, 0x1000⟩], pageRules := [⟨1, .read, 0, .frame 5⟩] }
    s.codeAddr 0 = .ok 0x400000 ∧ State.codeAddr { s with rip := 0x1FFF } 0 = .ok 0x5FFF ∧
      s.fetchWindow = 0x2001 := by decide +kernel
/-- The last byte that each mode can fetch. -/
theorem witness_FetchedByte :
    (let s := { s64 with rip := 0x7FFFFFFFFFF0, text := [⟨0x7FFFFFFFFFFF, 1⟩] };
      s.mode = .mode64 ∧ s.rip.toNat + 15 < 2 ^ 47 ∧
      (0x7FFFFFFFFFFF#64).toNat = s.rip.toNat + 15 ∧
      s.pageAnswer (pageOf 0x7FFFFFFFFFFF) .read = .frame 0x7FFFFFFFF ∧
      s.isText (inFrame 0x7FFFFFFFF 0x7FFFFFFFFFFF) = true) ∧
    (let s := { s32 with rip := 0xFFFFFFF0, text := [⟨0xFFFFEFFE, 1⟩],
                         segs := { s32.segs with cs := ⟨0xFFFFFFFFFFFFF000, 0xFFFFFFFE, false, true, true⟩ } };
      s.mode = .mode32 ∧ s.rip.toNat + 14 + 1 < 2 ^ 32 ∧
      s.rip.toNat + 14 ≤ s.segs.cs.limit.toNat ∧
      (0xFFFFEFFE#64).toNat = (s.segs.cs.base.toNat + s.rip.toNat + 14) % 2 ^ 32 ∧
      s.pageAnswer (pageOf 0xFFFFEFFE) .read = .frame 0xFFFFE ∧
      s.isText (inFrame 0xFFFFE 0xFFFFEFFE) = true) ∧
    let s := { sReal with rip := 0xFFFE, text := [⟨0xFFFFFFFE, 1⟩] }
    s.mode = .mode16 ∧ s.rip.toNat + 0 + 1 < 2 ^ 16 ∧ s.rip.toNat + 0 ≤ s.segs.cs.limit.toNat ∧
    (0xFFFFFFFE#64).toNat = (s.segs.cs.base.toNat + s.rip.toNat + 0) % 2 ^ 32 ∧
    s.pageAnswer (pageOf 0xFFFFFFFE) .read = .frame 0xFFFFF ∧
    s.isText (inFrame 0xFFFFF 0xFFFFFFFE) = true := by decide +kernel
/-- The first byte outside each bound, as byte 0 and as byte 1. -/
theorem witness_FetchOutsideLowerHalf :
    (let s := { s64 with rip := 0x7FFFFFFFFFFF };
      s.mode = .mode64 ∧ s.canonical (s.rip + 1) = false ∧
      State.canonical { s with rip := 0x800000000000 } 0x800000000000 = false) ∧
    (let s := { s64 with rip := 0xFFFF7FFFFFFFFFFF };
      s.mode = .mode64 ∧ s.canonical (s.rip + 1) = true ∧ (s.rip + 1).getLsbD 63 = true ∧
      State.canonical { s with rip := 0xFFFF800000000000 } 0xFFFF800000000000 = true) ∧
    (let s := { s64 with rip := 0xFFFFFFFFFFFFFFFF };
      s.mode = .mode64 ∧ 2 ^ 64 ≤ s.rip.toNat + 1) ∧
    (let s := { s32 with rip := 0xFFFFFFFF };
      s.mode = .mode32 ∧ 2 ^ 32 ≤ s.rip.toNat + 0 + 1) ∧
    let s := { sReal with rip := 0xFFFE }
    s.mode = .mode16 ∧ 2 ^ 16 ≤ s.rip.toNat + 1 + 1 := by decide +kernel

/-! ### Exceptions -/

/-- Fifteen and sixteen bytes. -/
theorem witness_LengthFault :
    (encode (.movdqaRegRm (List.replicate 12 .cs ++ [.opsize]) mRsi)).length = 16 ∧
    (encode (.movdqaRegRm (List.replicate 11 .cs ++ [.opsize]) mRsi)).length = 15 := by decide
theorem witness_VvvvFault :
    ∀ i ∈ [Instr.vmovdqaXmmRegRmVex2 (List.replicate 11 .fs) { v2 with vvvv := 14 } mRsi,
        .vmovdqaYmmRmRegVex3 [] { v3 with vvvv := 7 } mReg,
        .vmovdqa64ZmmRmReg [] { ev with vvvv := 0 } mRdi],
      (encode i).length ≤ 15 ∧ ¬ i.view.vvvvOk := by
  simp only [← vvvvOk_iff]; decide
/-- LOCK, `66` and REX before VEX, and each illegal EVEX field. -/
theorem witness_IllegalEncodingFault :
    ∀ i ∈ [Instr.movdqaRmReg [.lock, .opsize] mRdi, .vmovdqaXmmRegRmVex2 [.opsize] v2 mReg,
        .vmovdqaYmmRegRmVex3 [.rex 0] v3 mReg, .vmovdqa32XmmRegRm [.rep] ev mRsi,
        .vmovdqa32YmmRegRm [] { ev with p0Reserved := 1 } mRsi,
        .vmovdqa32ZmmRegRm [] { ev with p1Fixed := false } mRsi,
        .vmovdqa64XmmRmReg [] { ev with b := true } mRdi,
        .vmovdqa64YmmRmReg [] { ev with v2Bar := false } mRdi,
        .vmovdqa64ZmmRegRm [] { ev with z := true } mRsi,
        .vmovdqa64ZmmRmReg [] { ev with z := true, aaa := 1 } mRdi],
      (encode i).length ≤ 15 ∧ i.view.vvvvOk ∧ ¬ i.view.legal := by
  simp only [← vvvvOk_iff, ← encOk_iff]; decide
/-- Each line of 60_exceptions.md R166, for a form of each column it has. -/
theorem witness_NotEnabledFault :
    let leg := Instr.movdqaRegRm [.opsize] mRsi
    let vex := Instr.vmovdqaYmmRegRmVex2 [] v2 mRsi
    let evex := Instr.vmovdqa32ZmmRegRm [] ev mRsi
    let evl := Instr.vmovdqa64XmmRegRm [] ev mRsi
    ∀ c ∈ [(leg, { s64 with cfg := { s64.cfg with sse2 := false } }), (leg, { s64 with cr0 := 0x17 }),
        (leg, { s64 with cr4 := 0x40000 }), (vex, { s64 with cfg := { s64.cfg with avx := false } }),
        (vex, { s64 with cr4 := 0x200 }), (vex, { s64 with xcr0 := 0xE5 }),
        (vex, { s64 with xcr0 := 0xE3 }), (vex, { s32 with cr0 := 0x10 }),
        (vex, { s32 with rflags := 0x20002 }),
        (evex, { s64 with cfg := { s64.cfg with avx512f := false } }),
        (evl, { s64 with cfg := { s64.cfg with avx512vl := false } }),
        (evex, { s64 with cr4 := 0x200 }), (evex, { s64 with xcr0 := 0xC7 }),
        (evex, { s64 with xcr0 := 0xA7 }), (evex, { s64 with xcr0 := 0x67 }),
        (evex, { s32 with cr0 := 0x10 })],
      (encode c.1).length ≤ 15 ∧ c.1.view.vvvvOk ∧ c.1.view.legal ∧ ¬ c.1.view.ready c.2 := by
  simp only [← vvvvOk_iff, ← encOk_iff, ← enabled_iff]; decide +kernel
theorem witness_DeviceNotAvailableFault :
    let s := { s64 with cr0 := 0x1B }
    ∀ i ∈ forms ev mReg, (encode i).length ≤ 15 ∧ i.view.vvvvOk ∧ i.view.legal ∧ i.view.ready s ∧
      s.cr0.getLsbD 3 = true := by
  simp only [← vvvvOk_iff, ← encOk_iff, ← enabled_iff]; decide +kernel
/-- DS and SS at the lowest non-canonical address, and an operand whose last 8 bytes are the first ones
that are non-canonical. -/
theorem witness_NonCanonicalFault :
    (let s := withGpr s64 6 0x800000000000;
      ∀ i ∈ forms ev mRsi, Executes i s ∧ i.view.m.rm = .mem oRsi ∧ s.mode = .mode64 ∧
        i.move.seg s oRsi ≠ .ss ∧
        ∃ k < i.view.vl.bytes, s.canonical (i.move.linear s oRsi + BitVec.ofNat 64 k) = false) ∧
    (let s := withGpr s64 5 0x800000000000;
      ∀ i ∈ forms ev mRbp, Executes i s ∧ i.view.m.rm = .mem oRbp ∧ s.mode = .mode64 ∧
        i.move.seg s oRbp = .ss ∧
        ∃ k < i.view.vl.bytes, s.canonical (i.move.linear s oRbp + BitVec.ofNat 64 k) = false) ∧
    let s := withGpr s64 6 0x7FFFFFFFFFF8
    ∀ i ∈ forms ev mRsi, Executes i s ∧ i.view.m.rm = .mem oRsi ∧ s.mode = .mode64 ∧
      ∃ k < i.view.vl.bytes, s.canonical (i.move.linear s oRsi + BitVec.ofNat 64 k) = false :=
  ⟨executes_all _ _ _ (by decide +kernel), executes_all _ _ _ (by decide +kernel),
    executes_all _ _ _ (by decide +kernel)⟩
/-- The limit is the last byte but one of a 16-byte operand. -/
theorem witness_SegmentLimitFault :
    (let s := { s32 with segs := { s32.segs with ds := ⟨0, 0x100E, false, true, true⟩ } };
      ∀ i ∈ forms ev mRsi, Executes i s ∧ i.view.m.rm = .mem oRsi ∧ s.mode ≠ .mode64 ∧
        i.move.seg s oRsi ≠ .ss ∧ ∃ k < i.view.vl.bytes,
        (s.segs.get (i.move.seg s oRsi)).limit.toNat < (i.move.effAddr s oRsi).toNat + k) ∧
    let s := { s32 with segs := { s32.segs with ss := ⟨0, 0x100E, false, true, true⟩ } }
    ∀ i ∈ forms ev mRbp, Executes i s ∧ i.view.m.rm = .mem oRbp ∧ s.mode ≠ .mode64 ∧
      i.move.seg s oRbp = .ss ∧ ∃ k < i.view.vl.bytes,
      (s.segs.get (i.move.seg s oRbp)).limit.toNat < (i.move.effAddr s oRbp).toNat + k :=
  ⟨executes_all _ _ _ (by decide +kernel), executes_all _ _ _ (by decide +kernel)⟩
/-- A null selector, no write right, no read right, and a byte at 10000H in real-address mode; the limit
is the operand's last byte. -/
theorem witness_SegmentRightsFault :
    (let s := { s32 with segs := { s32.segs with ds := ⟨0, 0x103F, true, true, true⟩ } };
      ∀ i ∈ forms ev mRsi, Executes i s ∧ i.view.m.rm = .mem oRsi ∧ s.mode ≠ .mode64 ∧
        (∀ k < i.view.vl.bytes, (i.move.effAddr s oRsi).toNat + k ≤
          (s.segs.get (i.move.seg s oRsi)).limit.toNat) ∧
        (s.segs.get (i.move.seg s oRsi)).isNull = true) ∧
    (let s := { s32 with segs := { s32.segs with ds := ⟨0, 0x103F, false, true, false⟩ } };
      ∀ i ∈ forms7F ev mRsi, Executes i s ∧ i.view.m.rm = .mem oRsi ∧ s.mode ≠ .mode64 ∧
        (∀ k < i.view.vl.bytes, (i.move.effAddr s oRsi).toNat + k ≤
          (s.segs.get (i.move.seg s oRsi)).limit.toNat) ∧
        i.view.toRm = true ∧ (s.segs.get (i.move.seg s oRsi)).writable = false) ∧
    (let s := { s32 with segs := { s32.segs with ds := ⟨0, 0x103F, false, false, true⟩ } };
      ∀ i ∈ forms6F ev mRsi, Executes i s ∧ i.view.m.rm = .mem oRsi ∧ s.mode ≠ .mode64 ∧
        (∀ k < i.view.vl.bytes, (i.move.effAddr s oRsi).toNat + k ≤
          (s.segs.get (i.move.seg s oRsi)).limit.toNat) ∧
        i.view.toRm = false ∧ (s.segs.get (i.move.seg s oRsi)).readable = false) ∧
    let s := { withGpr sReal 6 0xFFF1 with
      segs := { sReal.segs with ds := ⟨0, 0xFFFFFFFF, false, true, true⟩ } }
    ∀ i ∈ [Instr.movdqaRegRm [.addrsize, .opsize] mRsi, .movdqaRmReg [.addrsize, .opsize] mRsi],
      Executes i s ∧ i.view.m.rm = .mem oRsi ∧ s.mode ≠ .mode64 ∧
      (∀ k < i.view.vl.bytes, (i.move.effAddr s oRsi).toNat + k ≤
        (s.segs.get (i.move.seg s oRsi)).limit.toNat) ∧
      s.efer.getLsbD 10 = false ∧ s.cr0.getLsbD 0 = false ∧
      ∃ k < i.view.vl.bytes, 0xFFFF < (i.move.effAddr s oRsi).toNat + k :=
  ⟨executes_all _ _ _ (by decide +kernel), executes_all _ _ _ (by decide +kernel),
    executes_all _ _ _ (by decide +kernel), executes_all _ _ _ (by decide +kernel)⟩
/-- One byte too far, loads and stores, without a mask and with every element masked off. -/
theorem witness_MisalignedFault :
    let s := withGpr s64 6 0x1001
    ∀ i ∈ forms ev mRsi ++ forms { ev with aaa := 4 } mRsi, Executes i s ∧ i.view.m.rm = .mem oRsi ∧
      SegmentAllows i s oRsi i.access ∧ (i.move.linear s oRsi).toNat % i.view.vl.bytes ≠ 0 := by
  simp only [← segFault_none_iff]
  exact executes_all _ _ _ (by decide +kernel)
/-- The page of RSI = 1000H refused for reads, the page of RDI = 2000H for writes, at privilege level 3. -/
def sPage (a : PageAnswer) : State :=
  { s64 with cpl := 3, pageRules := [⟨1, .read, 3, a⟩, ⟨2, .write, 3, a⟩] }
/-- The lowest enabled element is 0 (no mask; K[2] = 5) and 1 (K[3] = 6). -/
theorem witness_PageFaultRecord :
    let s := sPage (.pageFault true false true)
    (∀ i ∈ forms6F ev mRsi ++ forms6F { ev with aaa := 2 } mRsi, Executes i s ∧
      i.view.m.rm = .mem oRsi ∧ OperandOk i s oRsi .read ∧ i.access = .read ∧
      s.pageAnswer (pageOf (i.move.linear s oRsi)) i.access = .pageFault true false true ∧
      0 < i.view.vl.bits / i.view.ew ∧ i.view.mask s 0 = true) ∧
    (∀ i ∈ (forms6F { ev with aaa := 3 } mRsi).drop 5, Executes i s ∧
      i.view.m.rm = .mem oRsi ∧ OperandOk i s oRsi .read ∧ i.access = .read ∧
      s.pageAnswer (pageOf (i.move.linear s oRsi)) i.access = .pageFault true false true ∧
      1 < i.view.vl.bits / i.view.ew ∧ i.view.mask s 1 = true ∧ ∀ k < 1, i.view.mask s k = false) ∧
    ∀ i ∈ (forms7F { ev with aaa := 3 } mRdi).drop 5, Executes i s ∧
      i.view.m.rm = .mem oRdi ∧ OperandOk i s oRdi .write ∧ i.access = .write ∧
      s.pageAnswer (pageOf (i.move.linear s oRdi)) i.access = .pageFault true false true ∧
      1 < i.view.vl.bits / i.view.ew ∧ i.view.mask s 1 = true ∧ ∀ k < 1, i.view.mask s k = false :=
  ⟨operand_all _ _ _ _ _ (by decide +kernel), operand_all _ _ _ _ _ (by decide +kernel),
    operand_all _ _ _ _ _ (by decide +kernel)⟩
/-- A fault of each vector, from an instruction and from a step. -/
theorem witness_FaultRecord :
    (∀ c ∈ [(withGpr s64 6 0x1001, 13), (withGpr s64 6 0x800000000000, 13), ({ s64 with cr4 := 0 }, 6),
        ({ s64 with cr0 := 0x1B }, 7), (sPage (.pageFault false false false), 14)],
      ∃ c' code cr2, exec (.movdqaRegRm [.opsize] mRsi) c.1 =
        .fault (.exception c' c.2 code c.1.rip cr2)) ∧
    exec (.movdqaRegRm [.opsize] mRbp) (withGpr s64 5 0x800000000000) =
      .fault (.exception .stackSegment 12 (some 0) 0x400000 none) ∧
    step { s64 with rip := 0x800000000000 } =
      .fault (.exception .fetchNonCanonical 13 (some 0) 0x800000000000 none) := by
  refine ⟨?_, fault_of _ _ (by decide +kernel), fault_of _ _ (by decide +kernel)⟩
  intro c hc
  simp only [List.mem_cons, List.not_mem_nil, or_false] at hc
  rcases hc with rfl | rfl | rfl | rfl | rfl
  · exact ⟨.misaligned, some 0, none, fault_of _ _ (by decide +kernel)⟩
  · exact ⟨.segmentViolation, some 0, none, fault_of _ _ (by decide +kernel)⟩
  · exact ⟨.notEnabled, none, none, fault_of _ _ (by decide +kernel)⟩
  · exact ⟨.deviceNotAvailable, none, none, fault_of _ _ (by decide +kernel)⟩
  · exact ⟨.pageFault 4 0x1000, some 4, some 0x1000, fault_of _ _ (by decide +kernel)⟩
theorem witness_NoSimdException :
    (∃ c v code rip cr2, exec (.movdqaRegRm [.opsize] mRsi) (withGpr s64 6 0x1001) =
      .fault (.exception c v code rip cr2)) ∧
    ∃ t, exec (.movdqaRegRm [.opsize] mRsi) s64 = .next t :=
  ⟨⟨.misaligned, 13, some 0, 0x400000, none, fault_of _ _ (by decide +kernel)⟩,
    next_of _ (by decide +kernel)⟩
theorem witness_RefusedOnlyFor :
    exec (.movdqaRegRm [.opsize] mRsi) (sPage .device) = .refused .deviceOperand ∧
    exec (.movdqaRmReg [.opsize] mRdi) { s64 with text := [⟨0x200F, 1⟩] } =
      .refused .storeIntoProgram :=
  ⟨refused_of _ _ (by decide +kernel), refused_of _ _ (by decide +kernel)⟩
theorem witness_DeviceOperandRefused :
    let s := sPage .device
    (∀ i ∈ forms6F { ev with aaa := 3 } mRsi, Executes i s ∧ i.view.m.rm = .mem oRsi ∧
      OperandOk i s oRsi .read ∧ i.access = .read ∧
      s.pageAnswer (pageOf (i.move.linear s oRsi)) i.access = .device ∧
      ∃ j < i.view.vl.bits / i.view.ew, i.view.mask s j = true) ∧
    ∀ i ∈ forms7F ev mRdi, Executes i s ∧ i.view.m.rm = .mem oRdi ∧
      OperandOk i s oRdi .write ∧ i.access = .write ∧
      s.pageAnswer (pageOf (i.move.linear s oRdi)) i.access = .device ∧
      ∃ j < i.view.vl.bits / i.view.ew, i.view.mask s j = true :=
  ⟨operand_all _ _ _ _ _ (by decide +kernel), operand_all _ _ _ _ _ (by decide +kernel)⟩
/-- The first byte of the operand, and its last one, is text. -/
theorem witness_StoreIntoProgramRefused :
    (let s := { s64 with text := [⟨0x1FFF, 2⟩] };
      ∀ i ∈ forms7F ev mRdi, Executes i s ∧ i.view.m.rm = .mem oRdi ∧ OperandOk i s oRdi .write ∧
        i.view.toRm = true ∧ s.pageAnswer (pageOf (i.move.linear s oRdi)) .write = .frame 2 ∧
        0 < i.view.vl.bytes ∧ i.view.mask s (8 * 0 / i.view.ew) = true ∧
        s.isText (inFrame 2 (i.move.linear s oRdi) + 0) = true) ∧
    let s := { s64 with text := [⟨0x203F, 1⟩] }
    ∀ i ∈ [Instr.vmovdqa32ZmmRmReg [] ev mRdi, .vmovdqa64ZmmRmReg [] { ev with aaa := 7 } mRdi],
      Executes i s ∧ i.view.m.rm = .mem oRdi ∧ OperandOk i s oRdi .write ∧
      i.view.toRm = true ∧ s.pageAnswer (pageOf (i.move.linear s oRdi)) .write = .frame 2 ∧
      63 < i.view.vl.bytes ∧ i.view.mask s (8 * 63 / i.view.ew) = true ∧
      s.isText (inFrame 2 (i.move.linear s oRdi) + 63) = true :=
  ⟨operand_all _ _ _ _ _ (by decide +kernel), operand_all _ _ _ _ _ (by decide +kernel)⟩

/-! ### What the instructions do -/

theorem witness_RegisterCopyResult :
    ∀ i ∈ forms ev mReg ++ forms { ev with aaa := 1 } mReg,
      Executes i s64 ∧ i.view.m.rm = .reg 2 :=
  executes_all _ _ _ (by decide +kernel)
theorem witness_LoadResult :
    ∀ i ∈ forms6F ev mRsi ++ forms6F { ev with aaa := 1, z := true } mRsi, Executes i s64 ∧
      i.view.m.rm = .mem oRsi ∧ OperandOk i s64 oRsi .read ∧ i.view.toRm = false ∧
      s64.pageAnswer (pageOf (i.move.linear s64 oRsi)) .read = .frame 1 :=
  operand_all _ _ _ _ _ (by decide +kernel)
/-- Text right before the operand and right behind the longest one. -/
theorem witness_StoreResult :
    let s := { s64 with text := [⟨0x1FFF, 1⟩, ⟨0x2040, 1⟩] }
    ∀ i ∈ forms7F ev mRdi ++ forms7F { ev with aaa := 1 } mRdi, Executes i s ∧
      i.view.m.rm = .mem oRdi ∧ OperandOk i s oRdi .write ∧ i.view.toRm = true ∧
      s.pageAnswer (pageOf (i.move.linear s oRdi)) .write = .frame 2 ∧
      ∀ k < i.view.vl.bytes, s.isText (inFrame 2 (i.move.linear s oRdi) + k) = false :=
  operand_all _ _ _ _ _ (by decide +kernel)
/-- K[4] = 0, loads merging and zeroing, and stores. -/
theorem witness_AllMaskedOff :
    (∀ i ∈ (forms6F { ev with aaa := 4 } mRsi).drop 5 ++
        (forms6F { ev with aaa := 4, z := true } mRsi).drop 5, Executes i s64 ∧
      i.view.m.rm = .mem oRsi ∧ OperandOk i s64 oRsi .read ∧ i.access = .read ∧
      ∀ j < i.view.vl.bits / i.view.ew, i.view.mask s64 j = false) ∧
    ∀ i ∈ (forms7F { ev with aaa := 4 } mRdi).drop 5, Executes i s64 ∧
      i.view.m.rm = .mem oRdi ∧ OperandOk i s64 oRdi .write ∧ i.access = .write ∧
      ∀ j < i.view.vl.bits / i.view.ew, i.view.mask s64 j = false :=
  ⟨operand_all _ _ _ _ _ (by decide +kernel), operand_all _ _ _ _ _ (by decide +kernel)⟩
theorem witness_MovdqaCopyKeepsUpper :
    Executes (.movdqaRegRm [.opsize] ⟨1, .reg 2⟩) s64 ∧ Executes (.movdqaRmReg [.opsize] ⟨1, .reg 2⟩) s64 :=
  ⟨(decodeFault_none_iff _ _).1 (by decide +kernel), (decodeFault_none_iff _ _).1 (by decide +kernel)⟩
theorem witness_VmovdqaCopyZeroExtends :
    (∀ i ∈ [Instr.vmovdqaXmmRegRmVex2 [] v2 mReg, .vmovdqaXmmRmRegVex2 [] v2 mReg,
        .vmovdqaYmmRegRmVex2 [] v2 mReg, .vmovdqaYmmRmRegVex2 [] v2 mReg],
      Executes i s64 ∧ i.view.m.rm = .reg 2 ∧ i.view.fmt = .vex2 v2) ∧
    ∀ i ∈ [Instr.vmovdqaXmmRegRmVex3 [] v3 mReg, .vmovdqaXmmRmRegVex3 [] v3 mReg,
        .vmovdqaYmmRegRmVex3 [] v3 mReg, .vmovdqaYmmRmRegVex3 [] v3 mReg],
      Executes i s64 ∧ i.view.m.rm = .reg 2 ∧ i.view.fmt = .vex3 v3 :=
  ⟨executes_all _ _ _ (by decide +kernel), executes_all _ _ _ (by decide +kernel)⟩
/-- The last element, kept and zeroed. -/
theorem witness_EvexCopyByElement :
    ∀ e ∈ [{ ev with aaa := 1 }, { ev with aaa := 7, z := true }],
      ∀ i ∈ (forms6F e mReg).drop 5 ++ (forms7F e mReg).drop 5,
        i.move.decodeFault s64 = none ∧ i.view.m.rm = .reg 2 ∧ i.view.fmt = .evex e ∧ e.aaa ≠ 0 ∧
          i.view.vl.bits / i.view.ew - 1 < i.view.vl.bits / i.view.ew := by decide +kernel

/-! ### What holds of every instruction that completes -/

/-- For UpperBits, ContinuesAtNext and OnlyMovedStateChanges: every row completes, as a copy and with a
memory operand. -/
theorem witness_UpperBits :
    (∀ i ∈ forms ev mReg, i.view.m.rm = .reg 2 ∧ ∃ t, exec i s64 = .next t) ∧
    ∀ i ∈ forms ev mRsi, ∃ t, exec i s64 = .next t := by
  have h : (∀ i ∈ forms ev mReg, i.view.m.rm = .reg 2 ∧ (after (fun _ => ()) (exec i s64)).isSome = true) ∧
      ∀ i ∈ forms ev mRsi, (after (fun _ => ()) (exec i s64)).isSome = true := by decide +kernel
  exact ⟨fun i hi => ⟨(h.1 i hi).1, next_of _ (h.1 i hi).2⟩, fun i hi => next_of _ (h.2 i hi)⟩
/-- K[2] = 5 and its bit 4 changed, which a form with four elements does not read; every other register
changed too. -/
theorem witness_OpmaskReadOnlySelected :
    let i := Instr.vmovdqa32XmmRegRm [] { ev with aaa := 2 } mRsi
    let k' : Vector Word64 8 := #v[1, 1, 0x15, 1, 1, 1, 1, 1]
    (∀ j < i.view.vl.bits / i.view.ew,
      (State.kAt { s64 with k := k' } 2).getLsbD j = (s64.kAt 2).getLsbD j) ∧
    k' ≠ s64.k ∧ (after (fun _ => ()) (exec i s64)).isSome = true ∧
    (faultOf (exec i (withGpr s64 6 1))).isSome = true ∧
    (refusalOf (exec i (sPage .device))).isSome = true := by decide +kernel
theorem witness_FlagsNotUsed :
    let i := Instr.vmovdqa32XmmRegRm [] { ev with aaa := 2 } mRsi
    (0xFFFFFFFFFFFDFFFF#64).getLsbD 17 = s64.rflags.getLsbD 17 ∧
    (after (fun _ => ()) (exec i s64)).isSome = true ∧
    (faultOf (exec i (withGpr s64 6 1))).isSome = true ∧
    (refusalOf (exec i (sPage .device))).isSome = true := by decide +kernel
/-- One copy of each format, in both spellings. -/
theorem witness_TwoSpellingsOneCopy :
    let e := { ev with aaa := 1, z := true }
    ∀ c ∈ (forms6F e ⟨1, .reg 2⟩).zip (forms7F e ⟨2, .reg 1⟩),
      c.1.view.toRm = false ∧ c.2.view.toRm = true ∧ c.1.view.m.rm = .reg 2 ∧ c.2.view.m.rm = .reg 1 ∧
      c.1.move.fam = c.2.move.fam ∧ c.1.view.vl = c.2.view.vl ∧ c.1.view.ew = c.2.view.ew ∧
      (encode c.1).length = (encode c.2).length ∧ (c.1.view.vvvvOk ↔ c.2.view.vvvvOk) ∧
      (c.1.view.legal ↔ c.2.view.legal) ∧ c.1.move.z = c.2.move.z ∧ c.1.move.aaa = c.2.move.aaa ∧
      c.1.move.regNum = c.2.move.rmNum 1 ∧ c.1.move.rmNum 2 = c.2.move.regNum := by
  simp only [← vvvvOk_iff, ← encOk_iff]; decide
theorem witness_UnmaskedElementSizeIrrelevant : ev.aaa = 0 := rfl
theorem witness_AllOnesMaskIsNoMask :
    let e := { ev with aaa := 1 }
    let s := { s64 with k := s64.k.set 1 0xFFFF }
    ∀ c ∈ ((forms e mRsi).zip (forms ev mRsi)).filter fun c => c.1.move.fam == .evex,
      c.1.view.fmt = .evex e ∧ c.2.view = { c.1.view with fmt := .evex { e with aaa := 0 } } ∧
      e.z = false ∧ ∀ k < c.1.view.vl.bits / c.1.view.ew, c.1.view.mask s k = true := by decide +kernel
/-- A legacy store to RDI and an EVEX load from it. -/
theorem witness_LoadSeesEarlierStore :
    let i := Instr.movdqaRmReg [.opsize] mRdi
    let j := Instr.vmovdqa64XmmRegRm [] { ev with aaa := 3 } mRdi
    let s := { s64 with k := s64.k.set 3 3 }
    let t := s.advance 4
    let m := Memory.writeBytes [] 0x2000 (bytesLE 16 (s.zmmAt 1))
    i.view.toRm = true ∧ j.view.toRm = false ∧ i.view.m.rm = .mem oRdi ∧ j.view.m.rm = .mem oRdi ∧
    i.view.vl = j.view.vl ∧ (∀ k < i.view.vl.bits / i.view.ew, i.view.mask s k = true) ∧
    (∀ k < j.view.vl.bits / j.view.ew, j.view.mask t k = true) ∧
    j.move.linear t oRdi = i.move.linear s oRdi ∧
    s.pageAnswer (pageOf (i.move.linear s oRdi)) .write = .frame 2 ∧
    s.pageAnswer (pageOf (i.move.linear s oRdi)) .read = .frame 2 ∧
    after (fun t => (t.k, t.gpr, t.rip)) (exec i s) = some (t.k, t.gpr, t.rip) ∧
    after (fun u => u.zmmAt 1) (exec j { t with mem := m }) = some 0x8F8E8D8C8B8A89888786858483828180 := by decide +kernel

/-! ### What holds of every step -/

/-- For StepKeepsInvariant, StepKeepsProgramText and StepKeepsControlState: a store that completes from a
state with the invariant, and a byte of text. -/
theorem witness_StepKeepsInvariant :
    let s := start [0x66, 0x0F, 0x7F, 0x0F]
    Inv s ∧ (∃ t, step s = .next t) ∧ s.isText 0x400003 = true := by
  refine ⟨⟨by decide +kernel, ?_⟩, next_of _ (by decide +kernel), by decide +kernel⟩
  have h : (start [0x66, 0x0F, 0x7F, 0x0F]).mode = .mode64 := by decide +kernel
  simp only [RipFits, h]
  decide +kernel

/-! ### Reset and launch -/

theorem witness_ResetEveryFormUndefined :
    ∀ i ∈ forms ev mReg ++ [.movdqaRegRm (List.replicate 11 .cs ++ [.opsize]) mRsi],
      (encode i).length ≤ 15 := by decide
theorem witness_LaunchMakesReady : State.reset.cfg = Config.primary := rfl

end Sys2Proof.Tests
end

/-! The proofs of the statements of 10_state.md: the mode, reset and INIT, the fetch of an instruction's
bytes, what an instruction reads and leaves unchanged, and the invariant of every step. -/

namespace Sys2Proof.Proofs

open Sys2Proof.Machine Sys2Proof.Laws

/-! ## The length of a decoded instruction -/

theorem length_takePrefixes (mode : Mode) (bs : List Byte) :
    bs.length = (takePrefixes mode bs).1.length + (takePrefixes mode bs).2.length := by
  induction bs with
  | nil => rfl
  | cons b bs ih =>
    unfold takePrefixes
    cases prefixOf mode b with
    | none => simp
    | some p => simp only [List.length_cons]; omega

theorem length_of_takeD16 {bs : List Byte} {r : BitVec 16 × List Byte} (h : takeD16 bs = some r) :
    bs.length = 2 + r.2.length := by
  unfold takeD16 at h
  split at h
  · cases h; simp only [List.length_cons]; omega
  · cases h

theorem length_of_takeD32 {bs : List Byte} {r : BitVec 32 × List Byte} (h : takeD32 bs = some r) :
    bs.length = 4 + r.2.length := by
  unfold takeD32 at h
  split at h
  · cases h; simp only [List.length_cons]; omega
  · cases h

theorem length_of_takeDisp {mod : BitVec 2} {bs : List Byte} {r : Disp × List Byte}
    (h : takeDisp mod bs = some r) : bs.length = dispLen r.1 + r.2.length := by
  unfold takeDisp at h
  split at h
  · cases h; simp [dispLen]
  · split at h
    · split at h
      · cases h; simp only [List.length_cons, dispLen]; omega
      · cases h
    · obtain ⟨d, hd, rfl⟩ := Option.map_eq_some_iff.mp h
      exact length_of_takeD32 hd

theorem length_of_takeDisp16 {mod : BitVec 2} {bs : List Byte} {r : Disp16 × List Byte}
    (h : takeDisp16 mod bs = some r) : bs.length = disp16Len r.1 + r.2.length := by
  unfold takeDisp16 at h
  split at h
  · cases h; simp [disp16Len]
  · split at h
    · split at h
      · cases h; simp only [List.length_cons, disp16Len]; omega
      · cases h
    · obtain ⟨d, hd, rfl⟩ := Option.map_eq_some_iff.mp h
      exact length_of_takeD16 hd

theorem length_of_takeMem32 {mod : BitVec 2} {rm reg : BitVec 3} {bs : List Byte}
    {r : MemOp × List Byte} (h : takeMem32 mod rm bs = some r) :
    bs.length + 1 = modRMLen ⟨reg, .mem r.1⟩ + r.2.length := by
  unfold takeMem32 at h
  split at h
  · split at h
    · cases h
    · split at h
      · obtain ⟨d, hd, rfl⟩ := Option.map_eq_some_iff.mp h
        have := length_of_takeD32 hd
        simp only [List.length_cons, modRMLen]; omega
      · obtain ⟨d, hd, rfl⟩ := Option.map_eq_some_iff.mp h
        have := length_of_takeDisp hd
        simp only [List.length_cons, modRMLen]; omega
  · split at h
    · obtain ⟨d, hd, rfl⟩ := Option.map_eq_some_iff.mp h
      have := length_of_takeD32 hd
      simp only [modRMLen]; omega
    · obtain ⟨d, hd, rfl⟩ := Option.map_eq_some_iff.mp h
      have := length_of_takeDisp hd
      simp only [modRMLen]; omega

theorem length_of_takeMem16 {mod : BitVec 2} {rm reg : BitVec 3} {bs : List Byte}
    {r : MemOp × List Byte} (h : takeMem16 mod rm bs = some r) :
    bs.length + 1 = modRMLen ⟨reg, .mem r.1⟩ + r.2.length := by
  unfold takeMem16 at h
  split at h
  · obtain ⟨d, hd, rfl⟩ := Option.map_eq_some_iff.mp h
    have := length_of_takeD16 hd
    simp only [modRMLen]; omega
  · obtain ⟨d, hd, rfl⟩ := Option.map_eq_some_iff.mp h
    have := length_of_takeDisp16 hd
    simp only [modRMLen]; omega

/-- ModRM, SIB and displacement take as many bytes as 30_encoding.md R60 to R62 count. -/
theorem length_of_takeModRM {a16 : Bool} {bs : List Byte} {r : ModRM × List Byte}
    (h : takeModRM a16 bs = some r) : bs.length = modRMLen r.1 + r.2.length := by
  unfold takeModRM at h
  split at h
  · cases h
  · dsimp only at h
    split at h
    · cases h; simp only [List.length_cons, modRMLen]; omega
    · obtain ⟨d, hd, rfl⟩ := Option.map_eq_some_iff.mp h
      split at hd
      · exact length_of_takeMem16 hd
      · exact length_of_takeMem32 hd

theorem exists_modRM_of_withModRM {a16 : Bool} {bs : List Byte} {mk : ModRM → Decoded} {i : Instr}
    (h : withModRM a16 bs mk = .instr i) : ∃ m, mk m = .instr i ∧ modRMLen m ≤ bs.length := by
  unfold withModRM at h
  split at h
  · rename_i r hr
    have := length_of_takeModRM hr
    exact ⟨r.1, h, by omega⟩
  · cases h

theorem length_encode_byOpcode {n : Nat} (op : Byte) {i j : Instr} (hi : i.move.len = n)
    (hj : j.move.len = n) : (encode (byOpcode op i j)).length = n := by
  rw [← move_len]
  unfold byOpcode
  split
  · exact hi
  · exact hj

theorem length_encode_legRow (op : Byte) (p : List Prefix) (m : ModRM) :
    (encode (byOpcode op (.movdqaRegRm p m) (.movdqaRmReg p m))).length = p.length + 2 + modRMLen m :=
  length_encode_byOpcode op rfl rfl

theorem length_encode_vex2Row (l : Bool) (op : Byte) (p : List Prefix) (v : Vex2) (m : ModRM) :
    (encode (vex2Row l op p v m)).length = p.length + 3 + modRMLen m := by
  cases l <;> exact length_encode_byOpcode op rfl rfl

theorem length_encode_vex3Row (l : Bool) (op : Byte) (p : List Prefix) (v : Vex3) (m : ModRM) :
    (encode (vex3Row l op p v m)).length = p.length + 4 + modRMLen m := by
  cases l <;> exact length_encode_byOpcode op rfl rfl

theorem length_encode_of_evexRow {w : Bool} {ll : BitVec 2} {op : Byte} {p : List Prefix} {e : Evex}
    {m : ModRM} {i : Instr} (h : evexRow w ll op p e m = some i) :
    (encode i).length = p.length + 5 + modRMLen m := by
  unfold evexRow at h
  split_ifs at h <;> cases h <;> exact length_encode_byOpcode op rfl rfl

theorem length_encode_le_of_decodeLeg {mode : Mode} {p : List Prefix} {bs : List Byte} {i : Instr}
    (h : decodeLeg mode p bs = .instr i) : (encode i).length ≤ p.length + 1 + bs.length := by
  unfold decodeLeg at h
  split at h
  · cases h
  · split at h
    · obtain ⟨m, hi, hm⟩ := exists_modRM_of_withModRM h
      cases hi
      rw [length_encode_legRow, List.length_cons]
      omega
    · cases h

theorem length_encode_le_of_decodeVex2 {mode : Mode} {p : List Prefix} {bs : List Byte} {i : Instr}
    (h : decodeVex2 mode p bs = .instr i) : (encode i).length ≤ p.length + 1 + bs.length := by
  unfold decodeVex2 at h
  split at h
  · dsimp only at h
    split at h
    · obtain ⟨m, hi, hm⟩ := exists_modRM_of_withModRM h
      cases hi
      rw [length_encode_vex2Row, List.length_cons, List.length_cons]
      omega
    · cases h
  · cases h

theorem length_encode_le_of_decodeVex3 {mode : Mode} {p : List Prefix} {bs : List Byte} {i : Instr}
    (h : decodeVex3 mode p bs = .instr i) : (encode i).length ≤ p.length + 1 + bs.length := by
  unfold decodeVex3 at h
  split at h
  · dsimp only at h
    split at h
    · obtain ⟨m, hi, hm⟩ := exists_modRM_of_withModRM h
      cases hi
      rw [length_encode_vex3Row, List.length_cons, List.length_cons, List.length_cons]
      omega
    · cases h
  · cases h

theorem length_encode_le_of_decodeEvex {mode : Mode} {p : List Prefix} {bs : List Byte} {i : Instr}
    (h : decodeEvex mode p bs = .instr i) : (encode i).length ≤ p.length + 1 + bs.length := by
  unfold decodeEvex at h
  split at h
  · dsimp only at h
    split at h
    · obtain ⟨m, hi, hm⟩ := exists_modRM_of_withModRM h
      split at hi
      · cases hi
      · split at hi
        · rename_i hrow
          cases hi
          rw [length_encode_of_evexRow hrow]
          simp only [List.length_cons]
          omega
        · cases hi
    · cases h
  · cases h

/-- The bytes that decode to an instruction are at least as many as its encoding has. -/
theorem length_encode_le_of_decode {mode : Mode} {bs : List Byte} {i : Instr}
    (h : decode mode bs = .instr i) : (encode i).length ≤ bs.length := by
  have hlen := length_takePrefixes mode bs
  unfold decode at h
  generalize takePrefixes mode bs = r at h hlen
  obtain ⟨p, _ | ⟨b, rest⟩⟩ := r
  · cases h
  · dsimp only at h hlen
    suffices (encode i).length ≤ p.length + 1 + rest.length by
      rw [List.length_cons] at hlen
      omega
    split_ifs at h
    · exact length_encode_le_of_decodeLeg h
    · exact length_encode_le_of_decodeVex2 h
    · exact length_encode_le_of_decodeVex3 h
    · exact length_encode_le_of_decodeEvex h

/-! ## The address of a fetched byte -/

theorem law_sub_one (s : State) : s.law - 1 = if s.cfg.la57 then 56 else 47 := by
  unfold State.law
  split <;> rfl

/-- The canonical lower half ends at 2^47 or 2^56 (20_memory.md R42). -/
theorem lowerHalf_le (s : State) : 2 ^ (s.law - 1) ≤ 2 ^ 56 := by
  rw [law_sub_one]
  split <;> decide

theorem toNat_rip_add {s : State} {j : Nat} (h : s.rip.toNat + j < 2 ^ 64) :
    (s.rip + BitVec.ofNat 64 j).toNat = s.rip.toNat + j := by
  rw [BitVec.toNat_add, BitVec.toNat_ofNat, Nat.add_mod_mod, Nat.mod_eq_of_lt h]

theorem codeLinear_of_mode64 {s : State} (hm : s.mode = .mode64) (j : Nat) :
    s.codeLinear j = s.codeLinear64 j := by
  unfold State.codeLinear
  rw [hm]

theorem codeLinear_of_mode_ne {s : State} (hm : s.mode ≠ .mode64) (j : Nat) :
    s.codeLinear j = s.codeLinear32 j := by
  unfold State.codeLinear
  cases h : s.mode
  · exact (hm h).elim
  · rfl
  · rfl

theorem codeLinear64_overflow {s : State} {j : Nat} (h : 2 ^ 64 ≤ s.rip.toNat + j) :
    s.codeLinear64 j = .error (.refuse .ripOverflow) := if_pos h

theorem codeLinear64_nonCanonical {s : State} {j : Nat} (h : s.rip.toNat + j < 2 ^ 64)
    (hc : s.canonical (s.rip + BitVec.ofNat 64 j) = false) :
    s.codeLinear64 j = .error (.exn .fetchNonCanonical) := by
  rw [State.codeLinear64, if_neg (Nat.not_le.2 h)]
  simp [hc]

theorem codeLinear64_upperHalf {s : State} {j : Nat} (h : s.rip.toNat + j < 2 ^ 64)
    (hc : s.canonical (s.rip + BitVec.ofNat 64 j) = true) (hu : 2 ^ (s.law - 1) ≤ s.rip.toNat + j) :
    s.codeLinear64 j = .error (.refuse .upperHalfProgram) := by
  rw [State.codeLinear64, if_neg (Nat.not_le.2 h)]
  simp [hc, toNat_rip_add h, hu]

theorem codeLinear64_lowerHalf {s : State} {j : Nat} (h : s.rip.toNat + j < 2 ^ (s.law - 1)) :
    s.codeLinear64 j = .ok (s.rip + BitVec.ofNat 64 j) := by
  have h64 : s.rip.toNat + j < 2 ^ 64 := by have := lowerHalf_le s; omega
  have hc : s.canonical (s.rip + BitVec.ofNat 64 j) = true := by
    rw [canonical_iff, toNat_rip_add h64]
    exact .inl h
  rw [State.codeLinear64, if_neg (Nat.not_le.2 h64)]
  simp [hc, toNat_rip_add h64, Nat.not_le.2 h]

/-- In 64-bit mode only bytes of the canonical lower half have an address to fetch from
(10_state.md R18). -/
theorem lowerHalf_of_codeLinear64_ok {s : State} {j : Nat} {la : Word64}
    (h : s.codeLinear64 j = .ok la) : s.rip.toNat + j < 2 ^ (s.law - 1) := by
  by_contra hu
  by_cases h64 : s.rip.toNat + j < 2 ^ 64
  · cases hc : s.canonical (s.rip + BitVec.ofNat 64 j) with
    | false => rw [codeLinear64_nonCanonical h64 hc] at h; cases h
    | true => rw [codeLinear64_upperHalf h64 hc (Nat.not_lt.1 hu)] at h; cases h
  · rw [codeLinear64_overflow (Nat.not_lt.1 h64)] at h; cases h

theorem codeLinear32_overflow {s : State} {j : Nat} (h : 2 ^ ipBits s.mode ≤ s.rip.toNat + j + 1) :
    s.codeLinear32 j = .error (.refuse .ripOverflow) := if_pos h

/-- Outside 64-bit mode a byte has an address to fetch from when the instruction pointer behind it does not
overflow and the byte lies within the limit of CS (10_state.md R17; log 16). -/
theorem codeLinear32_ok_iff {s : State} {j : Nat} {la : Word64} :
    s.codeLinear32 j = .ok la ↔
      s.rip.toNat + j + 1 < 2 ^ ipBits s.mode ∧ s.rip.toNat + j ≤ s.segs.cs.limit.toNat ∧
        la.toNat = (s.segs.cs.base.toNat + s.rip.toNat + j) % 2 ^ 32 := by
  have hla : ((s.segs.cs.base + BitVec.ofNat 64 (s.rip.toNat + j)).setWidth 32).setWidth 64 = la ↔
      la.toNat = (s.segs.cs.base.toNat + s.rip.toNat + j) % 2 ^ 32 := by
    rw [← BitVec.toNat_inj, eq_comm]
    simp only [BitVec.toNat_setWidth, BitVec.toNat_add, BitVec.toNat_ofNat]
    omega
  unfold State.codeLinear32
  dsimp only
  split_ifs with ho hl
  · simp [Nat.not_lt.2 ho]
  · simp [Nat.not_le.2 hl]
  · simp only [Except.ok.injEq, hla, Nat.not_le.1 ho, Nat.not_lt.1 hl, true_and]

/-! ## A fetched byte -/

theorem codeByte_of_codeLinear_error {s : State} {j : Nat} {st : Stop}
    (h : s.codeLinear j = .error st) : s.codeByte j = .error st := by
  simp [State.codeByte, State.codeAddr, h]

theorem codeByte_of_frame {s : State} {j : Nat} {la : Word64} {f : BitVec 52}
    (hla : s.codeLinear j = .ok la) (hf : s.pageAnswer (pageOf la) .read = .frame f)
    (ht : s.isText (inFrame f la) = true) : s.codeByte j = .ok (s.mem.read (inFrame f la)) := by
  simp [State.codeByte, State.codeAddr, hla, State.translate, hf, ht]

/-- A step whose first byte cannot be fetched ends for the reason of that byte. -/
theorem step_of_codeByte_zero_error {s : State} {st : Stop} (h : s.codeByte 0 = .error st) :
    step s = st.outcome s := by
  obtain ⟨hend, hget⟩ := fetched_end s
  have hnil : s.fetched.1 = [] := by
    by_contra hne
    have := hget 0 (List.length_pos_iff.2 hne)
    rw [h] at this
    cases this
  have hst : s.fetched.2 = st := by
    rw [hnil, List.length_nil, h] at hend
    cases hend
    rfl
  have hf : s.fetchInstr = .error st := by
    unfold State.fetchInstr
    rw [hnil, ← hst]
    rfl
  unfold step
  rw [hf]

theorem fetchStops_of_codeLinear_error {s : State} {j : Nat} {st : Stop}
    (h : s.codeLinear j = .error st) :
    s.codeByte j = .error st ∧ (j = 0 → step s = st.outcome s) := by
  have hb := codeByte_of_codeLinear_error h
  refine ⟨hb, ?_⟩
  rintro rfl
  exact step_of_codeByte_zero_error hb

/-! ## The statements about fetched bytes -/

theorem ipBits_of_mode_ne {mode : Mode} (hm : mode ≠ .mode64) :
    ipBits mode = if mode = .mode32 then 32 else 16 := by
  cases mode
  · exact (hm rfl).elim
  · rfl
  · rfl

/-- Settles O17. -/
theorem fetchedByte : Obligations.FetchedByte := by
  intro s j f la h64 hOther hf ht
  refine codeByte_of_frame ?_ hf ht
  by_cases hm : s.mode = .mode64
  · obtain ⟨hlow, hla⟩ := h64 hm
    rw [← law_sub_one] at hlow
    have hlt : s.rip.toNat + j < 2 ^ 64 := by have := lowerHalf_le s; omega
    rw [codeLinear_of_mode64 hm, codeLinear64_lowerHalf hlow,
      BitVec.eq_of_toNat_eq (hla.trans (toNat_rip_add hlt).symm)]
  · obtain ⟨hip, hlim, hla⟩ := hOther hm
    rw [← ipBits_of_mode_ne hm] at hip
    rw [codeLinear_of_mode_ne hm, codeLinear32_ok_iff]
    exact ⟨hip, hlim, hla⟩

/-- Settles O18. -/
theorem fetchOutsideLowerHalf : Obligations.FetchOutsideLowerHalf := by
  intro s j
  refine ⟨fun hm hlt hc => ?nonCanonical, fun hm hlt hc hu => ?upperHalf, fun ho => ?overflow⟩
  case nonCanonical =>
    refine fetchStops_of_codeLinear_error (st := .exn .fetchNonCanonical) ?_
    rw [codeLinear_of_mode64 hm, codeLinear64_nonCanonical hlt hc]
  case upperHalf =>
    refine fetchStops_of_codeLinear_error (st := .refuse .upperHalfProgram) ?_
    have hge : 2 ^ 63 ≤ (s.rip + BitVec.ofNat 64 j).toNat := 
      BitVec.toNat_ge_of_msb_true ((BitVec.msb_eq_getLsbD_last _).trans hu)
    rw [toNat_rip_add hlt] at hge
    have := lowerHalf_le s
    rw [codeLinear_of_mode64 hm, codeLinear64_upperHalf hlt hc (by omega)]
  case overflow =>
    refine fetchStops_of_codeLinear_error (st := .refuse .ripOverflow) ?_
    rcases ho with ⟨hm, h⟩ | ⟨hm, h⟩ | ⟨hm, h⟩
    · rw [codeLinear_of_mode64 hm, codeLinear64_overflow h]
    · rw [codeLinear_of_mode_ne (by simp [hm]), codeLinear32_overflow (by rw [hm]; exact h)]
    · rw [codeLinear_of_mode_ne (by simp [hm]), codeLinear32_overflow (by rw [hm]; exact h)]

/-! ## The invariant -/

theorem ripFits_iff (s : State) :
    RipFits s ↔
      (s.mode = .mode64 → s.rip.toNat ≤ 2 ^ (s.law - 1)) ∧
        (s.mode ≠ .mode64 → s.rip.toNat < 2 ^ ipBits s.mode) := by
  unfold RipFits
  cases s.mode <;> simp

theorem ripFits_congr {s t : State} (hmode : t.mode = s.mode) (hlaw : t.law = s.law)
    (hrip : t.rip = s.rip) : RipFits t ↔ RipFits s := by
  unfold RipFits
  rw [hmode, hlaw, hrip]

/-- Behind a fetched byte the instruction pointer fits: a fetch stops before it would leave its bounds
(10_state.md R17, R18). -/
theorem ripFits_advance_of_codeByte {s : State} {j : Nat} {b : Byte} (h : s.codeByte j = .ok b) :
    RipFits (s.advance (j + 1)) := by
  obtain ⟨la, hla, -⟩ := codeByte_linear s j b h
  have hrip (hlt : s.rip.toNat + j + 1 < 2 ^ 64) : (s.advance (j + 1)).rip.toNat = s.rip.toNat + j + 1 :=
    toNat_rip_add hlt
  rw [ripFits_iff, mode_advance, law_advance]
  refine ⟨fun hm => ?_, fun hm => ?_⟩
  · rw [codeLinear_of_mode64 hm] at hla
    have hlow := lowerHalf_of_codeLinear64_ok hla
    have := lowerHalf_le s
    rw [hrip (by omega)]
    omega
  · rw [codeLinear_of_mode_ne hm] at hla
    obtain ⟨hip, -, -⟩ := codeLinear32_ok_iff.1 hla
    have : 2 ^ ipBits s.mode ≤ 2 ^ 64 := by cases s.mode <;> decide
    rw [hrip (by omega)]
    exact hip

theorem length_encode_pos (i : Instr) : 0 < (encode i).length := by
  rw [← move_len]
  cases i <;> simp [Instr.move, Instr.view, View.move, Move.leg, Move.vex2, Move.vex3, Move.evex]

/-- An instruction that completes keeps the canonical form of memory. -/
theorem exec_keeps_mem_wf {i : Instr} {s t : State} (h : exec i s = .next t) (hw : s.mem.wf = true) :
    t.mem.wf = true := by
  obtain ⟨-, ⟨d, v, rfl⟩ | ⟨o, m, -, -, hm, rfl⟩⟩ := exec_next i s t h
  · exact hw
  · exact storeOperand_wf _ _ _ _ _ hm hw

/-- Where an instruction that completes leaves the instruction pointer, it fits as it does behind the
instruction. -/
theorem exec_ripFits_iff {i : Instr} {s t : State} (h : exec i s = .next t) :
    RipFits t ↔ RipFits (s.advance (encode i).length) := by
  rw [← move_len]
  obtain ⟨-, ⟨d, v, rfl⟩ | ⟨o, m, -, -, -, rfl⟩⟩ := exec_next i s t h
  · exact ripFits_congr rfl rfl rfl
  · exact ripFits_congr rfl rfl rfl

/-- Settles O50: memory by the store, and the instruction pointer because the last byte of the instruction
was fetched. -/
theorem stepKeepsInvariant : Obligations.StepKeepsInvariant := by
  rintro s t ⟨hw, -⟩ h
  obtain ⟨i, hi, he⟩ := step_next s t h
  refine ⟨exec_keeps_mem_wf he hw, (exec_ripFits_iff he).2 ?_⟩
  have hle := length_encode_le_of_decode hi
  have hpos := length_encode_pos i
  obtain ⟨-, hget⟩ := fetched_end s
  have hfit := ripFits_advance_of_codeByte (hget ((encode i).length - 1) (by omega))
  rwa [Nat.sub_add_cancel hpos] at hfit

/-! ## The frame of an instruction -/

/-- An instruction that completes changes the vector registers, memory and `rip` only
(10_state.md R13). -/
theorem exec_sameButMoved {i : Instr} {s t : State} (h : exec i s = .next t) : SameButMoved i s t := by
  unfold SameButMoved
  rw [← move_len]
  obtain ⟨-, ⟨d, v, rfl⟩ | ⟨o, m, -, -, -, rfl⟩⟩ := exec_next i s t h
  · rfl
  · rfl

/-- An instruction that completes leaves the vector registers or memory as they are. -/
theorem exec_keeps_zmm_or_mem {i : Instr} {s t : State} (h : exec i s = .next t) :
    t.zmm = s.zmm ∨ t.mem = s.mem := by
  obtain ⟨-, ⟨d, v, rfl⟩ | ⟨o, m, -, -, -, rfl⟩⟩ := exec_next i s t h
  · exact .inr rfl
  · exact .inl rfl

/-- Settles O43. -/
theorem onlyMovedStateChanges : Obligations.OnlyMovedStateChanges := by
  intro i s t h
  exact ⟨exec_sameButMoved h, (exec_keeps_zmm_or_mem h).imp_right fun hm a => by rw [hm]⟩

theorem exec_keeps_k {i : Instr} {s t : State} (h : exec i s = .next t) : t.k = s.k := by
  rw [exec_sameButMoved h]

theorem exec_keeps_rflags {i : Instr} {s t : State} (h : exec i s = .next t) : t.rflags = s.rflags := by
  rw [exec_sameButMoved h]

theorem exec_keeps_mxcsr {i : Instr} {s t : State} (h : exec i s = .next t) : t.mxcsr = s.mxcsr := by
  rw [exec_sameButMoved h]

/-! ## Opmask registers and flags: what an instruction does not read -/

/-- The state with other opmask registers, RFLAGS and MXCSR. -/
def withMasksAndFlags (k : Vector Word64 8) (rflags : Word64) (mxcsr : BitVec 32) (s : State) : State :=
  { s with k := k, rflags := rflags, mxcsr := mxcsr }

/-- An outcome with its next state, if it has one, changed. -/
def mapNext (f : State → State) :
    Host.Outcome State Fault Refusal → Host.Outcome State Fault Refusal
  | .next s => .next (f s)
  | .fault r => .fault r
  | .refused r => .refused r

@[simp] theorem mapNext_next (f : State → State) (s : State) : mapNext f (.next s) = .next (f s) := rfl

@[simp] theorem mapNext_raise (f : State → State) (c : Cause) (s : State) :
    mapNext f (raise c s) = raise c s := rfl

@[simp] theorem mapNext_outcome (f : State → State) (st : Stop) (s : State) :
    mapNext f (st.outcome s) = st.outcome s := by
  cases st <;> rfl

theorem mergeElems_congr {ew n : Nat} {mask mask' : Nat → Bool} (z : Bool) (src old : Vec)
    (h : ∀ j < n, mask' j = mask j) :
    mergeElems ew mask' z src old n = mergeElems ew mask z src old n := by
  induction n with
  | zero => rfl
  | succ n ih => rw [mergeElems, mergeElems, ih fun j hj => h j (by omega), h n (by omega)]

section
variable {s : State} {k : Vector Word64 8} {rflags : Word64} {mxcsr : BitVec 32}

theorem zmmAt_withMasksAndFlags (n : BitVec 5) :
    (withMasksAndFlags k rflags mxcsr s).zmmAt n = s.zmmAt n := rfl

theorem outcome_withMasksAndFlags (st : Stop) :
    st.outcome (withMasksAndFlags k rflags mxcsr s) = st.outcome s := by
  cases st <;> rfl

theorem elemAddrs_withMasksAndFlags (access : Access) (la : Word64) (n : Nat) (js : List Nat) :
    (withMasksAndFlags k rflags mxcsr s).elemAddrs access la n js = s.elemAddrs access la n js := by
  induction js with
  | nil => rfl
  | cons j js ih =>
    rw [State.elemAddrs, State.elemAddrs, ih]
    rfl

/-! ### With RFLAGS.VM kept: the mode and the checks -/

variable (hvm : rflags.getLsbD 17 = s.rflags.getLsbD 17)
include hvm

theorem opMode_withMasksAndFlags : (withMasksAndFlags k rflags mxcsr s).opMode = s.opMode := by
  unfold State.opMode State.flagVM
  rw [← hvm]
  rfl

theorem mode_withMasksAndFlags : (withMasksAndFlags k rflags mxcsr s).mode = s.mode := by
  unfold State.mode
  rw [opMode_withMasksAndFlags hvm]
  rfl

theorem enabled_withMasksAndFlags (fam : Family) (vl : VecLen) :
    (withMasksAndFlags k rflags mxcsr s).enabled fam vl = s.enabled fam vl := by
  unfold State.enabled State.vexMode
  rw [opMode_withMasksAndFlags hvm]
  rfl

variable (mv : Move)

theorem decodeFault_withMasksAndFlags :
    mv.decodeFault (withMasksAndFlags k rflags mxcsr s) = mv.decodeFault s := by
  unfold Move.decodeFault
  rw [enabled_withMasksAndFlags hvm]
  rfl

variable (o : MemOp)

theorem effAddr_withMasksAndFlags :
    mv.effAddr (withMasksAndFlags k rflags mxcsr s) o = mv.effAddr s o := by
  have hraw : mv.rawAddr (withMasksAndFlags k rflags mxcsr s) o = mv.rawAddr s o := by
    unfold Move.rawAddr
    rw [mode_withMasksAndFlags hvm]
    rfl
  unfold Move.effAddr
  rw [hraw, mode_withMasksAndFlags hvm]

theorem seg_withMasksAndFlags : mv.seg (withMasksAndFlags k rflags mxcsr s) o = mv.seg s o := by
  unfold Move.seg
  rw [mode_withMasksAndFlags hvm]

theorem linear_withMasksAndFlags :
    mv.linear (withMasksAndFlags k rflags mxcsr s) o = mv.linear s o := by
  unfold Move.linear State.segBase
  rw [mode_withMasksAndFlags hvm, seg_withMasksAndFlags hvm, effAddr_withMasksAndFlags hvm]
  rfl

theorem operandAddr_withMasksAndFlags (access : Access) :
    mv.operandAddr (withMasksAndFlags k rflags mxcsr s) o access = mv.operandAddr s o access := by
  have hseg : mv.segFault (withMasksAndFlags k rflags mxcsr s) o access = mv.segFault s o access := by
    unfold Move.segFault
    rw [mode_withMasksAndFlags hvm, seg_withMasksAndFlags hvm, effAddr_withMasksAndFlags hvm,
      linear_withMasksAndFlags hvm, opMode_withMasksAndFlags hvm]
    rfl
  unfold Move.operandAddr Move.misaligned
  rw [hseg, linear_withMasksAndFlags hvm]

/-! ### With the mask bits of the elements kept: the operands and the result -/

variable (hmask : ∀ j < mv.kl, mv.maskBit (withMasksAndFlags k rflags mxcsr s) j = mv.maskBit s j)
include hmask

omit hvm in
theorem enabledElems_withMasksAndFlags :
    mv.enabledElems (withMasksAndFlags k rflags mxcsr s) = mv.enabledElems s :=
  List.filter_congr fun j hj => hmask j (List.mem_range.1 hj)

theorem loadOperand_withMasksAndFlags :
    mv.loadOperand (withMasksAndFlags k rflags mxcsr s) o = mv.loadOperand s o := by
  unfold Move.loadOperand
  simp only [operandAddr_withMasksAndFlags hvm, enabledElems_withMasksAndFlags mv hmask,
    elemAddrs_withMasksAndFlags]
  rfl

theorem storeOperand_withMasksAndFlags (v : Vec) :
    mv.storeOperand (withMasksAndFlags k rflags mxcsr s) o v = mv.storeOperand s o v := by
  unfold Move.storeOperand
  simp only [operandAddr_withMasksAndFlags hvm, enabledElems_withMasksAndFlags mv hmask,
    elemAddrs_withMasksAndFlags]
  rfl

omit hvm in
theorem writeReg_withMasksAndFlags (d : BitVec 5) (v : Vec) :
    mv.writeReg (withMasksAndFlags k rflags mxcsr s) d v =
      withMasksAndFlags k rflags mxcsr (mv.writeReg s d v) := by
  have hnew : mv.newReg (withMasksAndFlags k rflags mxcsr s) d v = mv.newReg s d v := by
    unfold Move.newReg
    rw [mergeElems_congr _ _ _ hmask]
    rfl
  unfold Move.writeReg
  rw [hnew]
  rfl

theorem toReg_withMasksAndFlags :
    mv.toReg (withMasksAndFlags k rflags mxcsr s) =
      mapNext (withMasksAndFlags k rflags mxcsr) (mv.toReg s) := by
  unfold Move.toReg
  rw [decodeFault_withMasksAndFlags hvm]
  cases mv.decodeFault s with
  | some c => rfl
  | none =>
    cases mv.rm with
    | reg n => exact congrArg _ (writeReg_withMasksAndFlags mv hmask _ _)
    | mem o =>
      dsimp only
      rw [loadOperand_withMasksAndFlags hvm mv o hmask]
      cases mv.loadOperand s o with
      | error st => simp [outcome_withMasksAndFlags]
      | ok v => exact congrArg _ (writeReg_withMasksAndFlags mv hmask _ _)

theorem toRm_withMasksAndFlags :
    mv.toRm (withMasksAndFlags k rflags mxcsr s) =
      mapNext (withMasksAndFlags k rflags mxcsr) (mv.toRm s) := by
  unfold Move.toRm
  rw [decodeFault_withMasksAndFlags hvm]
  cases mv.decodeFault s with
  | some c => rfl
  | none =>
    cases mv.rm with
    | reg n => exact congrArg _ (writeReg_withMasksAndFlags mv hmask _ _)
    | mem o =>
      dsimp only
      rw [zmmAt_withMasksAndFlags, storeOperand_withMasksAndFlags hvm mv o hmask]
      cases mv.storeOperand s o (s.zmmAt mv.regNum) with
      | error st => simp [outcome_withMasksAndFlags]
      | ok m => rfl

end

/-- With other opmask registers and flags that agree on the selected mask bits and RFLAGS.VM, an instruction
does the same, and leaves them as they are (10_state.md R15, R19). -/
theorem exec_withMasksAndFlags {i : Instr} {s : State} {k : Vector Word64 8} {rflags : Word64}
    {mxcsr : BitVec 32} (hvm : rflags.getLsbD 17 = s.rflags.getLsbD 17)
    (hmask : ∀ j < i.move.kl,
      i.move.maskBit (withMasksAndFlags k rflags mxcsr s) j = i.move.maskBit s j) :
    exec i (withMasksAndFlags k rflags mxcsr s) =
      mapNext (withMasksAndFlags k rflags mxcsr) (exec i s) := by
  rw [exec_eq, exec_eq]
  split
  · exact toRm_withMasksAndFlags hvm _ hmask
  · exact toReg_withMasksAndFlags hvm _ hmask

theorem maskBit_withMasksAndFlags {i : Instr} {s : State} {k : Vector Word64 8} {rflags : Word64}
    {mxcsr : BitVec 32} {j : Nat}
    (h : ∀ e, i.view.fmt = .evex e → e.aaa ≠ 0 →
      (State.kAt { s with k := k } e.aaa).getLsbD j = (s.kAt e.aaa).getLsbD j) :
    i.move.maskBit (withMasksAndFlags k rflags mxcsr s) j = i.move.maskBit s j := by
  rw [move_maskBit, move_maskBit]
  unfold View.mask
  split
  · rename_i e he
    by_cases ha : e.aaa = 0
    · simp [ha]
    · exact congrArg _ (h e he ha)
  · rfl

/-- Settles O44: the case of `exec_withMasksAndFlags` with RFLAGS and MXCSR as they are. -/
theorem opmaskReadOnlySelected : Obligations.OpmaskReadOnlySelected := by
  intro i s k' hk
  have hexec : exec i { s with k := k' } = mapNext (withMasksAndFlags k' s.rflags s.mxcsr) (exec i s) :=
    exec_withMasksAndFlags rfl fun j hj =>
      maskBit_withMasksAndFlags fun e he ha => hk e he ha j (move_kl i ▸ hj)
  refine ⟨fun t h => ?_, fun f h => ?_, fun r h => ?_⟩
  · refine ⟨exec_keeps_k h, ?_⟩
    rw [hexec, h, mapNext_next, withMasksAndFlags, ← exec_keeps_rflags h, ← exec_keeps_mxcsr h]
  · rw [hexec, h]; rfl
  · rw [hexec, h]; rfl

/-- Settles O45: the case of `exec_withMasksAndFlags` with the opmask registers as they are. -/
theorem flagsNotUsed : Obligations.FlagsNotUsed := by
  intro i s rflags' mxcsr' hvm
  have hexec : exec i { s with rflags := rflags', mxcsr := mxcsr' } =
      mapNext (withMasksAndFlags s.k rflags' mxcsr') (exec i s) :=
    exec_withMasksAndFlags hvm fun j _ => maskBit_withMasksAndFlags fun _ _ _ => rfl
  refine ⟨fun t h => ?_, fun f h => ?_, fun r h => ?_⟩
  · refine ⟨?_, exec_keeps_rflags h, exec_keeps_mxcsr h⟩
    rw [hexec, h, mapNext_next, withMasksAndFlags, ← exec_keeps_k h]
  · rw [hexec, h]; rfl
  · rw [hexec, h]; rfl

/-! ## The mode -/

theorem opMode_long64 {s : State} (hlma : s.eferLMA = true) (hl : s.csL = true) :
    s.opMode = .long64 := by
  simp [State.opMode, hlma, hl]

theorem opMode_compatibility {s : State} (hlma : s.eferLMA = true) (hl : s.csL = false) :
    s.opMode = .compatibility := by
  simp [State.opMode, hlma, hl]

theorem opMode_protect {s : State} (hlma : s.eferLMA = false) (hpe : s.cr0PE = true)
    (hvm : s.flagVM = false) : s.opMode = .protect := by
  simp [State.opMode, hlma, hpe, hvm]

theorem opMode_virtual8086 {s : State} (hlma : s.eferLMA = false) (hpe : s.cr0PE = true)
    (hvm : s.flagVM = true) : s.opMode = .virtual8086 := by
  simp [State.opMode, hlma, hpe, hvm]

/-- Settles O13, by the rows of the table of R21. -/
theorem modeOfMachine : Obligations.ModeOfMachine := by
  intro s
  refine ⟨fun hlma hl => ?long, fun hlma hl => ?compatibility, fun hlma hpe hvm => ?protect,
    fun hlma hpe hvm => ?virtual8086, fun hlma hpe => ?real⟩
  case long => rw [State.mode, opMode_long64 hlma hl]
  case compatibility => rw [State.mode, opMode_compatibility hlma hl]
  case protect => rw [State.mode, opMode_protect hlma hpe hvm]
  case virtual8086 => rw [State.mode, opMode_virtual8086 hlma hpe hvm]
  case real => rw [State.mode, (real_iff s).2 ⟨hlma, hpe⟩]

/-! ## Reset -/

theorem opMode_reset : State.reset.opMode = .real := (real_iff _).2 ⟨by decide, by decide⟩

theorem mode_reset : State.reset.mode = .mode16 := by
  unfold State.mode
  rw [opMode_reset]

theorem gprAt_reset (n : BitVec 4) : State.reset.gprAt n = 0 := Vector.getElem_replicate ..

/-- Settles O51: no memory is listed, and `rip` is FFF0H in 16-bit code. -/
theorem resetHasInvariant : Obligations.ResetHasInvariant := by
  refine ⟨rfl, (ripFits_iff _).2 ?_⟩
  rw [mode_reset]
  exact ⟨nofun, fun _ => by decide⟩

/-- Settles O54. -/
theorem resetValues : Obligations.ResetValues :=
  ⟨fun _ => Vector.getElem_replicate .., fun _ => Vector.getElem_replicate .., fun n _ => gprAt_reset n,
    rfl, rfl, rfl, rfl, rfl, rfl, rfl, rfl, opMode_reset⟩

/-- A check of decoding that fails raises its exception. -/
theorem exec_of_decodeFault {i : Instr} {s : State} {c : Cause} (h : i.move.decodeFault s = some c) :
    exec i s = raise c s := by
  rw [exec_eq]
  unfold Move.toRm Move.toReg
  simp only [h, ite_self]

/-- A form that is not enabled raises #UD, if it is not too long (60_exceptions.md R166, R173). -/
theorem exec_of_not_enabled {i : Instr} {s : State} (hlen : (encode i).length ≤ 15)
    (hen : s.enabled i.move.fam i.move.vl = false) :
    ∃ c, exec i s = .fault (.exception c 6 none s.rip none) := by
  have hshort : ¬ maxInstrBytes < i.move.len := by rw [move_len]; exact Nat.not_lt.2 hlen
  cases hv : i.move.vvvvOk with
  | false => exact ⟨.vvvvUsed, exec_of_decodeFault (by simp [Move.decodeFault, hshort, hv])⟩
  | true =>
    cases hl : i.move.encOk with
    | false =>
      exact ⟨.illegalEncoding, exec_of_decodeFault (by simp [Move.decodeFault, hshort, hv, hl])⟩
    | true =>
      exact ⟨.notEnabled, exec_of_decodeFault (by simp [Move.decodeFault, hshort, hv, hl, hen])⟩

/-- Right after reset no form is enabled: CR4.OSFXSR and CR4.OSXSAVE are 0. -/
theorem enabled_reset (fam : Family) (vl : VecLen) : State.reset.enabled fam vl = false := by
  have hfxsr : State.reset.cr4OSFXSR = false := by decide
  have hxsave : State.reset.cr4OSXSAVE = false := by decide
  cases fam <;> simp [State.enabled, hfxsr, hxsave]

/-- Settles O55. -/
theorem resetEveryFormUndefined : Obligations.ResetEveryFormUndefined := fun _ hlen =>
  exec_of_not_enabled hlen (enabled_reset _ _)

/-! ## INIT -/

theorem getLsbD_eq_decide {v : Word64} (p : Nat → Prop) [DecidablePred p]
    (hlow : ∀ b < 64, v.getLsbD b = decide (p b)) (hp : ∀ b, p b → b < 64) (b : Nat) :
    v.getLsbD b = decide (p b) := by
  by_cases hb : b < 64
  · exact hlow b hb
  · rw [BitVec.getLsbD_of_ge _ _ (Nat.not_lt.1 hb), decide_eq_false fun h => hb (hp b h)]

theorem getLsbD_cdNw (b : Nat) : (0x60000000#64).getLsbD b = decide (b = 29 ∨ b = 30) :=
  getLsbD_eq_decide (fun b => b = 29 ∨ b = 30) (by decide) (fun b h => by omega) b

theorem getLsbD_et (b : Nat) : (0x10#64).getLsbD b = decide (b = 4) :=
  getLsbD_eq_decide (fun b => b = 4) (by decide) (fun b h => by omega) b

/-- INIT keeps CD and NW of CR0, sets ET and clears the other bits (10_state.md R26). -/
theorem getLsbD_afterInit_cr0 (s : State) (b : Nat) :
    s.afterInit.cr0.getLsbD b = if b = 29 ∨ b = 30 then s.cr0.getLsbD b else b == 4 := by
  rw [afterInit_cr0, BitVec.getLsbD_or, BitVec.getLsbD_and, getLsbD_et, getLsbD_cdNw]
  split
  next h =>
    have h4 : b ≠ 4 := by omega
    simp [h, h4]
  next h => simp [h, Bool.beq_eq_decide_eq]

theorem opMode_afterInit (s : State) : s.afterInit.opMode = .real :=
  (real_iff _).2 ⟨by rw [afterInit_efer]; decide, by rw [getLsbD_afterInit_cr0]; rfl⟩

/-- Settles O56. -/
theorem initValues : Obligations.InitValues := fun s =>
  ⟨rfl, rfl, rfl, rfl, rfl, fun n _ => gprAt_reset n, rfl, rfl, rfl, getLsbD_afterInit_cr0 s, rfl, rfl,
    opMode_afterInit s⟩

end Sys2Proof.Proofs

/-! The proofs of the statements of 20_memory.md: the address of a memory operand, translation, values in
memory, and what refusals and masked-off elements do. -/

namespace Sys2Proof.Proofs

open Sys2Proof.Machine Sys2Proof.Laws

/-! ## The effective address -/

theorem addrBits_eq (mode : Mode) (p : List Prefix) :
    addrBits mode p =
      if mode = .mode64 then if .addrsize ∈ p then 32 else 64
      else if mode = .mode32 then if .addrsize ∈ p then 16 else 32
      else if .addrsize ∈ p then 32 else 16 := by
  cases mode <;> simp [addrBits]

theorem addrBits_le (mode : Mode) (p : List Prefix) : addrBits mode p ≤ 64 := by
  rw [addrBits_eq]
  split_ifs <;> decide

theorem toNat_effAddr_lt (mv : Move) (s : State) (o : MemOp) :
    (mv.effAddr s o).toNat < 2 ^ addrBits s.mode mv.pfx := by
  rw [Move.effAddr, BitVec.toNat_setWidth]
  exact (Nat.mod_le ..).trans_lt (BitVec.isLt _)

theorem setWidth_effAddr (mv : Move) (s : State) (o : MemOp) :
    (mv.effAddr s o).setWidth (addrBits s.mode mv.pfx) =
      (mv.rawAddr s o).setWidth (addrBits s.mode mv.pfx) := by
  rw [Move.effAddr, BitVec.setWidth_setWidth_of_le _ (addrBits_le ..), BitVec.setWidth_eq]

/-! ### Displacement and index at the address size `A` -/

section
variable {A : Nat} (hA : A ≤ 64)
include hA

theorem setWidth_signExtend {w : Nat} (d : BitVec w) :
    (d.signExtend 64).setWidth A = d.signExtend A := by
  ext b hb
  have h64 : b < 64 := by omega
  simp [BitVec.getElem_signExtend, h64]

theorem setWidth_disp (mv : Move) (d : Disp) :
    (mv.disp d).setWidth A = dispAtWidth A mv.dispScale d := by
  cases d with
  | none => exact BitVec.setWidth_zero ..
  | d8 d =>
    rw [Move.disp, BitVec.setWidth_mul _ _ hA, setWidth_signExtend hA,
      BitVec.setWidth_ofNat_of_le hA]
    rfl
  | d32 d => exact setWidth_signExtend hA d

theorem setWidth_indexValue (mv : Move) (s : State) (scale : BitVec 2) (x : BitVec 3) :
    (mv.indexValue s scale x).setWidth A =
      if x = 4 ∧ mv.x = false then 0
      else (s.gprAt (mv.indexNum x)).setWidth A <<< scale.toNat := by
  rw [Move.indexValue]
  split
  · exact BitVec.setWidth_zero ..
  · exact BitVec.setWidth_shiftLeft_of_le hA

end

/-- Settles O7: the address is a sum of 64 bits, and cutting it to the address size cuts its terms. -/
theorem effectiveAddress : Obligations.EffectiveAddress := by
  intro i s o A scale index
  have hbits : addrBits s.mode i.move.pfx = A := by rw [addrBits_eq, move_pfx]
  have hA : A ≤ 64 := hbits ▸ addrBits_le ..
  have hraw : (i.move.effAddr s o).setWidth A = (i.move.rawAddr s o).setWidth A :=
    hbits ▸ setWidth_effAddr ..
  have hdisp (d : Disp) : (i.move.disp d).setWidth A = dispAtWidth A scale d := by
    have hscale : i.move.dispScale = scale := by cases i <;> rfl
    rw [setWidth_disp hA, hscale]
  have hindex (sc : BitVec 2) (x : BitVec 3) :
      (i.move.indexValue s sc x).setWidth A = index sc x := setWidth_indexValue hA ..
  refine ⟨hbits ▸ toNat_effAddr_lt .., ?_⟩
  cases o with
  | base rm d => rw [hraw, Move.rawAddr, BitVec.setWidth_add _ _ hA, hdisp]
  | ripOrAbs d =>
    refine ⟨fun hm => ?_, fun hm => ?_⟩
    · rw [hraw, Move.rawAddr, hm, move_len]
    · rw [hraw, Move.rawAddr]
      cases h : s.mode
      · exact (hm h).elim
      · exact BitVec.setWidth_setWidth_of_le _ hA
      · exact BitVec.setWidth_setWidth_of_le _ hA
  | sib sc x b d =>
    rw [hraw, Move.rawAddr, BitVec.setWidth_add _ _ hA, BitVec.setWidth_add _ _ hA, hindex, hdisp]
  | sibNoBase sc x d =>
    rw [hraw, Move.rawAddr, BitVec.setWidth_add _ _ hA, hindex, setWidth_signExtend hA]
  | base16 rm d => trivial
  | abs16 d => trivial

/-! ## The segment -/

/-- The overrides that count: in 64-bit mode FS and GS, elsewhere all six (20_memory.md R41). -/
theorem overrideOf_eq_none_iff (mode : Mode) (q : Prefix) :
    overrideOf mode q = none ↔
      ¬ if mode = .mode64 then q = .fs ∨ q = .gs else q ∈ segPrefixes.map Prod.fst := by
  cases q <;> cases mode <;> simp [overrideOf, segPrefixes]

theorem overrideOf_of_mem_segPrefixes {mode : Mode} {q : Prefix} {g : SegReg}
    (hq : (q, g) ∈ segPrefixes) (hc : overrideOf mode q ≠ none) : overrideOf mode q = some g := by
  have table : ∀ p ∈ segPrefixes,
      overrideOf mode p.1 ≠ none → overrideOf mode p.1 = some p.2 := by
    cases mode <;> decide
  exact table _ hq hc

theorem seg_of_no_override {mv : Move} {s : State} (o : MemOp)
    (h : ∀ q ∈ mv.pfx, overrideOf s.mode q = none) : mv.seg s o = mv.defaultSeg o := by
  rw [Move.seg, List.filterMap_eq_nil_iff.2 h]
  rfl

theorem seg_of_last_override {mv : Move} {s : State} {before after : List Prefix} {q : Prefix}
    {g : SegReg} (o : MemOp) (hp : mv.pfx = before ++ q :: after) (hq : overrideOf s.mode q = some g)
    (hafter : ∀ r ∈ after, overrideOf s.mode r = none) : mv.seg s o = g := by
  rw [Move.seg, hp, List.filterMap_append, List.filterMap_cons_some hq,
    List.filterMap_eq_nil_iff.2 hafter, List.getLast?_concat]
  rfl

/-- Settles O9. -/
theorem segmentOfOperand : Obligations.SegmentOfOperand := by
  intro i s o counts
  have hnone (q : Prefix) : overrideOf s.mode q = none ↔ ¬ counts q := overrideOf_eq_none_iff ..
  refine ⟨fun h => ?default, fun before after q g hp hq hc hafter => ?override⟩
  case default =>
    rw [seg_of_no_override o fun q hq => (hnone q).2 (h q (move_pfx i ▸ hq))]
    have hbase : ∀ n : BitVec 4, n.toNat ∈ [4, 5] ↔ n = 4 ∨ n = 5 := by decide
    have hbase16 : ∀ n : BitVec 3, n.toNat ∈ [2, 3, 6] ↔ n = 2 ∨ n = 3 ∨ n = 6 := by decide
    cases o <;> simp only [Move.defaultSeg, hbase, hbase16]
  case override =>
    exact seg_of_last_override o ((move_pfx i).trans hp)
      (overrideOf_of_mem_segPrefixes hq fun h => (hnone q).1 h hc)
      fun r hr => (hnone r).2 (hafter r hr)

/-! ## The linear address -/

theorem linear_of_mode64 {mv : Move} {s : State} (o : MemOp) (hm : s.mode = .mode64) :
    mv.linear s o = s.segBase (mv.seg s o) + mv.effAddr s o := by
  rw [Move.linear, hm]

theorem linear_of_mode_ne {mv : Move} {s : State} (o : MemOp) (hm : s.mode ≠ .mode64) :
    mv.linear s o =
      (((s.segs.get (mv.seg s o)).base + mv.effAddr s o).setWidth 32).setWidth 64 := by
  unfold Move.linear State.segBase
  cases h : s.mode
  · exact (hm h).elim
  · rfl
  · rfl

/-- In 64-bit mode only FS and GS have a base (20_memory.md R41). -/
theorem segBase_of_mode64 {s : State} (g : SegReg) (hm : s.mode = .mode64) :
    s.segBase g =
      if g = .fs then s.segs.fs.base else if g = .gs then s.segs.gs.base else 0 := by
  unfold State.segBase
  rw [hm]
  cases g <;> rfl

/-- Settles O10. -/
theorem linearAddress : Obligations.LinearAddress := by
  intro i s o
  refine ⟨fun hm => ?mode64, fun hm => ?other⟩
  case mode64 =>
    rw [linear_of_mode64 o hm, BitVec.toNat_add, segBase_of_mode64 _ hm]
    cases i.move.seg s o <;> rfl
  case other =>
    rw [linear_of_mode_ne o hm]
    simp only [BitVec.toNat_setWidth, BitVec.toNat_add]
    omega

/-! ## Translation -/

/-- When a page rule is one for the page of an address, as the model tests it. -/
theorem pageRule_test_iff (s : State) (la : Word64) (access : Access) (r : PageRule) :
    (r.page == pageOf la && r.access == access && r.cpl == s.cpl) = true ↔
      r.page.toNat = la.toNat / 4096 ∧ r.access = access ∧ r.cpl = s.cpl := by
  simp only [Bool.and_eq_true, beq_iff_eq, ← toNat_pageOf, BitVec.toNat_inj, and_assoc]

/-- Settles O11: the search for a rule finds none, or the first one that applies. -/
theorem translateByRules : Obligations.TranslateByRules := by
  intro s la access applies
  have happlies (r : PageRule) :
      (r.page == pageOf la && r.access == access && r.cpl == s.cpl) = true ↔ applies r :=
    pageRule_test_iff s la access r
  refine ⟨fun hnone => ?identity, fun before r after hrules hr hbefore => ?rule, fun f => ?frame⟩
  case identity =>
    have hans : s.pageAnswer (pageOf la) access = .frame (pageOf la) := by
      rw [State.pageAnswer, List.find?_eq_none.2 fun r hr => (happlies r).not.2 (hnone r hr)]
    have hself : inFrame (pageOf la) la = la.toNat := by
      rw [inFrame_eq, toNat_pageOf]
      omega
    refine ⟨hans, hself, ?_⟩
    rw [State.translate, hans, ← hself]
  case rule =>
    have hfind : s.pageRules.find? (fun r => r.page == pageOf la && r.access == access &&
        r.cpl == s.cpl) = some r :=
      List.find?_eq_some_iff_append.2 ⟨(happlies r).2 hr, before, after, hrules, fun q hq =>
        by rw [Bool.eq_false_iff.2 ((happlies q).not.2 (hbefore q hq)), Bool.not_false]⟩
    have hans : s.pageAnswer (pageOf la) access = r.answer := by rw [State.pageAnswer, hfind]
    refine ⟨hans, ?_⟩
    rw [State.translate, hans]
    cases r.answer <;> rfl
  case frame => rw [inFrame_eq, Nat.mul_comm]

/-! ## Canonical addresses -/

theorem toNat_lt_two_pow_iff {w : Nat} (v : BitVec w) (n : Nat) :
    v.toNat < 2 ^ n ↔ ∀ b, n ≤ b → b < w → v.getLsbD b = false := by
  refine ⟨fun h b hb _ => Nat.testBit_lt_two_pow (h.trans_le (Nat.pow_le_pow_right (by decide) hb)),
    fun h => Nat.lt_pow_two_of_testBit _ fun b hb => ?_⟩
  by_cases hw : b < w
  · exact h b hb hw
  · exact BitVec.getLsbD_of_ge v b (Nat.not_lt.1 hw)

theorem le_toNat_iff {w : Nat} (v : BitVec w) {n : Nat} (hn : n ≤ w) :
    2 ^ w - 2 ^ n ≤ v.toNat ↔ ∀ b, n ≤ b → b < w → v.getLsbD b = true := by
  have hnot : 2 ^ w - 2 ^ n ≤ v.toNat ↔ (~~~v).toNat < 2 ^ n := by
    have := v.isLt
    have := Nat.pow_le_pow_right (n := 2) (by decide) hn
    rw [BitVec.toNat_not]
    omega
  rw [hnot, toNat_lt_two_pow_iff]
  refine forall₃_congr fun b _ hb => ?_
  simp [hb]

/-- Settles O12: bit 63 says in which half the address lies. -/
theorem canonicalBits : Obligations.CanonicalBits := by
  intro s la
  rw [canonical_iff, law_sub_one]
  have hn : (if s.cfg.la57 then 56 else 47) ≤ 63 := by split <;> decide
  generalize (if s.cfg.la57 then 56 else 47) = n at hn
  rw [toNat_lt_two_pow_iff, le_toNat_iff la (by omega)]
  constructor
  · rintro (h | h) b hb hlt
    · rw [h b hb hlt, h 63 hn (by decide)]
    · rw [h b hb hlt, h 63 hn (by decide)]
  · intro h
    cases htop : la.getLsbD 63 with
    | false => exact .inl fun b hb hlt => (h b hb hlt).trans htop
    | true => exact .inr fun b hb hlt => (h b hb hlt).trans htop

/-! ## Values in memory -/

/-- Settles O14, bit by bit. -/
theorem storedValueReadBack : Obligations.StoredValueReadBack := by
  intro m a n v
  refine ⟨fun o k hok => ?inside, fun x hx => ?outside⟩
  case inside =>
    apply BitVec.eq_of_getLsbD_eq
    intro b hb
    have hlt : o + b / 8 < n := by omega
    have hbit : 8 * (o + b / 8) + b % 8 = 8 * o + b := by omega
    have hat : a + o + b / 8 - a = o + b / 8 := by omega
    rw [getLsbD_readLE, read_writeBytes, length_bytesLE, if_pos (by omega), hat,
      bytesLE_getD n v _ hlt]
    simp [hb, hbit, Nat.mod_lt]
  case outside => rw [read_writeBytes, length_bytesLE, if_neg hx]

/-! ## The elements of a memory operand -/

theorem access_of_load {i : Instr} (h : i.view.toRm = false) : i.access = .read := by
  simp [Instr.access, h]

theorem access_of_store {i : Instr} (h : i.view.toRm = true) : i.access = .write := by
  simp [Instr.access, h]

theorem mem_enabledElems {i : Instr} {s : State} {j : Nat} :
    j ∈ i.move.enabledElems s ↔ j < i.view.vl.bits / i.view.ew ∧ i.view.mask s j = true := by
  rw [Move.enabledElems, List.mem_filter, List.mem_range, move_kl, move_maskBit]

theorem kl_pos (i : Instr) : 0 < i.view.vl.bits / i.view.ew := by
  obtain ⟨e, -, -, -, hbytes, -⟩ := view_sizes i
  exact Nat.pos_of_mul_pos_right (hbytes ▸ bytes_pos i.view.vl)

/-- Every element begins inside the operand. -/
theorem elem_offset_lt {i : Instr} {j : Nat} (hj : j < i.view.vl.bits / i.view.ew) :
    j * (i.move.ew / 8) < i.view.vl.bytes := by
  obtain ⟨e, hew, he, -, hbytes, -⟩ := view_sizes i
  rw [move_ew, ← hbytes, hew, Nat.mul_div_cancel_left e (by decide), ← hew]
  exact Nat.mul_lt_mul_of_pos_right hj he

/-- The elements of an operand in device memory, if there are any (92 D26). -/
theorem elemAddrs_device {s : State} {access : Access} {la : Word64} {n e : Nat} {js : List Nat}
    (hn : n ∣ 4096) (ha : n ∣ la.toNat) (hp : s.pageAnswer (pageOf la) access = .device)
    (hj : ∀ j ∈ js, j * e < n) (hne : js ≠ []) :
    s.elemAddrs access la e js = .error (.refuse .deviceOperand) := by
  cases js with
  | nil => exact (hne rfl).elim
  | cons j js =>
    have hpage := (inPage la n (j * e) 0 hn ha (hj j (by simp))).1
    have htr : s.translate (la + BitVec.ofNat 64 (j * e)) access = .error (.refuse .deviceOperand) := by
      rw [State.translate, hpage, hp]
    rw [State.elemAddrs, htr]

section
variable {i : Instr} {s : State} {o : MemOp} {st : Stop} {ps : List (Nat × Nat)}

theorem loadOperand_of_elemAddrs_error (hok : OperandOk i s o .read)
    (h : s.elemAddrs .read (i.move.linear s o) (i.move.ew / 8) (i.move.enabledElems s) = .error st) :
    i.move.loadOperand s o = .error st := by
  simp only [Move.loadOperand, operandAddr_of_ok i s o _ hok, h]

theorem loadOperand_of_elemAddrs_ok (hok : OperandOk i s o .read)
    (h : s.elemAddrs .read (i.move.linear s o) (i.move.ew / 8) (i.move.enabledElems s) = .ok ps) :
    i.move.loadOperand s o = .ok (loadElems s.mem i.move.ew ps) := by
  simp only [Move.loadOperand, operandAddr_of_ok i s o _ hok, h]

theorem storeOperand_of_elemAddrs_error (v : Vec) (hok : OperandOk i s o .write)
    (h : s.elemAddrs .write (i.move.linear s o) (i.move.ew / 8) (i.move.enabledElems s) = .error st) :
    i.move.storeOperand s o v = .error st := by
  simp only [Move.storeOperand, operandAddr_of_ok i s o _ hok, h]

theorem storeOperand_of_elemAddrs_ok (v : Vec) (hok : OperandOk i s o .write)
    (h : s.elemAddrs .write (i.move.linear s o) (i.move.ew / 8) (i.move.enabledElems s) = .ok ps) :
    i.move.storeOperand s o v =
      if s.touchesText (i.move.ew / 8) ps then .error (.refuse .storeIntoProgram)
      else .ok (storeElems s.mem i.move.ew v ps) := by
  simp only [Move.storeOperand, operandAddr_of_ok i s o _ hok, h]

/-- A load or a store one of whose elements cannot be accessed ends for the reason of that element. -/
theorem exec_of_elemAddrs_error (he : Executes i s) (hm : i.view.m.rm = .mem o)
    (hok : OperandOk i s o i.access)
    (h : s.elemAddrs i.access (i.move.linear s o) (i.move.ew / 8) (i.move.enabledElems s) =
      .error st) :
    exec i s = st.outcome s := by
  cases hr : i.view.toRm with
  | false =>
    rw [access_of_load hr] at hok h
    rw [exec_load i s o he hm hr, loadOperand_of_elemAddrs_error hok h]
  | true =>
    rw [access_of_store hr] at hok h
    rw [exec_store i s o he hm hr, storeOperand_of_elemAddrs_error _ hok h]

end

/-! ## Refusals -/

/-- Settles O32: the first enabled element is refused. -/
theorem deviceOperandRefused : Obligations.DeviceOperandRefused := by
  intro i s o j he hm hok hdev hj hmask
  have hne : i.move.enabledElems s ≠ [] := List.ne_nil_of_mem (mem_enabledElems.2 ⟨hj, hmask⟩)
  have hin : ∀ k ∈ i.move.enabledElems s, k * (i.move.ew / 8) < i.view.vl.bytes :=
    fun k hk => elem_offset_lt (mem_enabledElems.1 hk).1
  exact exec_of_elemAddrs_error he hm hok
    (elemAddrs_device (bytes_dvd_page _) hok.2 hdev hin hne)

theorem touchesText_of_isText {s : State} {n b : Nat} {ps : List (Nat × Nat)} {p : Nat × Nat}
    (hp : p ∈ ps) (hb : b < n) (ht : s.isText (p.2 + b) = true) : s.touchesText n ps = true := by
  simp only [State.touchesText, List.any_eq_true, List.mem_range]
  exact ⟨p, hp, b, hb, ht⟩

/-- Settles O33: byte `k` is byte `k % e` of element `k / e`, where elements have `e` bytes. -/
theorem storeIntoProgramRefused : Obligations.StoreIntoProgramRefused := by
  intro i s o f k he hr hm hok hf hk hmask ht
  have hps := elemAddrs_frame s .write (i.move.linear s o) i.view.vl.bytes (i.move.ew / 8) f
    (i.move.enabledElems s) (bytes_dvd_page _) hok.2 hf
    fun j hj => elem_offset_lt (mem_enabledElems.1 hj).1
  obtain ⟨e, hew, hpos, -, hbytes, -⟩ := view_sizes i
  have hsize : i.move.ew / 8 = e := by
    rw [move_ew, hew, Nat.mul_div_cancel_left e (by decide)]
  have helem : 8 * k / i.view.ew = k / e := by rw [hew, Nat.mul_div_mul_left _ _ (by decide)]
  have hlt : k / e < i.view.vl.bits / i.view.ew := Nat.div_lt_of_lt_mul (by rwa [Nat.mul_comm, hbytes])
  rw [helem] at hmask
  have htext : s.touchesText (i.move.ew / 8)
      ((i.move.enabledElems s).map fun j =>
        (j, inFrame f (i.move.linear s o) + j * (i.move.ew / 8))) = true := by
    rw [hsize]
    refine touchesText_of_isText (List.mem_map_of_mem (mem_enabledElems.2 ⟨hlt, hmask⟩))
      (Nat.mod_lt k hpos) ?_
    rwa [Nat.add_assoc, Nat.mul_comm, Nat.div_add_mod]
  rw [exec_store i s o he hm hr, storeOperand_of_elemAddrs_ok _ hok hps, if_pos htext]
  rfl

theorem refuse_of_outcome {st : Stop} {s : State} {r : Refusal} (h : st.outcome s = .refused r) :
    st = .refuse r := by
  cases st with
  | exn c => cases h
  | refuse r' => cases h; rfl

theorem deviceOperand_of_translate {s : State} {la : Word64} {access : Access} {r : Refusal}
    (h : s.translate la access = .error (.refuse r)) : r = .deviceOperand := by
  obtain ⟨f, -, ht⟩ | ⟨p, v, k, -, ht⟩ | ⟨-, ht⟩ := translate_cases s la access
  · rw [ht] at h; cases h
  · rw [ht] at h; cases h
  · rw [ht] at h; cases h; rfl

theorem deviceOperand_of_elemAddrs {s : State} {access : Access} {la : Word64} {n : Nat}
    {js : List Nat} {r : Refusal} (h : s.elemAddrs access la n js = .error (.refuse r)) :
    r = .deviceOperand := by
  obtain ⟨j, -, hj⟩ := elemAddrs_error s access la n js _ h
  exact deviceOperand_of_translate hj

theorem operandAddr_ne_refuse (mv : Move) (s : State) (o : MemOp) (access : Access) (r : Refusal) :
    mv.operandAddr s o access ≠ .error (.refuse r) := by
  unfold Move.operandAddr
  split
  · nofun
  · split <;> nofun

theorem deviceOperand_of_loadOperand {mv : Move} {s : State} {o : MemOp} {r : Refusal}
    (h : mv.loadOperand s o = .error (.refuse r)) : r = .deviceOperand := by
  unfold Move.loadOperand at h
  split at h
  next st hst => cases h; exact (operandAddr_ne_refuse _ _ _ _ _ hst).elim
  next la _ =>
    split at h
    next st hst => cases h; exact deviceOperand_of_elemAddrs hst
    next => cases h

theorem refusal_of_storeOperand {mv : Move} {s : State} {o : MemOp} {v : Vec} {r : Refusal}
    (h : mv.storeOperand s o v = .error (.refuse r)) : r = .deviceOperand ∨ r = .storeIntoProgram := by
  unfold Move.storeOperand at h
  split at h
  next st hst => cases h; exact (operandAddr_ne_refuse _ _ _ _ _ hst).elim
  next la _ =>
    split at h
    next st hst => cases h; exact .inl (deviceOperand_of_elemAddrs hst)
    next =>
      split at h
      · cases h; exact .inr rfl
      · cases h

/-- An instruction that is refused has passed the checks before its operands: those end in a fault. -/
theorem executes_of_refused {i : Instr} {s : State} {r : Refusal} (h : exec i s = .refused r) :
    Executes i s := by
  rw [← decodeFault_none_iff]
  cases hd : i.move.decodeFault s with
  | none => rfl
  | some c => exact (raise_ne_refused c s r (exec_of_decodeFault hd ▸ h)).elim

/-- Settles O31, by the kind of the operand and the direction of the move. -/
theorem refusedOnlyFor : Obligations.RefusedOnlyFor := by
  intro i s r h
  have he := executes_of_refused h
  refine ⟨he, ?_⟩
  cases hm : i.view.m.rm with
  | reg n => rw [exec_reg i s n he hm] at h; cases h
  | mem o =>
    refine ⟨⟨o, rfl⟩, ?_⟩
    cases hr : i.view.toRm with
    | false =>
      rw [exec_load i s o he hm hr] at h
      split at h
      next st hst =>
        cases refuse_of_outcome h
        exact .inl (deviceOperand_of_loadOperand hst)
      next => cases h
    | true =>
      rw [exec_store i s o he hm hr] at h
      split at h
      next st hst =>
        cases refuse_of_outcome h
        exact (refusal_of_storeOperand hst).imp_right fun hp => ⟨hp, rfl⟩
      next => cases h

/-! ## Masked-off elements -/

theorem zmmAt_writeReg_same (mv : Move) (s : State) (d : BitVec 5) (v : Vec) :
    (mv.writeReg s d v).zmmAt d = mv.newReg s d v := by
  rw [Move.writeReg, zmmAt_advance, zmmAt_setZmm_same]

theorem zmmAt_writeReg_other (mv : Move) (s : State) {d d' : BitVec 5} (v : Vec) (h : d' ≠ d) :
    (mv.writeReg s d v).zmmAt d' = s.zmmAt d' := by
  rw [Move.writeReg, zmmAt_advance, zmmAt_setZmm_other _ _ _ _ h]

/-- Only the legacy SSE forms keep the bits above `VL` (40_common_semantics.md R95). -/
theorem movedBit_of_ge {w : View} {s : State} {d : BitVec 5} {src : Nat → Bool} {b : Nat}
    (hb : w.vl.bits ≤ b) :
    w.movedBit s d src b = (decide (w.move.fam = .sse) && (s.zmmAt d).getLsbD b) := by
  obtain ⟨fmt, vl, ew, toRm, p, m⟩ := w
  rw [View.movedBit, if_neg (Nat.not_lt.2 hb)]
  cases fmt with
  | leg => exact (Bool.true_and _).symm
  | vex2 v => rfl
  | vex3 v => rfl
  | evex e => rfl

/-- A written destination register holds the bits that the claims speak of (40_common_semantics.md R93,
R95). -/
theorem getLsbD_writeReg (i : Instr) (s : State) (d : BitVec 5) (v : Vec) {b : Nat} (hb : b < 512) :
    ((i.move.writeReg s d v).zmmAt d).getLsbD b = i.view.movedBit s d (fun b => v.getLsbD b) b := by
  obtain ⟨e, hew, he, -, -, hbits⟩ := view_sizes i
  rw [zmmAt_writeReg_same, getLsbD_newReg _ _ _ _ _ (by rw [move_ew]; omega)
    (by rw [move_kl, move_ew, move_vl, hbits]) hb, move_vl, move_ew, move_maskBit, move_z]
  split
  next h => rw [View.movedBit, if_pos h]
  next h => exact (movedBit_of_ge (Nat.not_lt.1 h)).symm

theorem enabledElems_eq_nil {i : Instr} {s : State}
    (h : ∀ j < i.view.vl.bits / i.view.ew, i.view.mask s j = false) : i.move.enabledElems s = [] := by
  refine List.eq_nil_iff_forall_not_mem.2 fun j hj => ?_
  obtain ⟨hlt, hmask⟩ := mem_enabledElems.1 hj
  rw [h j hlt] at hmask
  cases hmask

/-- Only EVEX forms have a mask. -/
theorem exists_evex_of_mask_false {w : View} {s : State} {j : Nat} (h : w.mask s j = false) :
    ∃ e, w.fmt = .evex e := by
  unfold View.mask at h
  split at h
  next e he => exact ⟨e, he⟩
  next => cases h

/-- With every mask bit 0 a destination register is merged or zeroed (40_common_semantics.md R99). -/
theorem movedBit_of_all_masked {i : Instr} {s : State} (d : BitVec 5) (src : Nat → Bool) (b : Nat)
    (h : ∀ j < i.view.vl.bits / i.view.ew, i.view.mask s j = false) :
    i.view.movedBit s d src b =
      (decide (b < i.view.vl.bits) && !i.view.zeroing && (s.zmmAt d).getLsbD b) := by
  obtain ⟨e, hfmt⟩ := exists_evex_of_mask_false (h 0 (kl_pos i))
  obtain ⟨-, -, -, -, -, hbits⟩ := view_sizes i
  by_cases hb : b < i.view.vl.bits
  · have hmask := h (b / i.view.ew) (Nat.div_lt_of_lt_mul (by rwa [Nat.mul_comm, hbits]))
    cases hz : i.view.zeroing <;> simp [View.movedBit, hb, hmask, hz]
  · have hfam : i.view.move.fam = .evex := by rw [View.move, hfmt]; rfl
    rw [movedBit_of_ge (Nat.not_lt.1 hb), hfam]
    simp [hb]

/-- Settles O37: there is no element to access. -/
theorem allMaskedOff : Obligations.AllMaskedOff := by
  intro i s o he hm hok hmask
  have haddrs (access : Access) :
      s.elemAddrs access (i.move.linear s o) (i.move.ew / 8) (i.move.enabledElems s) = .ok [] := by
    rw [enabledElems_eq_nil hmask]
    rfl
  refine ⟨fun hr => ?store, fun hr => ?load⟩
  case store =>
    rw [exec_store i s o he hm hr,
      storeOperand_of_elemAddrs_ok _ (access_of_store hr ▸ hok) (haddrs .write), ← move_len]
    rfl
  case load =>
    have hexec : exec i s =
        .next (i.move.writeReg s i.move.regNum (loadElems s.mem i.move.ew [])) := by
      rw [exec_load i s o he hm hr,
        loadOperand_of_elemAddrs_ok (access_of_load hr ▸ hok) (haddrs .read)]
    refine ⟨_, hexec, exec_sameButMoved hexec, rfl, fun b hb => ?_, fun d hd => ?_⟩
    · rw [getLsbD_writeReg _ _ _ _ hb, movedBit_of_all_masked _ _ _ hmask]
    · exact zmmAt_writeReg_other _ _ _ hd

/-! ## The program text -/

theorem exec_keeps_text {i : Instr} {s t : State} (h : exec i s = .next t) : t.text = s.text := by
  rw [exec_sameButMoved h]

/-- No instruction changes a byte of program text: a store into it is refused (20_memory.md R49). -/
theorem exec_keeps_read_of_isText {i : Instr} {s t : State} {a : Nat} (h : exec i s = .next t)
    (ha : s.isText a = true) : t.mem.read a = s.mem.read a := by
  obtain ⟨-, ⟨d, v, rfl⟩ | ⟨o, m, -, -, hm, rfl⟩⟩ := exec_next i s t h
  · rfl
  · exact storeOperand_text _ _ _ _ _ _ hm ha

/-- Settles O52. -/
theorem stepKeepsProgramText : Obligations.StepKeepsProgramText := by
  intro s t h a
  obtain ⟨i, -, he⟩ := step_next s t h
  exact ⟨by rw [State.isText, State.isText, exec_keeps_text he], exec_keeps_read_of_isText he⟩

end Sys2Proof.Proofs

/-! The proofs of the statements of 30_encoding.md: decoding against encoding, EVEX encodings of no row,
bytes of no instruction, register numbers, 16-bit addressing, and the two spellings of a register copy. -/

namespace Sys2Proof.Proofs

open Sys2Proof.Machine Sys2Proof.Laws

/-! ## The fields of a byte -/

theorem append_eq_iff {m n : Nat} {x : BitVec m} {y : BitVec n} {b : BitVec (m + n)} :
    x ++ y = b ↔ x = b.extractLsb' n m ∧ y = b.extractLsb' 0 n := by
  constructor
  · rintro rfl
    exact ⟨BitVec.extractLsb'_append_eq_left.symm, BitVec.extractLsb'_append_eq_right.symm⟩
  · rintro ⟨rfl, rfl⟩
    exact BitVec.extractLsb'_append_extractLsb'

theorem extractLsb'_extractLsb' {w start len start' len' : Nat} {b : BitVec w}
    (h : start' + len' ≤ len) :
    (b.extractLsb' start len).extractLsb' start' len' = b.extractLsb' (start + start') len' := by
  ext i hi
  have hlt : start' + i < len := by omega
  simp [hlt, Nat.add_assoc]

theorem bit1_eq_extractLsb'_iff {w k : Nat} {a : Bool} {b : BitVec w} :
    bit1 a = b.extractLsb' k 1 ↔ a = b.getLsbD k := by
  rw [BitVec.getLsbD_eq_extractLsb']
  generalize b.extractLsb' k 1 = c
  revert a c
  decide

/-- The layout of a ModRM or SIB byte (30_encoding.md R60, R61). -/
theorem fields233_eq_iff {x : BitVec 2} {y z : BitVec 3} {b : Byte} :
    x ++ y ++ z = b ↔ x = b.extractLsb' 6 2 ∧ y = b.extractLsb' 3 3 ∧ z = b.extractLsb' 0 3 := by
  rw [append_eq_iff (m := 5), append_eq_iff]
  simp [extractLsb'_extractLsb', and_assoc]

/-- The layout of the payload byte of VEX2, the second one of VEX3 and P1 of EVEX (30_encoding.md R54, R55,
R57). -/
theorem vexByte_eq_iff {r l : Bool} {vvvv : BitVec 4} {pp : BitVec 2} {b : Byte} :
    bit1 r ++ vvvv ++ bit1 l ++ pp = b ↔
      r = b.getLsbD 7 ∧ vvvv = b.extractLsb' 3 4 ∧ l = b.getLsbD 2 ∧ pp = b.extractLsb' 0 2 := by
  rw [append_eq_iff (m := 6), append_eq_iff (m := 5), append_eq_iff]
  simp [extractLsb'_extractLsb', bit1_eq_extractLsb'_iff, and_assoc]

/-- The layout of the first payload byte of VEX3 (30_encoding.md R55). -/
theorem vexMapByte_eq_iff {r x b : Bool} {mmmmm : BitVec 5} {c : Byte} :
    bit1 r ++ bit1 x ++ bit1 b ++ mmmmm = c ↔
      r = c.getLsbD 7 ∧ x = c.getLsbD 6 ∧ b = c.getLsbD 5 ∧ mmmmm = c.extractLsb' 0 5 := by
  rw [append_eq_iff (m := 3), append_eq_iff (m := 2), append_eq_iff]
  simp [extractLsb'_extractLsb', bit1_eq_extractLsb'_iff, and_assoc]

/-- The layout of P0 of EVEX (30_encoding.md R57). -/
theorem evexP0_eq_iff {r x b r2 : Bool} {reserved mm : BitVec 2} {c : Byte} :
    bit1 r ++ bit1 x ++ bit1 b ++ bit1 r2 ++ reserved ++ mm = c ↔
      r = c.getLsbD 7 ∧ x = c.getLsbD 6 ∧ b = c.getLsbD 5 ∧ r2 = c.getLsbD 4 ∧
        reserved = c.extractLsb' 2 2 ∧ mm = c.extractLsb' 0 2 := by
  rw [append_eq_iff (m := 6), append_eq_iff (m := 4), append_eq_iff (m := 3),
    append_eq_iff (m := 2), append_eq_iff]
  simp [extractLsb'_extractLsb', bit1_eq_extractLsb'_iff, and_assoc]

/-- The layout of P2 of EVEX (30_encoding.md R57). -/
theorem evexP2_eq_iff {z b v2 : Bool} {ll : BitVec 2} {aaa : BitVec 3} {c : Byte} :
    bit1 z ++ ll ++ bit1 b ++ bit1 v2 ++ aaa = c ↔
      z = c.getLsbD 7 ∧ ll = c.extractLsb' 5 2 ∧ b = c.getLsbD 4 ∧ v2 = c.getLsbD 3 ∧
        aaa = c.extractLsb' 0 3 := by
  rw [append_eq_iff (m := 5), append_eq_iff (m := 4), append_eq_iff (m := 3), append_eq_iff]
  simp [extractLsb'_extractLsb', bit1_eq_extractLsb'_iff, and_assoc]

/-- The layout of a 16-bit displacement (30_encoding.md R62). -/
theorem twoBytes_eq_iff {b0 b1 : Byte} {d : BitVec 16} :
    b1 ++ b0 = d ↔ b1 = d.extractLsb' 8 8 ∧ b0 = d.extractLsb' 0 8 := append_eq_iff

/-- The layout of a 32-bit displacement (30_encoding.md R62). -/
theorem fourBytes_eq_iff {b0 b1 b2 b3 : Byte} {d : BitVec 32} :
    b3 ++ b2 ++ b1 ++ b0 = d ↔
      b3 = d.extractLsb' 24 8 ∧ b2 = d.extractLsb' 16 8 ∧ b1 = d.extractLsb' 8 8 ∧
        b0 = d.extractLsb' 0 8 := by
  rw [append_eq_iff (m := 24), append_eq_iff (m := 16), append_eq_iff]
  simp [extractLsb'_extractLsb', and_assoc]

/-! ## Displacement, SIB and ModRM: what is taken is what is encoded -/

section
variable {bs rest : List Byte} {mod : BitVec 2} {rm : BitVec 3}

theorem takeD16_eq_some_iff {d : BitVec 16} :
    takeD16 bs = some (d, rest) ↔ bs = d16Bytes d ++ rest := by
  rcases bs with _ | ⟨b0, _ | ⟨b1, bs⟩⟩
  · simp [takeD16, d16Bytes]
  · simp [takeD16, d16Bytes]
  · simp only [takeD16, d16Bytes, Option.some.injEq, Prod.mk.injEq, twoBytes_eq_iff,
      List.cons_append, List.nil_append, List.cons.injEq]
    tauto

theorem takeD32_eq_some_iff {d : BitVec 32} :
    takeD32 bs = some (d, rest) ↔ bs = d32Bytes d ++ rest := by
  rcases bs with _ | ⟨b0, _ | ⟨b1, _ | ⟨b2, _ | ⟨b3, bs⟩⟩⟩⟩
  · simp [takeD32, d32Bytes]
  · simp [takeD32, d32Bytes]
  · simp [takeD32, d32Bytes]
  · simp [takeD32, d32Bytes]
  · simp only [takeD32, d32Bytes, Option.some.injEq, Prod.mk.injEq, fourBytes_eq_iff,
      List.cons_append, List.nil_append, List.cons.injEq]
    tauto

theorem bits2_cases {x : BitVec 2} (h : x ≠ 3) : x = 0 ∨ x = 1 ∨ x = 2 := by
  revert h x
  decide

theorem takeDisp_eq_some_iff (h : mod ≠ 3) {d : Disp} :
    takeDisp mod bs = some (d, rest) ↔ d.mod = mod ∧ bs = d.bytes ++ rest := by
  obtain rfl | rfl | rfl := bits2_cases h
  · cases d <;> simp [takeDisp, Disp.mod, Disp.bytes]
  · cases bs <;> cases d <;> simp [takeDisp, Disp.mod, Disp.bytes]
  · cases d <;> simp [takeDisp, Disp.mod, Disp.bytes, takeD32_eq_some_iff]

theorem takeDisp16_eq_some_iff (h : mod ≠ 3) {d : Disp16} :
    takeDisp16 mod bs = some (d, rest) ↔ d.mod = mod ∧ bs = d.bytes ++ rest := by
  obtain rfl | rfl | rfl := bits2_cases h
  · cases d <;> simp [takeDisp16, Disp16.mod, Disp16.bytes]
  · cases bs <;> cases d <;> simp [takeDisp16, Disp16.mod, Disp16.bytes]
  · cases d <;> simp [takeDisp16, Disp16.mod, Disp16.bytes, takeD16_eq_some_iff]

theorem wf_base_iff {d : Disp} :
    (MemOp.base rm d).wf false = true ↔ rm ≠ 4 ∧ ¬ (d.mod = 0 ∧ rm = 5) := by
  cases d <;> simp [MemOp.wf, Disp.mod]

theorem wf_sib_iff {scale : BitVec 2} {index b : BitVec 3} {d : Disp} :
    (MemOp.sib scale index b d).wf false = true ↔ ¬ (d.mod = 0 ∧ b = 5#3) := by
  cases d <;> simp [MemOp.wf, Disp.mod]

theorem wf_base16_iff {d : Disp16} :
    (MemOp.base16 rm d).wf true = true ↔ ¬ (d.mod = 0 ∧ rm = 6) := by
  cases d <;> simp [MemOp.wf, Disp16.mod]

/-- The memory operand that 32- or 64-bit addressing reads is the one that encodes to the bytes
(30_encoding.md R60 to R62). -/
theorem takeMem32_eq_some_iff (h : mod ≠ 3) {o : MemOp} :
    takeMem32 mod rm bs = some (o, rest) ↔
      o.wf false = true ∧ o.mod = mod ∧ o.rmField = rm ∧ bs = o.tail ++ rest := by
  constructor
  · intro ht
    unfold takeMem32 at ht
    split_ifs at ht with hsib hdisp
    · cases bs with
      | nil => cases ht
      | cons sib bs =>
        dsimp only at ht
        split_ifs at ht with hbase
        · obtain ⟨⟨d, _⟩, hd, heq⟩ := Option.map_eq_some_iff.1 ht
          cases heq
          obtain ⟨rfl, hb⟩ := hbase
          refine ⟨rfl, rfl, hsib.symm, ?_⟩
          rw [MemOp.tail, fields233_eq_iff.2 ⟨rfl, rfl, hb.symm⟩, takeD32_eq_some_iff.1 hd,
            List.cons_append]
        · obtain ⟨⟨d, _⟩, hd, heq⟩ := Option.map_eq_some_iff.1 ht
          cases heq
          obtain ⟨rfl, rfl⟩ := (takeDisp_eq_some_iff h).1 hd
          refine ⟨wf_sib_iff.2 hbase, rfl, hsib.symm, ?_⟩
          rw [MemOp.tail, fields233_eq_iff.2 ⟨rfl, rfl, rfl⟩, List.cons_append]
    · obtain ⟨⟨d, _⟩, hd, heq⟩ := Option.map_eq_some_iff.1 ht
      cases heq
      exact ⟨rfl, hdisp.1.symm, hdisp.2.symm, takeD32_eq_some_iff.1 hd⟩
    · obtain ⟨⟨d, _⟩, hd, heq⟩ := Option.map_eq_some_iff.1 ht
      cases heq
      obtain ⟨rfl, rfl⟩ := (takeDisp_eq_some_iff h).1 hd
      exact ⟨wf_base_iff.2 ⟨hsib, hdisp⟩, rfl, rfl, rfl⟩
  · rintro ⟨hw, rfl, rfl, rfl⟩
    cases o with
    | base rm d =>
      obtain ⟨h4, h5⟩ := wf_base_iff.1 hw
      simp only [takeMem32, MemOp.mod, MemOp.rmField, MemOp.tail, h4, h5, if_false,
        (takeDisp_eq_some_iff (mod := d.mod) h).2 ⟨rfl, rfl⟩, Option.map_some]
    | ripOrAbs d =>
      simp [takeMem32, MemOp.mod, MemOp.rmField, MemOp.tail, takeD32_eq_some_iff.2 rfl]
    | sib scale index b d =>
      have h5 := wf_sib_iff.1 hw
      obtain ⟨hs, hi, hb⟩ := fields233_eq_iff.1 (rfl : scale ++ index ++ b = _)
      simp only [takeMem32, MemOp.mod, MemOp.rmField, MemOp.tail, List.cons_append, if_true, ← hs, ← hi,
        ← hb, h5, if_false, (takeDisp_eq_some_iff (mod := d.mod) h).2 ⟨rfl, rfl⟩, Option.map_some]
    | sibNoBase scale index d =>
      obtain ⟨hs, hi, hb⟩ := fields233_eq_iff.1 (rfl : scale ++ index ++ 5#3 = _)
      simp only [takeMem32, MemOp.mod, MemOp.rmField, MemOp.tail, List.cons_append, if_true, ← hs, ← hi,
        ← hb, and_self, takeD32_eq_some_iff.2 rfl, Option.map_some]
    | base16 rm d => cases hw
    | abs16 d => cases hw

/-- The memory operand that 16-bit addressing reads is the one that encodes to the bytes
(30_encoding.md R67). -/
theorem takeMem16_eq_some_iff (h : mod ≠ 3) {o : MemOp} :
    takeMem16 mod rm bs = some (o, rest) ↔
      o.wf true = true ∧ o.mod = mod ∧ o.rmField = rm ∧ bs = o.tail ++ rest := by
  constructor
  · intro ht
    unfold takeMem16 at ht
    split_ifs at ht with hdisp
    · obtain ⟨⟨d, _⟩, hd, heq⟩ := Option.map_eq_some_iff.1 ht
      cases heq
      exact ⟨rfl, hdisp.1.symm, hdisp.2.symm, takeD16_eq_some_iff.1 hd⟩
    · obtain ⟨⟨d, _⟩, hd, heq⟩ := Option.map_eq_some_iff.1 ht
      cases heq
      obtain ⟨rfl, rfl⟩ := (takeDisp16_eq_some_iff h).1 hd
      exact ⟨wf_base16_iff.2 hdisp, rfl, rfl, rfl⟩
  · rintro ⟨hw, rfl, rfl, rfl⟩
    cases o with
    | base16 rm d =>
      simp only [takeMem16, MemOp.mod, MemOp.rmField, MemOp.tail, wf_base16_iff.1 hw, if_false,
        (takeDisp16_eq_some_iff (mod := d.mod) h).2 ⟨rfl, rfl⟩, Option.map_some]
    | abs16 d =>
      simp [takeMem16, MemOp.mod, MemOp.rmField, MemOp.tail, takeD16_eq_some_iff.2 rfl]
    | base rm d => cases hw
    | ripOrAbs d => cases hw
    | sib scale index b d => cases hw
    | sibNoBase scale index d => cases hw

end

theorem memOp_mod_ne_three (o : MemOp) : o.mod ≠ 3 := by
  rcases o with ⟨_, d⟩ | _ | ⟨_, _, _, d⟩ | _ | ⟨_, d⟩ | _
  · cases d <;> simp [MemOp.mod, Disp.mod]
  · simp [MemOp.mod]
  · cases d <;> simp [MemOp.mod, Disp.mod]
  · simp [MemOp.mod]
  · cases d <;> simp [MemOp.mod, Disp16.mod]
  · simp [MemOp.mod]

theorem takeMem_eq_some_iff {a16 : Bool} {mod : BitVec 2} {rm : BitVec 3} {bs rest : List Byte}
    {o : MemOp} (h : mod ≠ 3) :
    (if a16 then takeMem16 mod rm bs else takeMem32 mod rm bs) = some (o, rest) ↔
      o.wf a16 = true ∧ o.mod = mod ∧ o.rmField = rm ∧ bs = o.tail ++ rest := by
  cases a16
  · exact takeMem32_eq_some_iff h
  · exact takeMem16_eq_some_iff h

theorem bytes_reg (reg n : BitVec 3) : ModRM.bytes ⟨reg, .reg n⟩ = [3#2 ++ reg ++ n] := rfl

theorem bytes_mem (reg : BitVec 3) (o : MemOp) :
    ModRM.bytes ⟨reg, .mem o⟩ = (o.mod ++ reg ++ o.rmField) :: o.tail := rfl

/-- The operands that ModRM, SIB and displacement read are those that encode to the bytes
(30_encoding.md R60). -/
theorem takeModRM_eq_some_iff {a16 : Bool} {bs rest : List Byte} {m : ModRM} :
    takeModRM a16 bs = some (m, rest) ↔ m.wf a16 = true ∧ bs = m.bytes ++ rest := by
  constructor
  · intro h
    unfold takeModRM at h
    cases bs with
    | nil => cases h
    | cons b bs =>
      dsimp only at h
      by_cases hreg : b.extractLsb' 6 2 = 3
      · rw [if_pos hreg] at h
        cases h
        refine ⟨rfl, ?_⟩
        rw [bytes_reg, fields233_eq_iff.2 ⟨Eq.symm (b := 3#2) hreg, rfl, rfl⟩, List.singleton_append]
      · rw [if_neg hreg] at h
        obtain ⟨⟨o, _⟩, ho, heq⟩ := Option.map_eq_some_iff.1 h
        cases heq
        obtain ⟨hw, hmod, hrm, rfl⟩ := (takeMem_eq_some_iff hreg).1 ho
        refine ⟨hw, ?_⟩
        rw [bytes_mem, fields233_eq_iff.2 ⟨hmod, rfl, hrm⟩, List.cons_append]
  · rintro ⟨hw, rfl⟩
    obtain ⟨reg, n | o⟩ := m
    · obtain ⟨hm, hr, hn⟩ := fields233_eq_iff.1 (rfl : 3#2 ++ reg ++ n = _)
      simp only [bytes_reg, List.singleton_append, takeModRM, ← hm, ← hr, ← hn]
      rfl
    · have h3 := memOp_mod_ne_three o
      obtain ⟨hm, hr, hn⟩ := fields233_eq_iff.1 (rfl : o.mod ++ reg ++ o.rmField = _)
      simp only [bytes_mem, List.cons_append, takeModRM, ← hm, ← hr, ← hn, h3, if_false,
        (takeMem_eq_some_iff h3).2 ⟨hw, rfl, rfl, rfl⟩, Option.map_some]

/-- `withModRM` answers for the operands that the bytes encode. -/
theorem withModRM_bytes {a16 : Bool} {m : ModRM} (rest : List Byte) (mk : ModRM → Decoded)
    (hm : m.wf a16 = true) : withModRM a16 (m.bytes ++ rest) mk = mk m := by
  unfold withModRM
  rw [takeModRM_eq_some_iff.2 ⟨hm, rfl⟩]

/-- Where `withModRM` reads an instruction, the bytes begin with the encoding of its operands. -/
theorem modRM_of_withModRM {a16 : Bool} {bs : List Byte} {mk : ModRM → Decoded} {i : Instr}
    (h : withModRM a16 bs mk = .instr i) :
    ∃ m rest, m.wf a16 = true ∧ bs = m.bytes ++ rest ∧ mk m = .instr i := by
  unfold withModRM at h
  split at h
  next r hr =>
    obtain ⟨hw, hbs⟩ := takeModRM_eq_some_iff.1 hr
    exact ⟨r.1, r.2, hw, hbs, h⟩
  next => cases h

/-! ## Prefixes -/

theorem prefixOf_eq_some_iff {mode : Mode} {b : Byte} {q : Prefix} :
    prefixOf mode b = some q ↔ q.wf mode = true ∧ b = q.byte := by
  constructor
  · intro h
    simp only [prefixOf, ite_eq_iff] at h
    rcases h with h | ⟨-, h | ⟨-, h | ⟨-, h | ⟨-, h | ⟨-, h | ⟨-, h | ⟨-, h | ⟨-, h | ⟨-, h | ⟨-, h |
      ⟨-, h | ⟨-, ⟨⟩⟩⟩⟩⟩⟩⟩⟩⟩⟩⟩⟩⟩
    all_goals obtain ⟨hb, ⟨⟩⟩ := h
    any_goals exact ⟨rfl, hb⟩
    obtain ⟨rfl, hb⟩ := hb
    exact ⟨rfl, (append_eq_iff.2 ⟨hb.symm, rfl⟩).symm⟩
  · rintro ⟨hw, rfl⟩
    cases q with
    | rex wrxb =>
      obtain rfl : mode = .mode64 := by simpa [Prefix.wf] using hw
      revert wrxb
      decide
    | _ => rfl

/-- The bytes that end the prefixes: one for each format (30_encoding.md R71). -/
theorem prefixOf_format (mode : Mode) : ∀ b ∈ [0x0F, 0xC5, 0xC4, 0x62], prefixOf mode b = none := by
  cases mode <;> decide

/-- Bytes of prefixes that exist in the mode are taken as those prefixes. -/
theorem takePrefixes_prefixBytes {mode : Mode} {p : List Prefix} (hp : p.all (Prefix.wf mode) = true)
    (bs : List Byte) :
    takePrefixes mode (prefixBytes p ++ bs) =
      (p ++ (takePrefixes mode bs).1, (takePrefixes mode bs).2) := by
  induction p with
  | nil => rfl
  | cons q p ih =>
    rw [List.all_cons, Bool.and_eq_true] at hp
    rw [prefixBytes, List.map_cons, List.cons_append, takePrefixes,
      prefixOf_eq_some_iff.2 ⟨hp.1, rfl⟩, ← prefixBytes, ih hp.2]
    rfl

/-- The prefixes that are taken exist in the mode, and their bytes stood at the head. -/
theorem prefixes_of_takePrefixes (mode : Mode) (bs : List Byte) :
    (takePrefixes mode bs).1.all (Prefix.wf mode) = true ∧
      bs = prefixBytes (takePrefixes mode bs).1 ++ (takePrefixes mode bs).2 := by
  induction bs with
  | nil => exact ⟨rfl, rfl⟩
  | cons b bs ih =>
    obtain ⟨hwf, hbs⟩ := ih
    unfold takePrefixes
    cases hq : prefixOf mode b with
    | none => exact ⟨rfl, rfl⟩
    | some q =>
      obtain ⟨hw, rfl⟩ := prefixOf_eq_some_iff.1 hq
      refine ⟨?_, ?_⟩
      · simp only [List.all_cons, hw, hwf, Bool.and_self]
      · simpa [prefixBytes] using hbs

/-! ## Rows -/

theorem opInScope_iff {op : Byte} : opInScope op = true ↔ op = 0x6F ∨ op = 0x7F := by
  simp [opInScope]

/-- The row of format LEG with the given opcode (30_encoding.md R51). -/
def legRow (op : Byte) (p : List Prefix) (m : ModRM) : Instr :=
  byOpcode op (.movdqaRegRm p m) (.movdqaRmReg p m)

theorem byOpcode_of {P : Instr → Prop} {op : Byte} {i j : Instr} (hi : P i) (hj : P j) :
    P (byOpcode op i j) := by
  unfold byOpcode
  split
  · exact hi
  · exact hj

theorem partsWf_iff {mode : Mode} {p : List Prefix} {m : ModRM} :
    partsWf mode p m = true ↔ p.all (Prefix.wf mode) = true ∧ m.wf (addr16 mode p) = true :=
  Bool.and_eq_true_iff

section
variable {mode : Mode} {op : Byte} {p : List Prefix} {m : ModRM}

theorem wf_legRow_iff :
    (legRow op p m).wf mode = true ↔ partsWf mode p m = true ∧ legPrefixes p = true := by
  rw [← Bool.and_eq_true]
  exact byOpcode_of (P := fun i => i.wf mode = true ↔ _) .rfl .rfl

theorem wf_vex2Row_iff {l : Bool} {v : Vex2} :
    (vex2Row l op p v m).wf mode = true ↔ partsWf mode p m = true ∧ v.wf mode = true := by
  rw [← Bool.and_eq_true]
  cases l <;> exact byOpcode_of (P := fun i => i.wf mode = true ↔ _) .rfl .rfl

theorem wf_vex3Row_iff {l : Bool} {v : Vex3} :
    (vex3Row l op p v m).wf mode = true ↔ partsWf mode p m = true ∧ v.wf mode = true := by
  rw [← Bool.and_eq_true]
  cases l <;> exact byOpcode_of (P := fun i => i.wf mode = true ↔ _) .rfl .rfl

theorem wf_evexRow_iff {w : Bool} {ll : BitVec 2} {e : Evex} {i : Instr}
    (h : evexRow w ll op p e m = some i) :
    i.wf mode = true ↔ partsWf mode p m = true ∧ e.wf mode = true := by
  rw [← Bool.and_eq_true]
  unfold evexRow at h
  split_ifs at h <;> cases h <;> exact byOpcode_of (P := fun i => i.wf mode = true ↔ _) .rfl .rfl

end

/-! ## The bytes of a row -/

/-- The payload byte of VEX2, and the second one of VEX3 with `W` for `R` (30_encoding.md R54, R55). -/
def vexByte (r : Bool) (vvvv : BitVec 4) (l : Bool) : Byte := bit1 r ++ vvvv ++ bit1 l ++ 1#2

/-- The first payload byte of VEX3, map `0F` (30_encoding.md R55). -/
def vexMapByte (v : Vex3) : Byte := bit1 v.rBar ++ bit1 v.xBar ++ bit1 v.bBar ++ 1#5

/-- The payload bytes of EVEX (30_encoding.md R57). -/
def evexPayload (w : Bool) (mm ll : BitVec 2) (e : Evex) : List Byte :=
  [bit1 e.rBar ++ bit1 e.xBar ++ bit1 e.bBar ++ bit1 e.r2Bar ++ e.p0Reserved ++ mm,
    bit1 w ++ e.vvvv ++ bit1 e.p1Fixed ++ 1#2,
    bit1 e.z ++ ll ++ bit1 e.b ++ bit1 e.v2Bar ++ e.aaa]

section
variable {op : Byte} {p : List Prefix} {m : ModRM} (hop : opInScope op = true) (rest : List Byte)
include hop

theorem encode_legRow_append :
    encode (legRow op p m) ++ rest = prefixBytes p ++ 0x0F :: op :: (m.bytes ++ rest) := by
  obtain rfl | rfl := opInScope_iff.1 hop <;> simp [legRow, byOpcode, encode, encodeLeg]

theorem encode_vex2Row_append (l : Bool) (v : Vex2) :
    encode (vex2Row l op p v m) ++ rest =
      prefixBytes p ++ 0xC5 :: vexByte v.rBar v.vvvv l :: op :: (m.bytes ++ rest) := by
  have hrow : encode (vex2Row l op p v m) = encodeVex2 l op p v m := by
    obtain rfl | rfl := opInScope_iff.1 hop <;> cases l <;> rfl
  simp [hrow, encodeVex2, vexByte]

theorem encode_vex3Row_append (l : Bool) (v : Vex3) :
    encode (vex3Row l op p v m) ++ rest =
      prefixBytes p ++ 0xC4 :: vexMapByte v :: vexByte v.w v.vvvv l :: op :: (m.bytes ++ rest) := by
  have hrow : encode (vex3Row l op p v m) = encodeVex3 l op p v m := by
    obtain rfl | rfl := opInScope_iff.1 hop <;> cases l <;> rfl
  simp [hrow, encodeVex3, vexMapByte, vexByte]

theorem encode_evexRow_append {w : Bool} {ll : BitVec 2} {e : Evex} {i : Instr}
    (h : evexRow w ll op p e m = some i) :
    encode i ++ rest = prefixBytes p ++ 0x62 :: (evexPayload w 1#2 ll e ++ op :: (m.bytes ++ rest)) := by
  have hrow : encode i = encodeEvex w ll op p e m := by
    have hll : ll ≠ 3 := by rintro rfl; cases h
    obtain rfl | rfl := opInScope_iff.1 hop <;> obtain rfl | rfl | rfl := bits2_cases hll <;>
      cases w <;> cases h <;> rfl
  simp [hrow, encodeEvex, evexPayload]

end

/-- Every instruction is the row of its format for an opcode in scope (30_encoding.md R70). -/
inductive IsRow : Instr → Prop
  | leg {op : Byte} (p : List Prefix) (m : ModRM) (hop : opInScope op = true) : IsRow (legRow op p m)
  | vex2 (l : Bool) {op : Byte} (p : List Prefix) (v : Vex2) (m : ModRM) (hop : opInScope op = true) :
    IsRow (vex2Row l op p v m)
  | vex3 (l : Bool) {op : Byte} (p : List Prefix) (v : Vex3) (m : ModRM) (hop : opInScope op = true) :
    IsRow (vex3Row l op p v m)
  | evex (w : Bool) (ll : BitVec 2) {op : Byte} (p : List Prefix) (e : Evex) (m : ModRM) {i : Instr}
    (hop : opInScope op = true) (hrow : evexRow w ll op p e m = some i) : IsRow i

theorem isRow (i : Instr) : IsRow i := by
  cases i with
  | movdqaRegRm p m => exact .leg (op := 0x6F) p m rfl
  | movdqaRmReg p m => exact .leg (op := 0x7F) p m rfl
  | vmovdqaXmmRegRmVex2 p v m => exact .vex2 false (op := 0x6F) p v m rfl
  | vmovdqaXmmRegRmVex3 p v m => exact .vex3 false (op := 0x6F) p v m rfl
  | vmovdqaXmmRmRegVex2 p v m => exact .vex2 false (op := 0x7F) p v m rfl
  | vmovdqaXmmRmRegVex3 p v m => exact .vex3 false (op := 0x7F) p v m rfl
  | vmovdqaYmmRegRmVex2 p v m => exact .vex2 true (op := 0x6F) p v m rfl
  | vmovdqaYmmRegRmVex3 p v m => exact .vex3 true (op := 0x6F) p v m rfl
  | vmovdqaYmmRmRegVex2 p v m => exact .vex2 true (op := 0x7F) p v m rfl
  | vmovdqaYmmRmRegVex3 p v m => exact .vex3 true (op := 0x7F) p v m rfl
  | vmovdqa32XmmRegRm p e m => exact .evex false 0 (op := 0x6F) p e m rfl rfl
  | vmovdqa32YmmRegRm p e m => exact .evex false 1 (op := 0x6F) p e m rfl rfl
  | vmovdqa32ZmmRegRm p e m => exact .evex false 2 (op := 0x6F) p e m rfl rfl
  | vmovdqa32XmmRmReg p e m => exact .evex false 0 (op := 0x7F) p e m rfl rfl
  | vmovdqa32YmmRmReg p e m => exact .evex false 1 (op := 0x7F) p e m rfl rfl
  | vmovdqa32ZmmRmReg p e m => exact .evex false 2 (op := 0x7F) p e m rfl rfl
  | vmovdqa64XmmRegRm p e m => exact .evex true 0 (op := 0x6F) p e m rfl rfl
  | vmovdqa64YmmRegRm p e m => exact .evex true 1 (op := 0x6F) p e m rfl rfl
  | vmovdqa64ZmmRegRm p e m => exact .evex true 2 (op := 0x6F) p e m rfl rfl
  | vmovdqa64XmmRmReg p e m => exact .evex true 0 (op := 0x7F) p e m rfl rfl
  | vmovdqa64YmmRmReg p e m => exact .evex true 1 (op := 0x7F) p e m rfl rfl
  | vmovdqa64ZmmRmReg p e m => exact .evex true 2 (op := 0x7F) p e m rfl rfl

/-! ## The formats after their first byte -/

section
variable {mode : Mode} {p : List Prefix}

theorem decodeLeg_bytes {op : Byte} {m : ModRM} (rest : List Byte) (hop : opInScope op = true)
    (hp : legPrefixes p = true) (hm : m.wf (addr16 mode p) = true) :
    decodeLeg mode p (op :: (m.bytes ++ rest)) = .instr (legRow op p m) := by
  simp only [decodeLeg, hop, hp, Bool.and_self, if_true, withModRM_bytes rest _ hm]
  rfl

theorem row_of_decodeLeg {bs : List Byte} {i : Instr} (h : decodeLeg mode p bs = .instr i) :
    ∃ op m rest, opInScope op = true ∧ legPrefixes p = true ∧ m.wf (addr16 mode p) = true ∧
      bs = op :: (m.bytes ++ rest) ∧ i = legRow op p m := by
  unfold decodeLeg at h
  split at h
  next => cases h
  next op bs =>
    split at h
    next hc =>
      obtain ⟨hop, hp⟩ := Bool.and_eq_true_iff.1 hc
      obtain ⟨m, rest, hm, rfl, hi⟩ := modRM_of_withModRM h
      cases hi
      exact ⟨op, m, rest, hop, hp, hm, rfl, rfl⟩
    next => cases h

theorem decodeVex2_bytes {l : Bool} {op : Byte} {v : Vex2} {m : ModRM} (rest : List Byte)
    (hop : opInScope op = true) (hv : v.wf mode = true) (hm : m.wf (addr16 mode p) = true) :
    decodeVex2 mode p (vexByte v.rBar v.vvvv l :: op :: (m.bytes ++ rest)) =
      .instr (vex2Row l op p v m) := by
  obtain ⟨hr, hvvvv, hl, hpp⟩ := vexByte_eq_iff.1 (rfl : _ = vexByte v.rBar v.vvvv l)
  simp only [decodeVex2, ← hr, ← hvvvv, ← hl, ← hpp, hop, hv, beq_self_eq_true, Bool.and_self, if_true,
    withModRM_bytes rest _ hm]

theorem row_of_decodeVex2 {bs : List Byte} {i : Instr} (h : decodeVex2 mode p bs = .instr i) :
    ∃ l op v m rest, opInScope op = true ∧ v.wf mode = true ∧ m.wf (addr16 mode p) = true ∧
      bs = vexByte v.rBar v.vvvv l :: op :: (m.bytes ++ rest) ∧ i = vex2Row l op p v m := by
  unfold decodeVex2 at h
  split at h
  next v0 op bs =>
    dsimp only at h
    split at h
    next hc =>
      simp only [Bool.and_eq_true, beq_iff_eq] at hc
      obtain ⟨⟨hv, hpp⟩, hop⟩ := hc
      obtain ⟨m, rest, hm, rfl, hi⟩ := modRM_of_withModRM h
      cases hi
      refine ⟨_, op, _, m, rest, hop, hv, hm, ?_, rfl⟩
      rw [vexByte, vexByte_eq_iff.2 ⟨rfl, rfl, rfl, hpp.symm⟩]
    next => cases h
  next => cases h

theorem decodeVex3_bytes {l : Bool} {op : Byte} {v : Vex3} {m : ModRM} (rest : List Byte)
    (hop : opInScope op = true) (hv : v.wf mode = true) (hm : m.wf (addr16 mode p) = true) :
    decodeVex3 mode p (vexMapByte v :: vexByte v.w v.vvvv l :: op :: (m.bytes ++ rest)) =
      .instr (vex3Row l op p v m) := by
  obtain ⟨hr, hx, hb, hmap⟩ := vexMapByte_eq_iff.1 (rfl : _ = vexMapByte v)
  obtain ⟨hw, hvvvv, hl, hpp⟩ := vexByte_eq_iff.1 (rfl : _ = vexByte v.w v.vvvv l)
  simp only [decodeVex3, ← hr, ← hx, ← hb, ← hmap, ← hw, ← hvvvv, ← hl, ← hpp, hop, hv, beq_self_eq_true,
    Bool.and_self, if_true, withModRM_bytes rest _ hm]

theorem row_of_decodeVex3 {bs : List Byte} {i : Instr} (h : decodeVex3 mode p bs = .instr i) :
    ∃ l op v m rest, opInScope op = true ∧ v.wf mode = true ∧ m.wf (addr16 mode p) = true ∧
      bs = vexMapByte v :: vexByte v.w v.vvvv l :: op :: (m.bytes ++ rest) ∧ i = vex3Row l op p v m := by
  unfold decodeVex3 at h
  split at h
  next v0 v1 op bs =>
    dsimp only at h
    split at h
    next hc =>
      simp only [Bool.and_eq_true, beq_iff_eq] at hc
      obtain ⟨⟨⟨hv, hmap⟩, hpp⟩, hop⟩ := hc
      obtain ⟨m, rest, hm, rfl, hi⟩ := modRM_of_withModRM h
      cases hi
      refine ⟨_, op, _, m, rest, hop, hv, hm, ?_, rfl⟩
      rw [vexMapByte, vexByte, vexMapByte_eq_iff.2 ⟨rfl, rfl, rfl, hmap.symm⟩,
        vexByte_eq_iff.2 ⟨rfl, rfl, rfl, hpp.symm⟩]
    next => cases h
  next => cases h

/-- What EVEX payload bytes with the map bits `mm` are read as: the row, if `mm` and `L'L` select one. -/
theorem decodeEvex_bytes {w : Bool} {mm ll : BitVec 2} {op : Byte} {e : Evex} {m : ModRM}
    (rest : List Byte) (hop : opInScope op = true) (hmm : mm = 1#2 ∨ mm = 0) (he : e.wf mode = true)
    (hm : m.wf (addr16 mode p) = true) :
    decodeEvex mode p (evexPayload w mm ll e ++ op :: (m.bytes ++ rest)) =
      if mm = 0 then .illegal (p.length + 5 + m.bytes.length)
      else (evexRow w ll op p e m).elim (.illegal (p.length + 5 + m.bytes.length)) .instr := by
  obtain ⟨hr, hx, hb, hr2, hres, hmap⟩ := evexP0_eq_iff.1
    (rfl : bit1 e.rBar ++ bit1 e.xBar ++ bit1 e.bBar ++ bit1 e.r2Bar ++ e.p0Reserved ++ mm = _)
  obtain ⟨hw, hvvvv, hfix, hpp⟩ := vexByte_eq_iff.1
    (rfl : bit1 w ++ e.vvvv ++ bit1 e.p1Fixed ++ 1#2 = _)
  obtain ⟨hz, hll, hbc, hv2, haaa⟩ := evexP2_eq_iff.1
    (rfl : bit1 e.z ++ ll ++ bit1 e.b ++ bit1 e.v2Bar ++ e.aaa = _)
  have hscope : (mm == 1#2 || mm == 0#2) = true := by simpa using hmm
  simp only [evexPayload, List.cons_append, List.nil_append, decodeEvex, ← hr, ← hx, ← hb, ← hr2, ← hres,
    ← hmap, ← hw, ← hvvvv, ← hfix, ← hpp, ← hz, ← hll, ← hbc, ← hv2, ← haaa, he, hscope, hop,
    beq_self_eq_true, Bool.and_self, if_true, withModRM_bytes rest _ hm]
  cases evexRow w ll op p e m <;> rfl

theorem row_of_decodeEvex {bs : List Byte} {i : Instr} (h : decodeEvex mode p bs = .instr i) :
    ∃ w ll op e m rest, opInScope op = true ∧ e.wf mode = true ∧ m.wf (addr16 mode p) = true ∧
      bs = evexPayload w 1#2 ll e ++ op :: (m.bytes ++ rest) ∧ evexRow w ll op p e m = some i := by
  unfold decodeEvex at h
  split at h
  next p0 p1 p2 op bs =>
    dsimp only at h
    split at h
    next hc =>
      simp only [Bool.and_eq_true, Bool.or_eq_true, beq_iff_eq] at hc
      obtain ⟨⟨⟨he, hmm⟩, hpp⟩, hop⟩ := hc
      obtain ⟨m, rest, hm, rfl, hi⟩ := modRM_of_withModRM h
      split at hi
      next => cases hi
      next h0 =>
        split at hi
        next hrow =>
          cases hi
          refine ⟨_, _, op, _, m, rest, hop, he, hm, ?_, hrow⟩
          rw [evexPayload, evexP0_eq_iff.2 ⟨rfl, rfl, rfl, rfl, rfl, (hmm.resolve_right h0).symm⟩,
            vexByte_eq_iff.2 ⟨rfl, rfl, rfl, hpp.symm⟩, evexP2_eq_iff.2 ⟨rfl, rfl, rfl, rfl, rfl⟩]
          rfl
        next => cases hi
    next => cases h
  next => cases h

end

/-! ## Decoding and encoding -/

section
variable {mode : Mode} {p : List Prefix} (hp : p.all (Prefix.wf mode) = true) (bs : List Byte)
include hp

theorem takePrefixes_eq {b : Byte} (hb : b ∈ [0x0F, 0xC5, 0xC4, 0x62]) :
    takePrefixes mode (prefixBytes p ++ b :: bs) = (p, b :: bs) := by
  rw [takePrefixes_prefixBytes hp, takePrefixes, prefixOf_format mode b hb]
  simp only [List.append_nil]

theorem decode_leg : decode mode (prefixBytes p ++ 0x0F :: bs) = decodeLeg mode p bs := by
  rw [decode, takePrefixes_eq hp bs (by decide)]
  rfl

theorem decode_vex2 : decode mode (prefixBytes p ++ 0xC5 :: bs) = decodeVex2 mode p bs := by
  rw [decode, takePrefixes_eq hp bs (by decide)]
  rfl

theorem decode_vex3 : decode mode (prefixBytes p ++ 0xC4 :: bs) = decodeVex3 mode p bs := by
  rw [decode, takePrefixes_eq hp bs (by decide)]
  rfl

theorem decode_evex : decode mode (prefixBytes p ++ 0x62 :: bs) = decodeEvex mode p bs := by
  rw [decode, takePrefixes_eq hp bs (by decide)]
  rfl

end

/-- Settles O1, by the format of the row. -/
theorem decodeOfEncode : Obligations.DecodeOfEncode := by
  intro mode i rest hw
  cases isRow i with
  | leg p m hop =>
    obtain ⟨hparts, hleg⟩ := wf_legRow_iff.1 hw
    obtain ⟨hp, hm⟩ := partsWf_iff.1 hparts
    rw [encode_legRow_append hop, decode_leg hp, decodeLeg_bytes rest hop hleg hm]
  | vex2 l p v m hop =>
    obtain ⟨hparts, hv⟩ := wf_vex2Row_iff.1 hw
    obtain ⟨hp, hm⟩ := partsWf_iff.1 hparts
    rw [encode_vex2Row_append hop, decode_vex2 hp, decodeVex2_bytes rest hop hv hm]
  | vex3 l p v m hop =>
    obtain ⟨hparts, hv⟩ := wf_vex3Row_iff.1 hw
    obtain ⟨hp, hm⟩ := partsWf_iff.1 hparts
    rw [encode_vex3Row_append hop, decode_vex3 hp, decodeVex3_bytes rest hop hv hm]
  | evex w ll p e m hop hrow =>
    obtain ⟨hparts, he⟩ := (wf_evexRow_iff hrow).1 hw
    obtain ⟨hp, hm⟩ := partsWf_iff.1 hparts
    rw [encode_evexRow_append hop rest hrow, decode_evex hp,
      decodeEvex_bytes rest hop (.inl rfl) he hm, hrow]
    rfl

/-- Settles O2, by the byte that selects the format. -/
theorem encodeOfDecode : Obligations.EncodeOfDecode := by
  intro mode bs i h
  obtain ⟨hp, hbs⟩ := prefixes_of_takePrefixes mode bs
  unfold decode at h
  generalize takePrefixes mode bs = r at h hp hbs
  obtain ⟨p, _ | ⟨b, c⟩⟩ := r
  · cases h
  · dsimp only at h hp hbs
    subst hbs
    split_ifs at h with hleg hvex2 hvex3 hevex
    · obtain ⟨op, m, rest, hop, hl, hm, rfl, rfl⟩ := row_of_decodeLeg h
      exact ⟨wf_legRow_iff.2 ⟨partsWf_iff.2 ⟨hp, hm⟩, hl⟩, rest, by
        rw [encode_legRow_append hop, hleg]⟩
    · obtain ⟨l, op, v, m, rest, hop, hv, hm, rfl, rfl⟩ := row_of_decodeVex2 h
      exact ⟨wf_vex2Row_iff.2 ⟨partsWf_iff.2 ⟨hp, hm⟩, hv⟩, rest, by
        rw [encode_vex2Row_append hop, hvex2]⟩
    · obtain ⟨l, op, v, m, rest, hop, hv, hm, rfl, rfl⟩ := row_of_decodeVex3 h
      exact ⟨wf_vex3Row_iff.2 ⟨partsWf_iff.2 ⟨hp, hm⟩, hv⟩, rest, by
        rw [encode_vex3Row_append hop, hvex3]⟩
    · obtain ⟨w, ll, op, e, m, rest, hop, he, hm, rfl, hrow⟩ := row_of_decodeEvex h
      exact ⟨(wf_evexRow_iff hrow).2 ⟨partsWf_iff.2 ⟨hp, hm⟩, he⟩, rest, by
        rw [encode_evexRow_append hop rest hrow, hevex]⟩

/-! ## Steps that run no instruction -/

section
variable {s : State}

theorem step_of_decode_illegal {len : Nat} (h : decode s.mode s.fetched.1 = .illegal len) :
    step s = raise (if 15 < len then .lengthOver15 else .illegalEncoding) s := by
  unfold step State.fetchInstr
  rw [h]
  rfl

theorem step_of_decode_notInScope (h : decode s.mode s.fetched.1 = .notInScope) :
    step s = .refused .notInScope := by
  unfold step State.fetchInstr
  rw [h]
  rfl

theorem step_of_decode_truncated (h : decode s.mode s.fetched.1 = .truncated) :
    step s = s.fetched.2.outcome s := by
  unfold step State.fetchInstr
  rw [h]

end

/-- Settles O3: `mm` = 00 is answered before a row is looked for, and no row has `L'L` = 11. -/
theorem evexNoRowIllegal : Obligations.EvexNoRowIllegal := by
  refine ⟨fun mode w mm ll op p e m rest hop hw he hno => ?decoded, fun s len h => ?stepped⟩
  case decoded =>
    obtain ⟨hp, hm⟩ := partsWf_iff.1 hw
    have hscope : opInScope op = true := opInScope_iff.2 hop
    have hmm : mm = 1#2 ∨ mm = 0 := hno.imp_left And.left
    intro bytes
    have hbytes : bytes ++ rest =
        prefixBytes p ++ 0x62 :: (evexPayload w mm ll e ++ op :: (m.bytes ++ rest)) := by
      simp [bytes, evexPayload]
    have hlen : bytes.length = p.length + 5 + m.bytes.length := by
      simp only [bytes, prefixBytes, List.length_append, List.length_map, List.length_cons,
        List.length_nil]
    rw [hbytes, hlen, decode_evex hp, decodeEvex_bytes rest hscope hmm he hm]
    obtain ⟨rfl, rfl⟩ | rfl := hno
    · rfl
    · rfl
  case stepped =>
    rw [step_of_decode_illegal h]
    split <;> rfl

/-- Settles O16: the fetched bytes end where a byte cannot be fetched, for the reason of that byte. -/
theorem otherBytesStop : Obligations.OtherBytesStop := by
  intro s
  refine ⟨step_of_decode_notInScope, fun h => ?_⟩
  obtain ⟨hend, hget⟩ := fetched_end s
  refine ⟨hget, ?_⟩
  rw [step_of_decode_truncated h, hend]
  cases hst : s.fetched.2 with
  | refuse r => exact .inl ⟨r, rfl, rfl⟩
  | exn c =>
    rw [hst] at hend
    obtain rfl := codeByte_exn s _ c hend
    exact .inr ⟨rfl, rfl⟩

/-! ## Register numbers -/

theorem toNat_append_eq {m n : Nat} (x : BitVec m) (y : BitVec n) :
    (x ++ y).toNat = 2 ^ n * x.toNat + y.toNat := by
  rw [BitVec.toNat_append, ← Nat.shiftLeft_add_eq_or_of_lt y.isLt, Nat.shiftLeft_eq, Nat.mul_comm]

theorem toNat_bit1 (b : Bool) : (bit1 b).toNat = b.toNat := BitVec.toNat_ofBool b

section
variable (mv : Move) (n : BitVec 3)

theorem toNat_regNum : mv.regNum.toNat = 16 * mv.r2.toNat + 8 * mv.r.toNat + mv.reg.toNat := by
  simp only [Move.regNum, toNat_append_eq, toNat_bit1]
  omega

/-- EVEX extends `r/m` with `X` and `B`, the other formats with `B` alone (30_encoding.md R65). -/
theorem toNat_rmNum :
    (mv.rmNum n).toNat = 16 * (mv.fam == .evex && mv.x).toNat + 8 * mv.b.toNat + n.toNat := by
  unfold Move.rmNum
  split
  next h =>
    simp only [h, toNat_append_eq, toNat_bit1, beq_self_eq_true, Bool.true_and]
    omega
  next h =>
    simp only [beq_false_of_ne h, toNat_append_eq, toNat_bit1, BitVec.toNat_zero, Bool.false_and,
      Bool.toNat_false]
    omega

theorem toNat_baseNum : (mv.baseNum n).toNat = 8 * mv.b.toNat + n.toNat := by
  rw [Move.baseNum, toNat_append_eq, toNat_bit1]
  rfl

theorem toNat_indexNum : (mv.indexNum n).toNat = 8 * mv.x.toNat + n.toNat := by
  rw [Move.indexNum, toNat_append_eq, toNat_bit1]
  rfl

end

/-- The REX byte that counts stands last; without one the bits are 0 (30_encoding.md R53). -/
theorem effectiveRex_eq {p : List Prefix} {rex : BitVec 4}
    (h : (∃ before, p = before ++ [.rex rex]) ∨
      (rex = 0 ∧ ¬ ∃ before wrxb, p = before ++ [.rex wrxb])) : effectiveRex p = rex := by
  unfold effectiveRex
  obtain ⟨before, rfl⟩ | ⟨rfl, hno⟩ := h
  · rw [List.getLast?_concat]
  · split
    next wrxb hlast =>
      obtain ⟨before, hp⟩ := List.getLast?_eq_some_iff.1 hlast
      exact (hno ⟨before, wrxb, hp⟩).elim
    next => rfl

/-- Settles O6, by the format. -/
theorem registerNumbers : Obligations.RegisterNumbers := by
  intro i
  simp only [toNat_regNum, toNat_rmNum, toNat_baseNum, toNat_indexNum]
  unfold Instr.move
  generalize i.view = w
  obtain ⟨fmt, vl, ew, toRm, p, m⟩ := w
  cases fmt with
  | leg =>
    intro rex hrex
    obtain rfl := effectiveRex_eq hrex
    simp [View.move, Move.leg]
  | vex2 v => simp [View.move, Move.vex2]
  | vex3 v => simp [View.move, Move.vex3]
  | evex e => simp [View.move, Move.evex]

/-! ## 16-bit addressing -/

theorem bits3_cases (x : BitVec 3) :
    x = 0 ∨ x = 1 ∨ x = 2 ∨ x = 3 ∨ x = 4 ∨ x = 5 ∨ x = 6 ∨ x = 7 := by
  revert x
  decide

/-- The registers of 16-bit addressing are those of the table of 30_encoding.md R67. -/
theorem setWidth_base16Value (s : State) (rm : BitVec 3) :
    (base16Value s rm).setWidth 16 =
      ((regs16 rm.toNat).map fun n => (s.gprAt n).setWidth 16).sum := by
  obtain rfl | rfl | rfl | rfl | rfl | rfl | rfl | rfl := bits3_cases rm <;>
    simp [base16Value, regs16, BitVec.setWidth_add]

/-- Settles O8. -/
theorem effectiveAddress16 : Obligations.EffectiveAddress16 := by
  intro i s hmode scale
  have hbits : addrBits s.mode i.move.pfx = 16 := by
    rw [addrBits_eq, move_pfx]
    obtain ⟨hm, hp⟩ | ⟨hm, hp⟩ := hmode
    · simp [hm, hp]
    · simp [hm, hp]
  have heff (o : MemOp) : i.move.effAddr s o = ((i.move.rawAddr s o).setWidth 16).setWidth 64 := by
    rw [Move.effAddr, hbits]
  have hscale : i.move.dispScale = scale := by cases i <;> rfl
  refine ⟨fun rm d => ?base16, fun d => ?abs16⟩
  case base16 =>
    rw [heff, Move.rawAddr, BitVec.setWidth_add _ _ (by decide), setWidth_base16Value]
    cases d with
    | none => rfl
    | d8 d =>
      rw [Move.disp16, BitVec.setWidth_mul _ _ (by decide), setWidth_signExtend (by decide),
        BitVec.setWidth_ofNat_of_le (by decide), hscale]
    | d16 d => rw [Move.disp16, setWidth_signExtend (by decide), BitVec.signExtend_eq]
  case abs16 =>
    rw [heff, Move.rawAddr, BitVec.setWidth_setWidth_of_le d (by decide), BitVec.setWidth_eq]

/-! ## The length fault -/

/-- Settles O19: the length is the first check (60_exceptions.md R173). -/
theorem lengthFault : Obligations.LengthFault := by
  intro i s hlen
  rw [← move_len] at hlen
  exact exec_of_decodeFault (if_pos hlen)

/-! ## The two spellings of a register copy -/

/-- The checks of decoding see only these fields. -/
theorem decodeFault_congr {mv mv' : Move} (s : State) (hlen : mv.len = mv'.len)
    (hvvvv : mv.vvvvOk = mv'.vvvvOk) (henc : mv.encOk = mv'.encOk) (hfam : mv.fam = mv'.fam)
    (hvl : mv.vl = mv'.vl) : mv.decodeFault s = mv'.decodeFault s := by
  unfold Move.decodeFault
  rw [hlen, hvvvv, henc, hfam, hvl]

/-- Writing a register sees only these fields. -/
theorem writeReg_congr {mv mv' : Move} (s : State) (d : BitVec 5) (v : Vec) (hlen : mv.len = mv'.len)
    (hfam : mv.fam = mv'.fam) (hvl : mv.vl = mv'.vl) (hew : mv.ew = mv'.ew) (hz : mv.z = mv'.z)
    (haaa : mv.aaa = mv'.aaa) : mv.writeReg s d v = mv'.writeReg s d v := by
  have hmask : mv.maskBit s = mv'.maskBit s := by
    funext j
    unfold Move.maskBit
    rw [haaa]
  unfold Move.writeReg Move.newReg Move.kl
  rw [hlen, hfam, hvl, hew, hz, hmask]

/-- Settles O46. -/
theorem twoSpellingsOneCopy : Obligations.TwoSpellingsOneCopy := by
  intro i j s n n' hi hj hin hjn hfam hvl hew hlen hvvvv hlegal hz haaa hdst hsrc
  rw [← move_vl, ← move_vl] at hvl
  rw [← move_ew, ← move_ew] at hew
  rw [← move_len, ← move_len] at hlen
  rw [← vvvvOk_iff, ← vvvvOk_iff, Bool.coe_iff_coe] at hvvvv
  rw [← encOk_iff, ← encOk_iff, Bool.coe_iff_coe] at hlegal
  rw [← move_rm] at hin hjn
  have hfault : i.move.decodeFault s = j.move.decodeFault s :=
    decodeFault_congr s hlen hvvvv hlegal hfam hvl
  have hwrite := writeReg_congr s i.move.regNum (s.zmmAt (i.move.rmNum n)) hlen hfam hvl hew hz haaa
  rw [hdst, hsrc] at hwrite
  rw [exec_eq, exec_eq, hi, hj]
  simp only [Bool.false_eq_true, if_false, if_true, Move.toReg, Move.toRm, hin, hjn, hfault, hdst, hsrc,
    hwrite]

/-! ## Words written out -/

/-- Settles O4. -/
theorem specWordsDecode : Obligations.SpecWordsDecode := by
  unfold Obligations.SpecWordsDecode
  decide

/-- Settles O5. -/
theorem otherBytesNotRead : Obligations.OtherBytesNotRead := by
  unfold Obligations.OtherBytesNotRead
  decide

end Sys2Proof.Proofs

/-! The proofs of the statements of 40_common_semantics.md: what a step runs, the misaligned operand, the
results and frames of register copies, loads and stores, the bits above `VL`, and accesses with no element
masked off. -/

namespace Sys2Proof.Proofs

open Sys2Proof.Machine Sys2Proof.Laws

/-! ## The step of a well-formed instruction -/

theorem step_of_decode_instr {s : State} {i : Instr} (h : decode s.mode s.fetched.1 = .instr i) :
    step s = exec i s := by
  unfold step State.fetchInstr
  rw [h]

/-- A fetch begins with the bytes that can be fetched: its window is long enough for all of them. -/
theorem fetched_append {s : State} {bs : List Byte}
    (h : ∀ j (hj : j < bs.length), s.codeByte j = .ok bs[j]) : ∃ rest, s.fetched.1 = bs ++ rest :=
  codeBytes_append s 0 s.fetchWindow bs (codeByte_bound s bs.length fun j hj => ⟨_, h j hj⟩).le
    (by simpa only [Nat.zero_add] using h)

/-- Settles O15. -/
theorem stepRunsDecoded : Obligations.StepRunsDecoded := by
  intro s i hw hbytes
  obtain ⟨rest, hrest⟩ := fetched_append hbytes
  exact step_of_decode_instr (hrest ▸ decodeOfEncode s.mode i rest hw)

/-! ## A misaligned operand -/

theorem exec_of_operandAddr_error {i : Instr} {s : State} {o : MemOp} {st : Stop} (he : Executes i s)
    (hm : i.view.m.rm = .mem o) (h : i.move.operandAddr s o i.access = .error st) :
    exec i s = st.outcome s := by
  cases hr : i.view.toRm with
  | false =>
    rw [access_of_load hr] at h
    simp only [exec_load i s o he hm hr, Move.loadOperand, h]
  | true =>
    rw [access_of_store hr] at h
    simp only [exec_store i s o he hm hr, Move.storeOperand, h]

theorem operandAddr_misaligned {i : Instr} {s : State} {o : MemOp} {access : Access}
    (hseg : SegmentAllows i s o access) (h : (i.move.linear s o).toNat % i.view.vl.bytes ≠ 0) :
    i.move.operandAddr s o access = .error (.exn .misaligned) := by
  have hmis : i.move.misaligned s o = true := by
    rw [Move.misaligned, move_vl, bne_iff_ne]
    exact h
  simp only [Move.operandAddr, (segFault_none_iff i s o access).2 hseg, hmis, if_true]

/-- Settles O27: the check comes before the mask and the page are looked at. -/
theorem misalignedFault : Obligations.MisalignedFault := by
  intro i s o he hm hseg hmis
  exact exec_of_operandAddr_error he hm (operandAddr_misaligned hseg hmis)

/-! ## Every instruction that completes -/

/-- Settles O42. -/
theorem continuesAtNext : Obligations.ContinuesAtNext := by
  intro i s t h
  rw [exec_sameButMoved h]

/-- Opcode `6F`, if it completes, has written the register in `ModRM:reg`. -/
theorem exec_next_of_toReg {i : Instr} {s t : State} (h : exec i s = .next t) (hr : i.view.toRm = false) :
    ∃ v, t = i.move.writeReg s i.move.regNum v := by
  rw [exec_eq, hr] at h
  obtain ⟨-, ⟨n, -, ht⟩ | ⟨o, v, -, -, ht⟩⟩ := toReg_next _ _ _ h
  · exact ⟨_, ht⟩
  · exact ⟨_, ht⟩

/-- Opcode `7F` with a register in `r/m`, if it completes, has written that register. -/
theorem exec_next_of_toRm_reg {i : Instr} {s t : State} {n : BitVec 3} (h : exec i s = .next t)
    (hr : i.view.toRm = true) (hm : i.view.m.rm = .reg n) :
    ∃ v, t = i.move.writeReg s (i.move.rmNum n) v := by
  have he : Executes i s := (decodeFault_none_iff i s).1 (exec_next i s t h).1
  rw [exec_reg i s n he hm, hr] at h
  cases h
  exact ⟨_, rfl⟩

/-- Settles O41, by the direction of the move. -/
theorem upperBits : Obligations.UpperBits := by
  intro i s t h hdst dst b hge hb
  have hupper : ¬ b < i.view.vl.bits := Nat.not_lt.2 hge
  cases hr : i.view.toRm with
  | false =>
    have hd : dst = i.move.regNum := by simp only [dst, hr]
    obtain ⟨v, rfl⟩ := exec_next_of_toReg h hr
    rw [hd, getLsbD_writeReg i s _ v hb]
    exact if_neg hupper
  | true =>
    obtain ⟨n, hm⟩ := hdst.resolve_left (by simp [hr])
    have hd : dst = i.move.rmNum n := by simp only [dst, hr, hm]
    obtain ⟨v, rfl⟩ := exec_next_of_toRm_reg h hr hm
    rw [hd, getLsbD_writeReg i s _ v hb]
    exact if_neg hupper

/-! ## Register destinations: result and frame -/

/-- Settles O34. -/
theorem registerCopyResult : Obligations.RegisterCopyResult := by
  intro i s n he hm dst src
  have hexec : exec i s = .next (i.move.writeReg s dst (s.zmmAt src)) := by
    rw [exec_reg i s n he hm]
    cases hr : i.view.toRm <;> simp [dst, src, hr]
  exact ⟨_, hexec, exec_sameButMoved hexec, fun b hb => getLsbD_writeReg i s dst _ hb,
    fun d hd => zmmAt_writeReg_other _ _ _ hd, fun a => rfl⟩

/-! ## The bytes and bits of enabled elements -/

/-- An element has a whole number `e` of bytes, and the elements fill the operand. -/
theorem exists_elemBytes (i : Instr) :
    ∃ e, 0 < e ∧ i.move.ew = 8 * e ∧ i.move.ew / 8 = e ∧
      i.view.vl.bits / i.view.ew * e = i.view.vl.bytes := by
  obtain ⟨e, hew, he, -, hbytes, -⟩ := view_sizes i
  rw [move_ew]
  exact ⟨e, he, hew, by omega, hbytes⟩

theorem mem_enabledElems_of_byte {i : Instr} {s : State} {e k : Nat} (hew : i.move.ew = 8 * e) :
    k / e ∈ i.move.enabledElems s ↔
      k < i.view.vl.bytes ∧ i.view.mask s (8 * k / i.view.ew) = true := by
  obtain ⟨e', he, hew', -, hbytes⟩ := exists_elemBytes i
  obtain rfl : e = e' := by omega
  rw [mem_enabledElems, Nat.div_lt_iff_lt_mul he, hbytes, ← move_ew, hew,
    Nat.mul_div_mul_left _ _ (by decide)]

theorem mem_enabledElems_of_bit {i : Instr} {s : State} {b : Nat} :
    b / i.view.ew ∈ i.move.enabledElems s ↔
      b < i.view.vl.bits ∧ i.view.mask s (b / i.view.ew) = true := by
  obtain ⟨e, hew, he, -, -, hbits⟩ := view_sizes i
  rw [mem_enabledElems, Nat.div_lt_iff_lt_mul (by omega), hbits]

/-- The addresses of the enabled elements of an aligned operand in a page frame. -/
theorem elemAddrs_of_frame {i : Instr} {s : State} {access : Access} {la : Word64} {f : BitVec 52}
    (ha : i.view.vl.bytes ∣ la.toNat) (hf : s.pageAnswer (pageOf la) access = .frame f) :
    s.elemAddrs access la (i.move.ew / 8) (i.move.enabledElems s) =
      .ok ((i.move.enabledElems s).map fun j => (j, inFrame f la + j * (i.move.ew / 8))) :=
  elemAddrs_frame s access la _ _ f _ (bytes_dvd_page _) ha hf fun _ hj =>
    elem_offset_lt (mem_enabledElems.1 hj).1

/-! ## Loads -/

/-- The source counts only where its element is enabled. -/
theorem movedBit_congr {i : Instr} {s : State} {d : BitVec 5} {src src' : Nat → Bool} {b : Nat}
    (h : b / i.view.ew ∈ i.move.enabledElems s → src b = src' b) :
    i.view.movedBit s d src b = i.view.movedBit s d src' b := by
  unfold View.movedBit
  split_ifs with hb hmask
  · exact h (mem_enabledElems_of_bit.2 ⟨hb, hmask⟩)
  all_goals rfl

/-- Settles O35. -/
theorem loadResult : Obligations.LoadResult := by
  intro i s o f he hr hm hok hf dst base
  obtain ⟨e, hpos, hew, hsize, -⟩ := exists_elemBytes i
  have haddrs := elemAddrs_of_frame hok.2 hf
  have hexec : exec i s = .next (i.move.writeReg s dst (loadElems s.mem i.move.ew
      ((i.move.enabledElems s).map fun j => (j, base + j * (i.move.ew / 8))))) := by
    rw [exec_load i s o he hm hr, loadOperand_of_elemAddrs_ok hok haddrs]
  refine ⟨_, hexec, exec_sameButMoved hexec, fun b hb => ?bits,
    fun d hd => zmmAt_writeReg_other _ _ _ hd, fun a => rfl⟩
  case bits =>
    rw [getLsbD_writeReg i s dst _ hb]
    refine movedBit_congr fun hmem => ?_
    rw [← move_ew, hew] at hmem
    rw [hsize, hew, getLsbD_loadElems s.mem e base _ b hpos]
    simp [hmem, hb]

/-! ## Stores -/

/-- Elements touch program text when one of their bytes is text. -/
theorem touchesText_iff {s : State} {e base : Nat} {js : List Nat} (he : 0 < e) :
    s.touchesText e (js.map fun j => (j, base + j * e)) = true ↔
      ∃ k, k / e ∈ js ∧ s.isText (base + k) = true := by
  simp only [State.touchesText, List.any_eq_true, List.mem_map, List.mem_range]
  constructor
  · rintro ⟨-, ⟨j, hj, rfl⟩, b, hb, ht⟩
    refine ⟨j * e + b, ?_, by rwa [← Nat.add_assoc]⟩
    rwa [Nat.mul_comm, Nat.mul_add_div he, Nat.div_eq_of_lt hb, Nat.add_zero]
  · rintro ⟨k, hk, ht⟩
    refine ⟨_, ⟨k / e, hk, rfl⟩, k % e, Nat.mod_lt k he, ?_⟩
    rwa [Nat.add_assoc, Nat.mul_comm, Nat.div_add_mod]

/-- Settles O36: byte `a - base` of the operand lies in element `(a - base) / e`. -/
theorem storeResult : Obligations.StoreResult := by
  intro i s o f he hr hm hok hf base writes htext
  obtain ⟨e, hpos, hew, hsize, -⟩ := exists_elemBytes i
  have hwrites (a : Nat) : writes a ↔ base ≤ a ∧ (a - base) / e ∈ i.move.enabledElems s := by
    rw [mem_enabledElems_of_byte hew]
    exact and_congr_right fun h => and_congr_left fun _ => by omega
  have haddrs := elemAddrs_of_frame hok.2 hf
  have hclear : s.touchesText e ((i.move.enabledElems s).map fun j => (j, base + j * e)) = false := by
    rw [Bool.eq_false_iff]
    intro ht
    obtain ⟨k, hk, ht⟩ := (touchesText_iff hpos).1 ht
    have hw : writes (base + k) := (hwrites _).2 ⟨by omega, by rwa [Nat.add_sub_cancel_left]⟩
    rw [htext _ hw] at ht
    cases ht
  have hstore : i.move.storeOperand s o (s.zmmAt i.move.regNum) =
      .ok (storeElems s.mem (8 * e) (s.zmmAt i.move.regNum)
        ((i.move.enabledElems s).map fun j => (j, base + j * e))) := by
    rw [storeOperand_of_elemAddrs_ok _ hok haddrs, hsize, hclear, hew]
    rfl
  have hexec := exec_store i s o he hm hr
  rw [hstore] at hexec
  refine ⟨_, hexec, exec_sameButMoved hexec, rfl, fun a => ?_⟩
  rw [hwrites, advance_mem, read_storeElems _ _ _ _ _ _ hpos]
  exact ⟨fun h => if_pos h, fun h => if_neg h⟩

/-! ## No element masked off: one access to the whole operand -/

/-- Every element is enabled. -/
def AllEnabled (i : Instr) (s : State) : Prop :=
  ∀ k < i.view.vl.bits / i.view.ew, i.view.mask s k = true

/-- A load of the whole operand, whatever its elements. -/
def loadWhole (mv : Move) (s : State) (o : MemOp) : Except Stop Vec :=
  match mv.operandAddr s o .read with
  | .error st => .error st
  | .ok la =>
    match s.translate la .read with
    | .error st => .error st
    | .ok pa => .ok ((s.mem.readLE pa mv.vl.bytes).setWidth 512)

/-- A store of the whole operand, whatever its elements. -/
def storeWhole (mv : Move) (s : State) (o : MemOp) (v : Vec) : Except Stop Memory :=
  match mv.operandAddr s o .write with
  | .error st => .error st
  | .ok la =>
    match s.translate la .write with
    | .error st => .error st
    | .ok pa =>
      if (List.range mv.vl.bytes).any fun k => s.isText (pa + k) then
        .error (.refuse .storeIntoProgram)
      else .ok (s.mem.writeBytes pa (bytesLE mv.vl.bytes v))

/-! ### The first `n` elements of `e` bytes are `n * e` bytes -/

theorem loadElems_range (m : Memory) {e : Nat} (base n : Nat) (he : 0 < e) :
    loadElems m (8 * e) ((List.range n).map fun j => (j, base + j * e)) =
      (m.readLE base (n * e)).setWidth 512 := by
  apply BitVec.eq_of_getLsbD_eq
  intro b hb
  have hrange : b / (8 * e) < n ↔ b < 8 * (n * e) := by
    rw [Nat.div_lt_iff_lt_mul (by omega), Nat.mul_left_comm]
  rw [getLsbD_loadElems m e base _ b he, BitVec.getLsbD_setWidth, getLsbD_readLE]
  simp [hb, hrange]

theorem storeElems_append (m : Memory) (ew : Nat) (v : Vec) (ps qs : List (Nat × Nat)) :
    storeElems m ew v (ps ++ qs) = storeElems (storeElems m ew v ps) ew v qs := by
  induction ps generalizing m with
  | nil => rfl
  | cons p ps ih => exact ih _

theorem writeBytes_append (m : Memory) (a : Nat) (bs cs : List Byte) :
    m.writeBytes a (bs ++ cs) = (m.writeBytes a bs).writeBytes (a + bs.length) cs := by
  induction bs generalizing m a with
  | nil => rfl
  | cons b bs ih =>
    rw [List.cons_append, Memory.writeBytes, Memory.writeBytes, ih, List.length_cons, Nat.add_right_comm]
    rfl

theorem bytesLE_add {w : Nat} (k e : Nat) (v : BitVec w) :
    bytesLE (k + e) v = bytesLE k v ++ bytesLE e (v.extractLsb' (8 * k) (8 * e)) := by
  unfold bytesLE
  rw [List.range_add, List.map_append, List.map_map]
  refine congrArg _ (List.map_congr_left fun j hj => ?_)
  have hlt : j < e := List.mem_range.1 hj
  rw [extractLsb'_extractLsb' (by omega), ← Nat.mul_add]
  rfl

theorem storeElems_range (m : Memory) (e : Nat) (v : Vec) (base n : Nat) :
    storeElems m (8 * e) v ((List.range n).map fun j => (j, base + j * e)) =
      m.writeBytes base (bytesLE (n * e) v) := by
  induction n with
  | zero => rw [Nat.zero_mul]; rfl
  | succ n ih =>
    have hstart : n * (8 * e) = 8 * (n * e) := Nat.mul_left_comm ..
    rw [List.range_succ, List.map_append, storeElems_append, ih, Nat.succ_mul n, bytesLE_add,
      writeBytes_append, length_bytesLE, ← hstart]
    simp [storeElems]

theorem touchesText_range (s : State) {e : Nat} (base n : Nat) (he : 0 < e) :
    s.touchesText e ((List.range n).map fun j => (j, base + j * e)) =
      (List.range (n * e)).any fun k => s.isText (base + k) := by
  rw [Bool.eq_iff_iff, touchesText_iff he]
  simp [Nat.div_lt_iff_lt_mul he]

/-! ### Instructions with every element enabled -/

section
variable {i : Instr} {s : State} (hall : AllEnabled i s)
include hall

theorem enabledElems_of_allEnabled :
    i.move.enabledElems s = List.range (i.view.vl.bits / i.view.ew) := by
  rw [Move.enabledElems, move_kl, List.filter_eq_self]
  intro j hj
  rw [move_maskBit]
  exact hall j (List.mem_range.1 hj)

/-- An aligned operand lies in one page, so that one translation answers for all its elements. -/
theorem elemAddrs_of_allEnabled {access : Access} {la : Word64} (ha : i.view.vl.bytes ∣ la.toNat) :
    s.elemAddrs access la (i.move.ew / 8) (i.move.enabledElems s) =
      (s.translate la access).map fun pa =>
        (List.range (i.view.vl.bits / i.view.ew)).map fun j => (j, pa + j * (i.move.ew / 8)) := by
  cases ht : s.translate la access with
  | error st =>
    obtain ⟨n, hn⟩ := Nat.exists_eq_add_one_of_ne_zero (kl_pos i).ne'
    rw [enabledElems_of_allEnabled hall, hn, List.range_succ_eq_map, State.elemAddrs]
    simp [ht, Except.map]
  | ok pa =>
    obtain ⟨f, hf, hpa⟩ | ⟨_, _, _, -, he⟩ | ⟨-, he⟩ := translate_cases s la access
    · rw [ht] at hpa
      cases hpa
      rw [elemAddrs_of_frame ha hf, enabledElems_of_allEnabled hall]
      rfl
    · rw [ht] at he; cases he
    · rw [ht] at he; cases he

theorem loadOperand_of_allEnabled (o : MemOp) : i.move.loadOperand s o = loadWhole i.move s o := by
  obtain ⟨e, he, hew, hsize, hbytes⟩ := exists_elemBytes i
  unfold Move.loadOperand loadWhole
  cases hla : i.move.operandAddr s o .read with
  | error st => rfl
  | ok la =>
    obtain ⟨-, ha, rfl⟩ := (operandAddr_ok _ _ _ _ _).1 hla
    rw [move_vl] at ha
    dsimp only
    rw [elemAddrs_of_allEnabled hall ha, hsize, hew, move_vl]
    cases s.translate (i.move.linear s o) .read with
    | error st => rfl
    | ok pa =>
      simp only [Except.map, loadElems_range s.mem pa _ he]
      rw [hbytes]

theorem storeOperand_of_allEnabled (o : MemOp) (v : Vec) :
    i.move.storeOperand s o v = storeWhole i.move s o v := by
  obtain ⟨e, he, hew, hsize, hbytes⟩ := exists_elemBytes i
  unfold Move.storeOperand storeWhole
  cases hla : i.move.operandAddr s o .write with
  | error st => rfl
  | ok la =>
    obtain ⟨-, ha, rfl⟩ := (operandAddr_ok _ _ _ _ _).1 hla
    rw [move_vl] at ha
    dsimp only
    rw [elemAddrs_of_allEnabled hall ha, hsize, hew, move_vl]
    cases s.translate (i.move.linear s o) .write with
    | error st => rfl
    | ok pa => simp only [Except.map, storeElems_range, touchesText_range s pa _ he, hbytes]

theorem getLsbD_newReg_of_allEnabled (d : BitVec 5) (v : Vec) {b : Nat} (hb : b < 512) :
    (i.move.newReg s d v).getLsbD b =
      if b < i.move.vl.bits then v.getLsbD b
      else decide (i.move.fam = .sse) && (s.zmmAt d).getLsbD b := by
  obtain ⟨e, hew, he, -, -, hbits⟩ := view_sizes i
  rw [← zmmAt_writeReg_same, getLsbD_writeReg i s d v hb, move_vl]
  split
  next hlt =>
    have hmask := hall (b / i.view.ew) ((Nat.div_lt_iff_lt_mul (by omega)).2 (hbits.symm ▸ hlt))
    rw [View.movedBit, if_pos hlt, if_pos hmask]
  next hge => exact movedBit_of_ge (Nat.not_lt.1 hge)

end

/-- With every element enabled, what an instruction does depends neither on its element width nor on which
writemask it names. -/
theorem exec_eq_of_allEnabled {i j : Instr} {s : State} (hi : AllEnabled i s) (hj : AllEnabled j s)
    (hdir : i.view.toRm = j.view.toRm)
    (hmove : i.move = { j.move with ew := i.move.ew, aaa := i.move.aaa }) : exec i s = exec j s := by
  have hfault : i.move.decodeFault s = j.move.decodeFault s := by rw [hmove]; rfl
  have hload (o : MemOp) : i.move.loadOperand s o = j.move.loadOperand s o := by
    rw [loadOperand_of_allEnabled hi, loadOperand_of_allEnabled hj, hmove]; rfl
  have hstore (o : MemOp) (v : Vec) : i.move.storeOperand s o v = j.move.storeOperand s o v := by
    rw [storeOperand_of_allEnabled hi, storeOperand_of_allEnabled hj, hmove]; rfl
  have hlen : i.move.len = j.move.len := by rw [hmove]
  have hrm : i.move.rm = j.move.rm := by rw [hmove]
  have hreg : i.move.regNum = j.move.regNum := by rw [hmove]; rfl
  have hrmNum (n : BitVec 3) : i.move.rmNum n = j.move.rmNum n := by rw [hmove]; rfl
  have hwrite (d : BitVec 5) (v : Vec) : i.move.writeReg s d v = j.move.writeReg s d v := by
    have hnew : i.move.newReg s d v = j.move.newReg s d v := by
      apply BitVec.eq_of_getLsbD_eq
      intro b hb
      rw [getLsbD_newReg_of_allEnabled hi d v hb, getLsbD_newReg_of_allEnabled hj d v hb, hmove]
    rw [Move.writeReg, Move.writeReg, hnew, hlen]
  rw [exec_eq, exec_eq, hdir]
  simp only [Move.toRm, Move.toReg, hfault, hrm, hreg, hrmNum, hload, hstore, hwrite, hlen]

/-! ### The statements about masks of all ones -/

theorem allEnabled_of_aaa_zero {i : Instr} {e : Evex} (s : State) (hfmt : i.view.fmt = .evex e)
    (ha : e.aaa = 0) : AllEnabled i s := by
  intro k _
  simp [View.mask, hfmt, ha]

/-- Settles O47: without a writemask every element is enabled. -/
theorem unmaskedElementSizeIrrelevant : Obligations.UnmaskedElementSizeIrrelevant := by
  intro p e m s ha
  have same {i j : Instr} (hi : i.view.fmt = .evex e) (hj : j.view.fmt = .evex e) :=
    exec_eq_of_allEnabled (allEnabled_of_aaa_zero s hi ha) (allEnabled_of_aaa_zero s hj ha)
  exact ⟨same rfl rfl rfl rfl, same rfl rfl rfl rfl, same rfl rfl rfl rfl, same rfl rfl rfl rfl,
    same rfl rfl rfl rfl, same rfl rfl rfl rfl⟩

/-- Without zeroing-masking an encoding is legal whatever its writemask (30_encoding.md R73). -/
theorem evexLegal_aaa {e : Evex} (toRm : Bool) (p : List Prefix) (m : ModRM) (a : BitVec 3)
    (hz : e.z = false) : evexLegal toRm p { e with aaa := a } m = evexLegal toRm p e m := by
  simp [evexLegal, hz]

/-- Settles O48. -/
theorem allOnesMaskIsNoMask : Obligations.AllOnesMaskIsNoMask := by
  intro i j e s hi hj hz hall
  have hfmt : j.view.fmt = .evex { e with aaa := 0 } := by rw [hj]
  refine exec_eq_of_allEnabled hall (allEnabled_of_aaa_zero s hfmt rfl) (by rw [hj]) ?_
  simp only [Instr.move, hj, View.move, hi, Move.evex, evexLegal_aaa _ _ _ _ hz]

end Sys2Proof.Proofs

/-! The proof of the statement of 41_movdqa_sse.md: what a MOVDQA register copy leaves in its destination. -/

namespace Sys2Proof.Proofs

open Sys2Proof.Machine Sys2Proof.Laws

/-- A legacy SSE form has no writemask: it takes the source below `VL` and keeps the destination above
(40_common_semantics.md R95). -/
theorem movedBit_of_leg {w : View} {s : State} {d : BitVec 5} {src : Nat → Bool} {b : Nat}
    (hfmt : w.fmt = .leg) :
    w.movedBit s d src b = if b < w.vl.bits then src b else (s.zmmAt d).getLsbD b := by
  simp only [View.movedBit, View.mask, hfmt, if_true]

/-- A vector register read bit by bit from `x` below bit 128 and from `y` above holds those two parts. -/
theorem extractLsb'_of_low_high {v x y : Vec}
    (h : ∀ b < 512, v.getLsbD b = if b < 128 then x.getLsbD b else y.getLsbD b) :
    v.extractLsb' 0 128 = x.extractLsb' 0 128 ∧ v.extractLsb' 128 384 = y.extractLsb' 128 384 := by
  constructor
  · apply BitVec.eq_of_getLsbD_eq
    intro b hb
    simp only [BitVec.getLsbD_extractLsb', Nat.zero_add, h b (by omega), if_pos hb]
  · apply BitVec.eq_of_getLsbD_eq
    intro b hb
    have habove : ¬ 128 + b < 128 := by omega
    simp only [BitVec.getLsbD_extractLsb', h (128 + b) (by omega), if_neg habove]

/-- A 128-bit legacy SSE register copy completes, with the low 128 bits moved and the others kept. -/
theorem exec_legCopy128 {i : Instr} {s : State} {n : BitVec 3} (he : Executes i s)
    (hm : i.view.m.rm = .reg n) (hfmt : i.view.fmt = .leg) (hvl : i.view.vl = .v128) :
    let dst := if i.view.toRm then i.move.rmNum n else i.move.regNum
    let src := if i.view.toRm then i.move.regNum else i.move.rmNum n
    ∃ t, exec i s = .next t ∧ (t.zmmAt dst).extractLsb' 0 128 = (s.zmmAt src).extractLsb' 0 128 ∧
      (t.zmmAt dst).extractLsb' 128 384 = (s.zmmAt dst).extractLsb' 128 384 := by
  intro dst src
  obtain ⟨t, hexec, -, hbits, -⟩ := registerCopyResult i s n he hm
  refine ⟨t, hexec, extractLsb'_of_low_high fun b hb => ?_⟩
  rw [hbits b hb, movedBit_of_leg hfmt, hvl]
  rfl

/-- Settles O38: each opcode is a 128-bit legacy SSE copy, in its own direction. -/
theorem movdqaCopyKeepsUpper : Obligations.MovdqaCopyKeepsUpper := by
  intro p reg n s six sev a b
  exact ⟨fun he => exec_legCopy128 he rfl rfl rfl, fun he => exec_legCopy128 he rfl rfl rfl⟩

end Sys2Proof.Proofs

/-! The proof of the statement of 42_vmovdqa_vex.md: the state after a VMOVDQA register copy. -/

namespace Sys2Proof.Proofs

open Sys2Proof.Machine Sys2Proof.Laws

/-- A VEX form has no writemask (42_vmovdqa_vex.md R110 to R113). -/
theorem allEnabled_of_vex {i : Instr} (s : State)
    (hvex : (∃ v, i.view.fmt = .vex2 v) ∨ ∃ v, i.view.fmt = .vex3 v) : AllEnabled i s := by
  intro k _
  obtain ⟨v, hfmt⟩ | ⟨v, hfmt⟩ := hvex
  · simp only [View.mask, hfmt]
  · simp only [View.mask, hfmt]

/-- The two-byte and the three-byte spelling are of the VEX family (30_encoding.md R54, R55). -/
theorem fam_of_vex {i : Instr}
    (hvex : (∃ v, i.view.fmt = .vex2 v) ∨ ∃ v, i.view.fmt = .vex3 v) : i.move.fam = .vex := by
  obtain ⟨v, hfmt⟩ | ⟨v, hfmt⟩ := hvex
  · rw [Instr.move, View.move, hfmt]; rfl
  · rw [Instr.move, View.move, hfmt]; rfl

/-- With every element enabled a VEX or EVEX form writes the low `VL` bits of the source, zero-extended
(40_common_semantics.md R95). -/
theorem newReg_eq_setWidth {i : Instr} {s : State} (hall : AllEnabled i s) (hfam : i.move.fam ≠ .sse)
    (d : BitVec 5) (v : Vec) : i.move.newReg s d v = (v.setWidth i.view.vl.bits).setWidth 512 := by
  apply BitVec.eq_of_getLsbD_eq
  intro b hb
  rw [getLsbD_newReg_of_allEnabled hall d v hb, move_vl, BitVec.getLsbD_setWidth,
    BitVec.getLsbD_setWidth]
  by_cases hlow : b < i.view.vl.bits
  · simp [hb, hlow]
  · simp [hlow, hfam]

/-- Settles O39: in either direction the destination takes the zero-extended source. -/
theorem vmovdqaCopyZeroExtends : Obligations.VmovdqaCopyZeroExtends := by
  intro i s n he hm hvex dst src
  have hfam : i.move.fam ≠ .sse := by rw [fam_of_vex hvex]; decide
  have hwrite (d : BitVec 5) (v : Vec) : i.move.writeReg s d v =
      (s.setZmm d ((v.setWidth i.view.vl.bits).setWidth 512)).advance (encode i).length := by
    rw [Move.writeReg, newReg_eq_setWidth (allEnabled_of_vex s hvex) hfam, move_len]
  rw [exec_reg i s n he hm, hwrite, hwrite]
  cases hr : i.view.toRm with
  | false => simp [dst, src, hr]
  | true => simp [dst, src, hr]

end Sys2Proof.Proofs

/-! The proof of the statement of 43_vmovdqa32_evex.md: a masked register copy, element by element. -/

namespace Sys2Proof.Proofs

open Sys2Proof.Machine Sys2Proof.Laws

/-- Every bit of an element lies inside the operand. -/
theorem elem_bit_lt {i : Instr} {j b : Nat} (hj : j < i.view.vl.bits / i.view.ew) (hb : b < i.view.ew) :
    j * i.view.ew + b < i.view.vl.bits := by
  obtain ⟨-, -, -, -, -, hbits⟩ := view_sizes i
  calc j * i.view.ew + b < (j + 1) * i.view.ew := by rw [Nat.add_one_mul]; omega
    _ ≤ i.view.vl.bits / i.view.ew * i.view.ew := Nat.mul_le_mul_right _ hj
    _ = i.view.vl.bits := hbits

/-- A bit of the operand belongs to the element in which it lies, so that element's mask bit decides it
(40_common_semantics.md R93). -/
theorem movedBit_of_elem {i : Instr} {s : State} {d : BitVec 5} {src : Nat → Bool} {j b : Nat}
    (hj : j < i.view.vl.bits / i.view.ew) (hb : b < i.view.ew) :
    i.view.movedBit s d src (j * i.view.ew + b) =
      if i.view.mask s j then src (j * i.view.ew + b)
      else if i.view.zeroing then false else (s.zmmAt d).getLsbD (j * i.view.ew + b) := by
  have helem : (j * i.view.ew + b) / i.view.ew = j := by
    rw [Nat.mul_comm, Nat.mul_add_div (by omega), Nat.div_eq_of_lt hb, Nat.add_zero]
  rw [View.movedBit, if_pos (elem_bit_lt hj hb), helem]

/-- A vector whose bits are the moved ones holds in element `j` the source's element, 0 or the old one
(40_common_semantics.md R93). -/
theorem elem_of_movedBit {i : Instr} {s : State} {d : BitVec 5} {v src : Vec} {j : Nat}
    (hj : j < i.view.vl.bits / i.view.ew)
    (hbits : ∀ b < 512, v.getLsbD b = i.view.movedBit s d (fun b => src.getLsbD b) b) :
    v.extractLsb' (j * i.view.ew) i.view.ew =
      if i.view.mask s j then src.extractLsb' (j * i.view.ew) i.view.ew
      else if i.view.zeroing then 0 else (s.zmmAt d).extractLsb' (j * i.view.ew) i.view.ew := by
  apply BitVec.eq_of_getLsbD_eq
  intro b hb
  have hlt : j * i.view.ew + b < 512 := (elem_bit_lt hj hb).trans_le (bits_le _)
  rw [BitVec.getLsbD_extractLsb', hbits _ hlt, movedBit_of_elem hj hb]
  split_ifs <;> simp [hb]

/-- With a writemask selected the mask bits are those of `K[aaa]` (40_common_semantics.md R93). -/
theorem mask_of_aaa_ne_zero {w : View} {e : Evex} (s : State) (j : Nat) (hfmt : w.fmt = .evex e)
    (haaa : e.aaa ≠ 0) : w.mask s j = (s.kAt e.aaa).getLsbD j := by
  simp only [View.mask, hfmt, beq_eq_false_iff_ne.2 haaa, Bool.false_or]

/-- Settles O40: the register copy's bits, gathered into element `j`. -/
theorem evexCopyByElement : Obligations.EvexCopyByElement := by
  intro i s n e j he hm hfmt haaa hj dst src
  obtain ⟨t, hexec, -, hbits, -⟩ := registerCopyResult i s n he hm
  have hzero : i.view.zeroing = e.z := by simp only [View.zeroing, hfmt]
  refine ⟨t, hexec, ?_⟩
  rw [elem_of_movedBit hj hbits, mask_of_aaa_ne_zero s j hfmt haaa, hzero]

end Sys2Proof.Proofs

/-! The proofs of the statements of 60_exceptions.md: each exception of an instruction in the order of R173,
what is recorded of it, and the control state that no step changes. -/

namespace Sys2Proof.Proofs

open Sys2Proof.Machine Sys2Proof.Laws

/-! ## Exceptions of decoding and enablement -/

/-- An instruction of at most 15 bytes goes on to the second line of 60_exceptions.md R173. -/
theorem decodeFault_of_length_le {i : Instr} {s : State} (hlen : (encode i).length ≤ 15) :
    i.move.decodeFault s =
      if !i.move.vvvvOk then some .vvvvUsed
      else if !i.move.encOk then some .illegalEncoding
      else if !s.enabled i.move.fam i.move.vl then some .notEnabled
      else if s.cr0TS then some .deviceNotAvailable
      else none := by
  rw [← move_len] at hlen
  exact if_neg (Nat.not_lt.2 hlen)

/-- Settles O20. -/
theorem vvvvFault : Obligations.VvvvFault := by
  intro i s hlen hv
  rw [← vvvvOk_iff, Bool.not_eq_true] at hv
  exact exec_of_decodeFault (by simp [decodeFault_of_length_le hlen, hv])

/-- Settles O21. -/
theorem illegalEncodingFault : Obligations.IllegalEncodingFault := by
  intro i s hlen hv hl
  rw [← vvvvOk_iff] at hv
  rw [← encOk_iff, Bool.not_eq_true] at hl
  exact exec_of_decodeFault (by simp [decodeFault_of_length_le hlen, hv, hl])

/-- Settles O22. -/
theorem notEnabledFault : Obligations.NotEnabledFault := by
  intro i s hlen hv hl hready
  rw [← vvvvOk_iff] at hv
  rw [← encOk_iff] at hl
  rw [← enabled_iff, Bool.not_eq_true] at hready
  exact exec_of_decodeFault (by simp [decodeFault_of_length_le hlen, hv, hl, hready])

/-- Settles O23. -/
theorem deviceNotAvailableFault : Obligations.DeviceNotAvailableFault := by
  intro i s hlen hv hl hready hts
  rw [← vvvvOk_iff] at hv
  rw [← encOk_iff] at hl
  rw [← enabled_iff] at hready
  have hts' : s.cr0TS = true := hts
  exact exec_of_decodeFault (by simp [decodeFault_of_length_le hlen, hv, hl, hready, hts'])

/-! ## Exceptions of the segment -/

section
variable {mv : Move} {s : State} {o : MemOp} {access : Access}

/-- In 64-bit mode the segment-level check fails in one way only. -/
theorem segFault_of_mode64 (hm : s.mode = .mode64) :
    mv.segFault s o access = none ∨ mv.segFault s o access = some (segCause (mv.seg s o)) := by
  rw [Move.segFault, hm]
  exact ite_eq_or_eq ..

/-- Outside 64-bit mode: the limit, then the rights, then the end of the real-address segment (log 21). -/
theorem segFault_of_mode_ne (hm : s.mode ≠ .mode64) :
    mv.segFault s o access =
      if (s.segs.get (mv.seg s o)).limit.toNat < (mv.effAddr s o).toNat + (mv.vl.bytes - 1) then
        some (segCause (mv.seg s o))
      else if (s.segs.get (mv.seg s o)).forbids access then some .segmentViolation
      else if s.opMode = .real ∧ 0xFFFF < (mv.effAddr s o).toNat + (mv.vl.bytes - 1) then
        some .segmentViolation
      else none := by
  unfold Move.segFault
  cases h : s.mode
  · exact (hm h).elim
  · rfl
  · rfl

/-- Within the limit the segment-level checks raise nothing but #GP(0) (60_exceptions.md R169). -/
theorem segFault_within_limit (hm : s.mode ≠ .mode64)
    (hlim : (mv.effAddr s o).toNat + (mv.vl.bytes - 1) ≤ (s.segs.get (mv.seg s o)).limit.toNat) :
    mv.segFault s o access = none ∨ mv.segFault s o access = some .segmentViolation := by
  rw [segFault_of_mode_ne hm, if_neg (Nat.not_lt.2 hlim)]
  split_ifs
  · exact .inr rfl
  · exact .inr rfl
  · exact .inl rfl

end

/-- #SS(0) for SS, else #GP(0) (60_exceptions.md R168, R169). -/
theorem raise_segCause (g : SegReg) (s : State) :
    raise (segCause g) s =
      if g = .ss then .fault (.exception .stackSegment 12 (some 0) s.rip none)
      else .fault (.exception .segmentViolation 13 (some 0) s.rip none) := by
  unfold segCause
  split <;> rfl

/-- A segment-level check that fails raises its exception, for loads and stores. -/
theorem exec_of_segFault {i : Instr} {s : State} {o : MemOp} {c : Cause} (he : Executes i s)
    (hm : i.view.m.rm = .mem o) (h : i.move.segFault s o i.access = some c) : exec i s = raise c s :=
  exec_of_operandAddr_error (st := .exn c) he hm (by rw [Move.operandAddr, h])

/-- Settles O24: an operand with a non-canonical byte does not pass the check. -/
theorem nonCanonicalFault : Obligations.NonCanonicalFault := by
  rintro i s o he hm h64 ⟨k, hk, hc⟩
  have hfault : i.move.segFault s o i.access ≠ none := by
    rw [Ne, segFault_none_iff]
    rintro ⟨hcanonical, -⟩
    rw [hcanonical h64 k hk] at hc
    cases hc
  rw [← raise_segCause]
  exact exec_of_segFault he hm ((segFault_of_mode64 h64).resolve_left hfault)

/-- Settles O25: the last byte lies beyond the limit if any byte does. -/
theorem segmentLimitFault : Obligations.SegmentLimitFault := by
  rintro i s o he hm hne ⟨k, hk, hlim⟩
  rw [← raise_segCause]
  refine exec_of_segFault he hm ?_
  rw [segFault_of_mode_ne hne, move_vl, if_pos (by omega)]

/-- Settles O26: within the limit a check that fails raises #GP(0), and each of the four causes makes one
fail. -/
theorem segmentRightsFault : Obligations.SegmentRightsFault := by
  intro i s o he hm hne hlim hcause
  have hfault : i.move.segFault s o i.access ≠ none := by
    rw [Ne, segFault_none_iff]
    rintro ⟨-, hallows⟩
    obtain ⟨-, hnull, hread, hwrite, hreal⟩ := hallows hne
    rcases hcause with h | ⟨hr, h⟩ | ⟨hr, h⟩ | ⟨hlma, hpe, k, hk, h⟩
    · simp [hnull] at h
    · simp [hwrite (access_of_store hr)] at h
    · simp [hread (access_of_load hr)] at h
    · exact absurd (hreal hlma hpe k hk) (Nat.not_le.2 h)
  have hlast := hlim (i.view.vl.bytes - 1) (Nat.sub_lt (bytes_pos _) Nat.one_pos)
  rw [← move_vl] at hlast
  exact exec_of_segFault he hm ((segFault_within_limit hne hlast).resolve_left hfault)

/-! ## The page fault -/

/-- The bits of the error code of a page fault (60_exceptions.md R170). -/
theorem getLsbD_pageFaultCode (access : Access) (cpl : BitVec 2) (present rsvd pk : Bool) (b : Nat) :
    (pageFaultCode access cpl present rsvd pk).getLsbD b =
      [present, access == .write, cpl == 3, rsvd, false, pk].getD b false := by
  by_cases hb : b < 6
  · revert cpl present rsvd pk
    revert b
    cases access <;> decide
  · rw [pageFaultCode, BitVec.getLsbD_setWidth, BitVec.getLsbD_of_ge _ b (Nat.not_lt.1 hb),
      Bool.and_false, List.getD_eq_default _ _ (Nat.not_lt.1 hb)]

theorem access_beq_write (i : Instr) : (i.access == .write) = i.view.toRm := by
  unfold Instr.access
  cases i.view.toRm <;> rfl

/-- The lowest enabled element comes first. -/
theorem enabledElems_eq_cons {i : Instr} {s : State} {j : Nat}
    (hj : j < i.view.vl.bits / i.view.ew) (hmask : i.view.mask s j = true)
    (hlow : ∀ k < j, i.view.mask s k = false) : ∃ js, i.move.enabledElems s = j :: js := by
  obtain ⟨r, hr⟩ := Nat.exists_eq_add_of_lt hj
  refine ⟨_, List.filter_eq_cons_iff.2 ⟨List.range j, (List.range r).map (j + 1 + ·), ?_, ?_, ?_, rfl⟩⟩
  · rw [move_kl, hr, Nat.add_right_comm, List.range_add, List.range_succ, List.append_assoc]
    rfl
  · intro k hk
    rw [move_maskBit, hlow k (List.mem_range.1 hk)]
    exact Bool.false_ne_true
  · rwa [move_maskBit]

/-- The first element that is accessed stops the instruction, if it cannot be. -/
theorem elemAddrs_cons_error {s : State} {access : Access} {la : Word64} {n j : Nat} {js : List Nat}
    {st : Stop} (h : s.translate (la + BitVec.ofNat 64 (j * n)) access = .error st) :
    s.elemAddrs access la n (j :: js) = .error st := by
  rw [State.elemAddrs, h]

/-- Every element of an aligned operand lies in the operand's page, so that page's refusal is its own. -/
theorem translate_elem_pageFault {i : Instr} {s : State} {access : Access} {la : Word64} {j : Nat}
    {present rsvd pk : Bool} (ha : i.view.vl.bytes ∣ la.toNat)
    (hj : j < i.view.vl.bits / i.view.ew)
    (hp : s.pageAnswer (pageOf la) access = .pageFault present rsvd pk) :
    s.translate (la + BitVec.ofNat 64 (j * (i.move.ew / 8))) access =
      .error (.exn (.pageFault (pageFaultCode access s.cpl present rsvd pk)
        (la + BitVec.ofNat 64 (j * (i.move.ew / 8))))) := by
  have hpage := (inPage la _ _ 0 (bytes_dvd_page i.view.vl) ha (elem_offset_lt hj)).1
  rw [State.translate, hpage, hp]

/-- Settles O28. -/
theorem pageFaultRecord : Obligations.PageFaultRecord := by
  intro i s o present rsvd pk j he hm hok hp hj hmask hlow
  obtain ⟨js, hjs⟩ := enabledElems_eq_cons hj hmask hlow
  have hstop := elemAddrs_cons_error (js := js) (translate_elem_pageFault hok.2 hj hp)
  rw [← hjs] at hstop
  have hbit := getLsbD_pageFaultCode i.access s.cpl present rsvd pk
  refine ⟨pageFaultCode i.access s.cpl present rsvd pk, ?_, hbit 0, ?_, hbit 2, hbit 3, hbit 4, hbit 5,
    fun b hb => ?_⟩
  · rw [exec_of_elemAddrs_error he hm hok hstop, move_ew]
    rfl
  · rw [← access_beq_write]
    exact hbit 1
  · rw [hbit, List.getD_eq_default _ _ hb]

/-! ## What is recorded of an exception -/

theorem exn_of_outcome {st : Stop} {s : State} {f : Fault} (h : st.outcome s = .fault f) :
    ∃ c, raise c s = .fault f := by
  cases st with
  | exn c => exact ⟨c, h⟩
  | refuse r => cases h

/-- Every exception of an instruction is taken by `raise`. -/
theorem raise_of_exec {i : Instr} {s : State} {f : Fault} (h : exec i s = .fault f) :
    ∃ c, raise c s = .fault f := by
  cases hd : i.move.decodeFault s with
  | some c => exact ⟨c, exec_of_decodeFault hd ▸ h⟩
  | none =>
    have he := (decodeFault_none_iff i s).1 hd
    cases hm : i.view.m.rm with
    | reg n => rw [exec_reg i s n he hm] at h; cases h
    | mem o =>
      cases hr : i.view.toRm with
      | false =>
        rw [exec_load i s o he hm hr] at h
        split at h
        next => exact exn_of_outcome h
        next => cases h
      | true =>
        rw [exec_store i s o he hm hr] at h
        split at h
        next => exact exn_of_outcome h
        next => cases h

/-- Every exception of a step is taken by `raise`, of its fetch and decoding as of its instruction. -/
theorem raise_of_step {s : State} {f : Fault} (h : step s = .fault f) : ∃ c, raise c s = .fault f := by
  unfold step at h
  split at h
  next => exact raise_of_exec h
  next => exact exn_of_outcome h

/-- The vectors, the error codes and the recorded address of 60_exceptions.md R160 and R172. -/
theorem cause_record (c : Cause) :
    (c.cr2.isSome = true ↔ c.vector = 14) ∧
      ((c.vector = 6 ∧ c.errorCode = none) ∨ (c.vector = 7 ∧ c.errorCode = none) ∨
        (c.vector = 12 ∧ c.errorCode = some 0) ∨ (c.vector = 13 ∧ c.errorCode = some 0) ∨
        (c.vector = 14 ∧ c.errorCode.isSome = true)) := by
  cases c <;> simp [Cause.cr2, Cause.vector, Cause.errorCode]

/-- Settles O29. -/
theorem faultRecord : Obligations.FaultRecord := by
  intro s f h
  obtain ⟨c, hc⟩ : ∃ c, raise c s = .fault f := by
    rcases h with h | ⟨i, h⟩
    · exact raise_of_step h
    · exact raise_of_exec h
  cases hc
  exact ⟨c, _, _, _, rfl, cause_record c⟩

/-- Settles O30: no cause has vector 19. -/
theorem noSimdException : Obligations.NoSimdException := by
  refine fun i s => ⟨fun c v code rip cr2 h => ?_, fun t h => exec_keeps_mxcsr h⟩
  obtain ⟨cause, hc⟩ := raise_of_exec h
  cases hc
  obtain ⟨-, hvector⟩ := cause_record c
  omega

/-! ## The control state -/

/-- Settles O53: a step that completes runs an instruction, and the mode is not computed from what that
changes. -/
theorem stepKeepsControlState : Obligations.StepKeepsControlState := by
  intro s t h
  obtain ⟨i, -, hexec⟩ := step_next s t h
  have hsame := exec_sameButMoved hexec
  have hrip : t.rip = s.rip + BitVec.ofNat 64 (encode i).length := by rw [hsame]
  refine ⟨?_, by rw [hsame]; rfl⟩
  rw [hrip]
  exact hsame

end Sys2Proof.Proofs

/-! The proofs of the statements of 70_reset_and_hazards.md: a load after a store, and the launch. -/

namespace Sys2Proof.Proofs

open Sys2Proof.Machine Sys2Proof.Laws

/-! ## A load after a store -/

/-- Opcode `7F` with memory in `r/m`, if it completes, has made its store. -/
theorem exec_next_of_toRm_mem {i : Instr} {s t : State} {o : MemOp} (h : exec i s = .next t)
    (hr : i.view.toRm = true) (hm : i.view.m.rm = .mem o) :
    ∃ m, i.move.storeOperand s o (s.zmmAt i.move.regNum) = .ok m ∧
      t = { s with mem := m }.advance i.move.len := by
  have he : Executes i s := (decodeFault_none_iff i s).1 (exec_next i s t h).1
  rw [exec_store i s o he hm hr] at h
  split at h
  next st _ => cases st <;> cases h
  next m hstore => cases h; exact ⟨m, hstore, rfl⟩

/-- Opcode `6F` with memory in `r/m`, if it completes, has written what it loads. -/
theorem exec_next_of_toReg_mem {i : Instr} {s t : State} {o : MemOp} (h : exec i s = .next t)
    (hr : i.view.toRm = false) (hm : i.view.m.rm = .mem o) :
    ∃ v, i.move.loadOperand s o = .ok v ∧ t = i.move.writeReg s i.move.regNum v := by
  have he : Executes i s := (decodeFault_none_iff i s).1 (exec_next i s t h).1
  rw [exec_load i s o he hm hr] at h
  split at h
  next st _ => cases st <;> cases h
  next v hload => cases h; exact ⟨v, hload, rfl⟩

theorem translate_of_frame {s : State} {la : Word64} {access : Access} {f : BitVec 52}
    (hf : s.pageAnswer (pageOf la) access = .frame f) : s.translate la access = .ok (inFrame f la) := by
  rw [State.translate, hf]

/-- A store of the whole operand that succeeds has written the value's low bytes in the page frame. -/
theorem mem_of_storeWhole {mv : Move} {s : State} {o : MemOp} {v : Vec} {m : Memory} {f : BitVec 52}
    (h : storeWhole mv s o v = .ok m)
    (hf : s.pageAnswer (pageOf (mv.linear s o)) .write = .frame f) :
    m = s.mem.writeBytes (inFrame f (mv.linear s o)) (bytesLE mv.vl.bytes v) := by
  unfold storeWhole at h
  split at h
  next => cases h
  next la hla =>
    obtain ⟨-, -, rfl⟩ := (operandAddr_ok _ _ _ _ _).1 hla
    rw [translate_of_frame hf] at h
    dsimp only at h
    split at h
    next => cases h
    next => cases h; rfl

/-- A load of the whole operand that succeeds has read its bytes in the page frame. -/
theorem vec_of_loadWhole {mv : Move} {s : State} {o : MemOp} {v : Vec} {f : BitVec 52}
    (h : loadWhole mv s o = .ok v) (hf : s.pageAnswer (pageOf (mv.linear s o)) .read = .frame f) :
    v = (s.mem.readLE (inFrame f (mv.linear s o)) mv.vl.bytes).setWidth 512 := by
  unfold loadWhole at h
  split at h
  next => cases h
  next la hla =>
    obtain ⟨-, -, rfl⟩ := (operandAddr_ok _ _ _ _ _).1 hla
    rw [translate_of_frame hf] at h
    cases h
    rfl

/-- A completed load with every element enabled gives the register the bytes of the page frame. -/
theorem getLsbD_zmmAt_of_load {i : Instr} {s t : State} {o : MemOp} {f : BitVec 52} {b : Nat}
    (h : exec i s = .next t) (hr : i.view.toRm = false) (hm : i.view.m.rm = .mem o)
    (hall : AllEnabled i s) (hf : s.pageAnswer (pageOf (i.move.linear s o)) .read = .frame f)
    (hb : b < i.view.vl.bits) :
    (t.zmmAt i.move.regNum).getLsbD b =
      (s.mem.readLE (inFrame f (i.move.linear s o)) i.view.vl.bytes).getLsbD b := by
  obtain ⟨v, hload, rfl⟩ := exec_next_of_toReg_mem h hr hm
  rw [loadOperand_of_allEnabled hall] at hload
  have hb512 : b < 512 := hb.trans_le (bits_le _)
  rw [zmmAt_writeReg_same, getLsbD_newReg_of_allEnabled hall _ _ hb512, vec_of_loadWhole hload hf,
    move_vl, if_pos hb, BitVec.getLsbD_setWidth, decide_eq_true hb512, Bool.true_and]

/-- A completed store with every element enabled writes the register's bytes in the page frame. -/
theorem eq_writeBytes_of_store {i : Instr} {s t : State} {o : MemOp} {f : BitVec 52}
    (h : exec i s = .next t) (hr : i.view.toRm = true) (hm : i.view.m.rm = .mem o)
    (hall : AllEnabled i s) (hf : s.pageAnswer (pageOf (i.move.linear s o)) .write = .frame f) :
    t.mem = s.mem.writeBytes (inFrame f (i.move.linear s o))
      (bytesLE i.view.vl.bytes (s.zmmAt i.move.regNum)) := by
  obtain ⟨m, hstore, rfl⟩ := exec_next_of_toRm_mem h hr hm
  rw [storeOperand_of_allEnabled hall] at hstore
  rw [advance_mem, mem_of_storeWhole hstore hf, move_vl]

theorem bytesLE_setWidth {w : Nat} (n : Nat) (v : BitVec w) :
    bytesLE n (v.setWidth (8 * n)) = bytesLE n v := by
  refine List.map_congr_left fun k hk => ?_
  have hlt : k < n := List.mem_range.1 hk
  ext b hb
  have hbit : 8 * k + b < 8 * n := by omega
  simp [hbit]

/-- The low bits of a stored vector read back. -/
theorem readLE_writeBytes_bytesLE {w : Nat} (m : Memory) (a n : Nat) (v : BitVec w) :
    (m.writeBytes a (bytesLE n v)).readLE a n = v.setWidth (8 * n) := by
  obtain ⟨hread, -⟩ := storedValueReadBack m a n (v.setWidth (8 * n))
  rw [← bytesLE_setWidth]
  exact (hread 0 n (Nat.zero_add n).le).trans BitVec.extractLsb'_eq_self

/-- An instruction that completes keeps `Translate`. -/
theorem exec_keeps_pageAnswer {i : Instr} {s t : State} (h : exec i s = .next t) :
    t.pageAnswer = s.pageAnswer := by
  rw [exec_sameButMoved h]
  rfl

/-- Settles O49: both accesses are to the same bytes of the one page frame. -/
theorem loadSeesEarlierStore : Obligations.LoadSeesEarlierStore := by
  intro i j s t u o o' f hir hjr him hjm hvl hi hj hla hwrite hread hstore hload b hb
  have hread' : t.pageAnswer (pageOf (j.move.linear t o')) .read = .frame f := by
    rw [exec_keeps_pageAnswer hstore, hla]
    exact hread
  rw [getLsbD_zmmAt_of_load hload hjr hjm hj hread' (hvl ▸ hb), hla,
    eq_writeBytes_of_store hstore hir him hi hwrite, ← hvl, readLE_writeBytes_bytesLE,
    BitVec.getLsbD_setWidth, ← bits_eq_bytes, decide_eq_true hb, Bool.true_and]

/-! ## The launch -/

/-- The launch sets bits 9 and 18 of CR4, OSFXSR and OSXSAVE (70_reset_and_hazards.md R192). -/
theorem getLsbD_launch64_cr4 (s : State) {b : Nat} (hb : (0x40200#64).getLsbD b = true) :
    s.launch64.cr4.getLsbD b = true := by
  simp [State.launch64, hb]

/-- The launch sets bits 0, 1, 2, 5, 6 and 7 of XCR0. -/
theorem getLsbD_launch64_xcr0 (s : State) {b : Nat} (hb : (0xE7#64).getLsbD b = true) :
    s.launch64.xcr0.getLsbD b = true := by
  simp [State.launch64, hb]

/-- The launch sets IA32_EFER.LMA. -/
theorem getLsbD_launch64_efer_lma (s : State) : s.launch64.efer.getLsbD 10 = true := by
  simp [State.launch64]

/-- The launch clears bits 2 and 3 of CR0, EM and TS. -/
theorem getLsbD_launch64_cr0 (s : State) {b : Nat} (hb : (0xC#64).getLsbD b = true) :
    s.launch64.cr0.getLsbD b = false := by
  rw [State.launch64, BitVec.getLsbD_and, BitVec.getLsbD_not, hb, Bool.not_true, Bool.and_false,
    Bool.and_false]

theorem mode_launch64 (s : State) : s.launch64.mode = .mode64 := by
  obtain ⟨hlong, -⟩ := modeOfMachine s.launch64
  exact hlong (getLsbD_launch64_efer_lma s) rfl

theorem vexStateOn_launch64 (s : State) : VexStateOn s.launch64 :=
  ⟨getLsbD_launch64_cr4 s (by decide), getLsbD_launch64_xcr0 s (by decide),
    getLsbD_launch64_xcr0 s (by decide), .inl (getLsbD_launch64_efer_lma s)⟩

/-- On the primary configuration a row of each format is ready after the launch. -/
theorem ready_launch64 {s : State} (w : View) (hcfg : s.cfg = Config.primary) :
    w.ready s.launch64 := by
  have hcfg' : s.launch64.cfg = Config.primary := hcfg
  unfold View.ready
  rw [hcfg']
  cases w.fmt with
  | leg => exact ⟨rfl, getLsbD_launch64_cr0 s (by decide), getLsbD_launch64_cr4 s (by decide)⟩
  | vex2 => exact ⟨rfl, vexStateOn_launch64 s⟩
  | vex3 => exact ⟨rfl, vexStateOn_launch64 s⟩
  | evex =>
    exact ⟨rfl, .inr rfl, vexStateOn_launch64 s, getLsbD_launch64_xcr0 s (by decide),
      getLsbD_launch64_xcr0 s (by decide), getLsbD_launch64_xcr0 s (by decide)⟩

/-- Settles O57: the launch sets the state that each format needs, and touches nothing else. -/
theorem launchMakesReady : Obligations.LaunchMakesReady := fun s i hcfg =>
  ⟨mode_launch64 s, ready_launch64 i.view hcfg, getLsbD_launch64_cr0 s (by decide),
    rfl, rfl, rfl, rfl, rfl⟩

end Sys2Proof.Proofs
